-- ==== Sys2Proof/Word.lean ====
section
/-! DEFINITION. The word widths of WWVB-CORE and the symbol a slot carries.

Bit 0 is the least significant bit everywhere (00_scope R9). Only what the spec treats as bits is a bit vector. -/

namespace Sys2Proof

/-- The 40-bit command word of the command port (30_encoding R81). -/
abbrev CommandWord := BitVec 40

/-- The 4-bit request vector `PEND[3:0]` the arbiter isolates a request from (30_encoding R86). -/
abbrev RequestWord := BitVec 4

/-- The 2-bit code `carrier_op[1:0]` of the carrier port (30_encoding R87). -/
abbrev CarrierWord := BitVec 2

/-- One second's transmitted symbol, `{ZERO, ONE, MARKER}` (00_scope R13, 30_encoding R84).
The reserved code 3 has no value here (92_eei_decisions D32, log 9). -/
inductive SlotValue where
  | zero
  | one
  | marker
  deriving DecidableEq, Repr, Inhabited

/-- The index of a slot in a frame, 0..59 (20_memory R63). -/
abbrev SlotIndex := Fin 60

/-- A frame bank, 0 or 1 (20_memory R60). -/
abbrev Bank := Fin 2

/-- A Frame: "a total map from slot index 0..59 to SlotValue" (42_frame_encoder R140). It is never a field of State. -/
abbrev Frame := SlotIndex → SlotValue

end Sys2Proof
end

