-- ==== Sys2Proof/Config.lean ====
section
/-! DEFINITION. What is fixed for one machine and is not state (10_state R20): the two open parameters of the spec,
and the free value the spec leaves to nobody.

The defaults of the parameters stand with the functions they feed, in Machine/Calendar.lean and
Machine/FrameEncoder.lean; the fixed constants of 00_scope R5 stand in Machine/Operands.lean. -/

namespace Sys2Proof

/-- What one slot of the code word carries: a class of the table of 42_frame_encoder R146.
`minute b` is the bit `m[b]` of the packed minute, and so on; `dst copy` is one of the two DST bits. -/
inductive SlotContent where
  | marker
  | zero
  | minute (bit : Fin 7)
  | hour (bit : Fin 6)
  | day (bit : Fin 10)
  | year (bit : Fin 8)
  | leapYear
  | leapSecond
  | dst (copy : Fin 2)
  deriving DecidableEq, Repr

/-- The open parameters (00_scope R5). A claim about a bit position names `layout`, a claim about a DST bit names
`dstWindow`. The step functions take them as an argument (`execWith`, `stepWith`, `machineWith`); exec, step and core are
those functions at the spec's defaults (log 3, log 4). -/
structure Params where
  /-- `P_LAYOUT`: what each slot index carries (42_frame_encoder R144, R146). -/
  layout : SlotIndex → SlotContent
  /-- `P_DST_WINDOW`: year to (start, end), day-of-year numbers (41_calendar R124). -/
  dstWindow : Nat → Nat × Nat

/-- FREE VALUE (log 2): what the frame store holds at an address after the `epoch`-th `Reset` until ENCODE writes
there. "After `Reset` the contents of both banks are unspecified" (10_state R24). It has no body, so no proof can
see a value of it; it depends on nothing a program writes, since reading changes nothing (20_memory R64). -/
opaque Config.unwrittenSlot (epoch address : Nat) : SlotValue

end Sys2Proof
end

