-- ==== Sys2Proof/Syntax.lean ====
section
/-! DEFINITION. The 13 operations of 30_encoding R80 (spec/opcode_table.json), one constructor each.

Operands are the naturals that 30_encoding R82 assembles from the command word; that they fit their fields is
checked in WellFormed.lean, and their legal ranges are each command's own rule. -/

namespace Sys2Proof

/-- The document's TimeSample, "{year (full, e.g. 2025), day_of_year (1–366), hour (0–23), minute (0–59)}"
(00_scope R13), before any range check. -/
structure TimeSample where
  year : Nat
  dayOfYear : Nat
  hour : Nat
  minute : Nat
  deriving DecidableEq, Repr

/-- An operation of the block: a host command, a timer-event service or a carrier output operation (00_scope R6). -/
inductive Instr where
  /-- NOP, format CMD (44_command_port R221). -/
  | nop
  /-- ENCODE, format CMD (42_frame_encoder R160). -/
  | encode (sample : TimeSample)
  /-- START, format CMD (43_slot_scheduler R171). -/
  | start
  /-- PACK, format CMD (40_bcd_packer R112). -/
  | pack (n : Nat)
  /-- LEAP, format CMD (41_calendar R121). -/
  | leap (year : Nat)
  /-- DSTWIN, format CMD (41_calendar R126). -/
  | dstwin (year : Nat)
  /-- ISDST, format CMD (41_calendar R128). -/
  | isdst (year dayOfYear : Nat)
  /-- BITFIRE0, format EVT: service of the ZERO timer (43_slot_scheduler R188). -/
  | bitfire0
  /-- BITFIRE1, format EVT: service of the ONE timer (43_slot_scheduler R188). -/
  | bitfire1
  /-- BITFIRE2, format EVT: service of the MARKER timer (43_slot_scheduler R188). -/
  | bitfire2
  /-- TICK, format EVT: service of the Second Tick (43_slot_scheduler R184). -/
  | tick
  /-- SET_CARRIER_LOW, format OUT (43_slot_scheduler R174). -/
  | setCarrierLow
  /-- SET_CARRIER_FULL, format OUT (43_slot_scheduler R175). -/
  | setCarrierFull
  deriving DecidableEq, Repr

end Sys2Proof
end

