-- ==== Sys2Proof/WellFormed.lean ====
section
/-! DEFINITION. Well-formed operations: every operand fits its field of the command word (30_encoding R81:
YEAR 14, DOY 9, HOUR 5, MIN 6, N 10 bits). A field's full binary range is wider than its legal range (R82); the
legal range is checked by the command, not here. -/

namespace Sys2Proof

/-- The four fields of a TimeSample fit YEAR, DOY, HOUR and MIN (30_encoding R81). -/
def TimeSample.fits (t : TimeSample) : Bool :=
  decide (t.year < 2 ^ 14) && decide (t.dayOfYear < 2 ^ 9) && decide (t.hour < 2 ^ 5) && decide (t.minute < 2 ^ 6)

/-- An operation is well-formed when its operands fit their fields (30_encoding R81). -/
def Instr.wf : Instr → Bool
  | .nop => true
  | .encode t => t.fits
  | .start => true
  | .pack n => decide (n < 2 ^ 10)
  | .leap y => decide (y < 2 ^ 14)
  | .dstwin y => decide (y < 2 ^ 14)
  | .isdst y d => decide (y < 2 ^ 14) && decide (d < 2 ^ 9)
  | .bitfire0 => true
  | .bitfire1 => true
  | .bitfire2 => true
  | .tick => true
  | .setCarrierLow => true
  | .setCarrierFull => true

end Sys2Proof
end

