-- ==== Sys2Proof/Decode.lean ====
section
/-! DEFINITION. Decoding and encoding (30_encoding §2, §4, §5). The block has three ports an operation is read from,
each with a word of its own: the 40-bit command word, the 4-bit request vector with one request isolated, and the
2-bit carrier operation code. -/

namespace Sys2Proof

/-- A word on one of the three ports (30_encoding R80: formats CMD, EVT, OUT). -/
inductive PortWord where
  | cmd (w : CommandWord)
  | request (r : RequestWord)
  | carrierOp (c : CarrierWord)
  deriving DecidableEq, Repr

/-- Why a word is no operation. -/
inductive DecodeError where
  /-- `cmd[35:34] != 0` (30_encoding R88). -/
  | reservedBits
  /-- `cmd[39:36]` in 7..15 (30_encoding R88). -/
  | reservedOpcode
  /-- The request word does not have exactly one bit set (30_encoding R86). -/
  | requestNotIsolated
  /-- `carrier_op = 0b00`, "no operation" (30_encoding R87). -/
  | noCarrierOperation
  /-- `carrier_op = 0b11`, which "never occurs" (30_encoding R87). -/
  | carrierCodeUnused
  deriving DecidableEq, Repr

/-- The field `v[hi:lo]` read as a natural, `(v div 2^lo) mod 2^(hi-lo+1)` (00_scope R9). -/
def field {n : Nat} (v : BitVec n) (hi lo : Nat) : Nat :=
  v.toNat / 2 ^ lo % 2 ^ (hi - lo + 1)

/-- `year = cmd[33:20]` (30_encoding R82). -/
def yearField (w : CommandWord) : Nat := field w 33 20

/-- `day_of_year = cmd[19:11]` (30_encoding R82). -/
def dayField (w : CommandWord) : Nat := field w 19 11

/-- `hour = cmd[10:6]` (30_encoding R82). -/
def hourField (w : CommandWord) : Nat := field w 10 6

/-- `minute = cmd[5:0]` (30_encoding R82). -/
def minuteField (w : CommandWord) : Nat := field w 5 0

/-- `n = cmd[9:0]` (30_encoding R82). -/
def packField (w : CommandWord) : Nat := field w 9 0

/-- The TimeSample a command word carries (30_encoding R82). -/
def sampleField (w : CommandWord) : TimeSample :=
  { year := yearField w, dayOfYear := dayField w, hour := hourField w, minute := minuteField w }

/-- The row of 30_encoding R83 that `OP = cmd[39:36]` selects; operands by R82. -/
def decodeOpcode (op : Nat) (w : CommandWord) : Except DecodeError Instr :=
  match op with
  | 0 => .ok .nop
  | 1 => .ok (.encode (sampleField w))
  | 2 => .ok .start
  | 3 => .ok (.pack (packField w))
  | 4 => .ok (.leap (yearField w))
  | 5 => .ok (.dstwin (yearField w))
  | 6 => .ok (.isdst (yearField w) (dayField w))
  | _ => .error .reservedOpcode

/-- The command decoder, total on all 2^40 words: the `RSV` check, then the row selected by `OP` (30_encoding R83). -/
def decodeCmd (w : CommandWord) : Except DecodeError Instr :=
  if field w 35 34 = 0 then decodeOpcode (field w 39 36) w else .error .reservedBits

/-- The service a one-hot request selects (30_encoding R86). -/
def decodeRequest (r : RequestWord) : Except DecodeError Instr :=
  if r = 0b0001#4 then .ok .bitfire0
  else if r = 0b0010#4 then .ok .bitfire1
  else if r = 0b0100#4 then .ok .bitfire2
  else if r = 0b1000#4 then .ok .tick
  else .error .requestNotIsolated

/-- The carrier operation a code stands for (30_encoding R87). -/
def decodeCarrierOp (c : CarrierWord) : Except DecodeError Instr :=
  if c = 0b01#2 then .ok .setCarrierLow
  else if c = 0b10#2 then .ok .setCarrierFull
  else if c = 0b00#2 then .error .noCarrierOperation
  else .error .carrierCodeUnused

/-- The decoder of the block, port by port. -/
def decode : PortWord → Except DecodeError Instr
  | .cmd w => decodeCmd w
  | .request r => decodeRequest r
  | .carrierOp c => decodeCarrierOp c

/-- A command word from its opcode and its operand part: `OP*2^36 + operands`, `RSV` 0 (30_encoding R81, R93). -/
def commandWord (op operands : Nat) : CommandWord := BitVec.ofNat 40 (op * 2 ^ 36 + operands)

/-- The canonical word of an operation: 0 in every field it does not use (30_encoding R86, R87, R93). -/
def encode : Instr → PortWord
  | .nop => .cmd (commandWord 0 0)
  | .encode t => .cmd (commandWord 1 (t.year * 2 ^ 20 + t.dayOfYear * 2 ^ 11 + t.hour * 2 ^ 6 + t.minute))
  | .start => .cmd (commandWord 2 0)
  | .pack n => .cmd (commandWord 3 n)
  | .leap y => .cmd (commandWord 4 (y * 2 ^ 20))
  | .dstwin y => .cmd (commandWord 5 (y * 2 ^ 20))
  | .isdst y d => .cmd (commandWord 6 (y * 2 ^ 20 + d * 2 ^ 11))
  | .bitfire0 => .request 0b0001#4
  | .bitfire1 => .request 0b0010#4
  | .bitfire2 => .request 0b0100#4
  | .tick => .request 0b1000#4
  | .setCarrierLow => .carrierOp 0b01#2
  | .setCarrierFull => .carrierOp 0b10#2

/-- Every command word the script notation of 30_encoding R93 and the opcode map allow, less the bits its command
ignores: the bits of `w` that the command with opcode `op` reads (30_encoding R81, R82). -/
def usedBits (op : Nat) : CommandWord :=
  match op with
  | 1 => 0xFFFFFFFFFF#40
  | 3 => 0xFC000003FF#40
  | 4 => 0xFFFFF00000#40
  | 5 => 0xFFFFF00000#40
  | 6 => 0xFFFFFFF800#40
  | _ => 0xFC00000000#40

/-- The port a row of spec/opcode_table.json is read from, by how many bits the table gives it, and the word on it.
2 bits are a carrier code, up to 8 a request vector (its 4 bits in a whole byte), more a command word. A 2-bit row
given in a whole byte cannot be told from a request row, and is read as a request (log 7). -/
def tablePort (nbits w : Nat) : PortWord :=
  if nbits ≤ 2 then .carrierOp (BitVec.ofNat 2 w)
  else if nbits ≤ 8 then .request (BitVec.ofNat 4 w)
  else .cmd (BitVec.ofNat 40 w)

/-- The largest number of bits a word on the port of `tablePort` has. -/
def tableWidth (nbits : Nat) : Nat := if nbits ≤ 2 then 2 else if nbits ≤ 8 then 4 else 40

/-- The operation the decoder reads from a table word; none where it refuses or the word does not fit its port. -/
def decodeTableWord (nbits w : Nat) : Option Instr :=
  if w < 2 ^ tableWidth nbits then
    match decode (tablePort nbits w) with
    | .ok i => some i
    | .error _ => none
  else none

end Sys2Proof
end

