-- ==== Sys2Proof/Machine/State.lean ====
section
/-! DEFINITION. The state of WWVB-CORE: the registers of 10_state R21, the output trace kept beside them
(00_scope R8), and two fields of the model's own (`inputs`, `epoch`). All plain data. -/

namespace Sys2Proof.Machine

/-- The scheduler state register, "{IDLE, CARRIER_FULL, CARRIER_LOW}" (10_state R27). Code 3 is never reached and has
no value here (log 9). -/
inductive Sched where
  | idle
  | carrierFull
  | carrierLow
  deriving DecidableEq, Repr

/-- The alphabet of output events (00_scope R8). -/
inductive Event where
  | carrierLow
  | carrierFull
  | diag (v : SlotValue)
  | diagNewline
  | minuteDone
  deriving DecidableEq, Repr

/-- An output event with the value of `TB` at which it was emitted (00_scope R8). -/
structure Stamped where
  event : Event
  tb : BitVec 64
  deriving DecidableEq, Repr

/-- What the environment can do next: one constructor per step kind of 00_scope R7. -/
inductive Input where
  /-- The step `Reset` (70_reset R260). -/
  | reset
  /-- The step `Cmd(w)` (44_command_port R220). -/
  | cmd (w : CommandWord)
  /-- The step `Usec(hold)` (43_slot_scheduler R180). -/
  | usec (hold : Bool)
  deriving DecidableEq, Repr

/-- The frame store as data: the slots written since the last `Reset`, address first, addresses strictly rising.
An unlisted address holds no value (10_state R24, log 2). The unit is one slot, the spec's smallest addressable unit
(20_memory R60, log 10). -/
abbrev Memory := List (Nat × SlotValue)

/-- The state of the block: "exactly the tuple of the registers" of 10_state R21 (R20). Two states of the block with
equal registers are equal. Field names are the spec's register names in lower case. -/
structure Registers where
  /-- `TB`, the free-running microsecond count (10_state R32). -/
  tb : BitVec 64
  /-- `FB`, the frame store, location `60*b + i` (10_state R24, 20_memory R60). -/
  fb : Memory
  /-- `FSEL`, the front bank (10_state R25). -/
  fsel : Bank
  /-- `FVALID` (10_state R25). -/
  fvalid : Bool
  /-- `FRESH` (10_state R25). -/
  fresh : Bool
  /-- `IDX`, the next slot to transmit, this block's program counter (10_state R23). -/
  idx : SlotIndex
  /-- `SCHED` (10_state R27). -/
  sched : Sched
  /-- `CARRIER`, true = full power (10_state R28). -/
  carrier : Bool
  /-- `ST_RUN` (10_state R29). -/
  stRun : Bool
  /-- `ST_CNT` (10_state R29). -/
  stCnt : BitVec 20
  /-- `BT_ARMED[k]` (10_state R30). -/
  btArmed : Vector Bool 3
  /-- `BT_CNT[k]` (10_state R30). -/
  btCnt : Vector (BitVec 20) 3
  /-- `PEND[3:0]` (10_state R33). -/
  pend : BitVec 4
  /-- `LATE[3:0]` (10_state R33). -/
  late : BitVec 4
  /-- `ERR[4:0]` (10_state R34). -/
  err : BitVec 5
  /-- `INV_CNT` (10_state R35). -/
  invCnt : BitVec 32
  /-- `OVR_CNT` (10_state R35). -/
  ovrCnt : BitVec 32
  /-- `STALE_CNT` (10_state R35). -/
  staleCnt : BitVec 32
  /-- `RESULT` (10_state R36). -/
  result : BitVec 32
  deriving DecidableEq, Repr

/-- What a step works on: the registers, and beside them what the spec says is not state of the block. "The output
trace is a record kept beside the state" and "the `hold` input and the command words are inputs of a step" (10_state
R20): the trace and the list of inputs to come stand here because the host's step takes one argument (log 1). -/
structure State extends Registers where
  /-- The output trace, oldest event first (00_scope R8; log 8). -/
  trace : List Stamped
  /-- MODEL'S OWN: the steps the environment is going to take, next one first (log 1). -/
  inputs : List Input
  /-- MODEL'S OWN: how many `Reset` steps there have been; the free value of an unwritten slot is applied to it (log 2). -/
  epoch : Nat
  deriving DecidableEq, Repr

/-- No fault exists: "`raise` never transfers control anywhere: the block has no trap handler" (00_scope R10), and
every one of the 2^40 command words has a defined effect (30_encoding R88). No meaning and no step raises one; that
is safe, since nothing in the spec stops the block (log 20). -/
inductive Fault where
  deriving DecidableEq, Repr

/-- Why an operation has no meaning in the model. -/
inductive Refusal where
  /-- Raised by an arm of exec whose operation is not modelled yet, and by nothing else; safe. -/
  | notModelled (mnemonic : String)
  deriving DecidableEq, Repr

/-- What a step or an operation answers. -/
abbrev Result := Host.Outcome State Fault Refusal

/-- The machine right after `Reset` (10_state R46): every register at the value the rule lists, the frame store with
no slot written, the trace empty. `inputs` and `epoch` are the model's own (log 14). -/
def State.reset : State :=
  { tb := 0, fb := [], fsel := 0, fvalid := false, fresh := false, idx := 0, sched := .idle, carrier := true,
    stRun := false, stCnt := 0, btArmed := #v[false, false, false], btCnt := #v[0, 0, 0], pend := 0, late := 0,
    err := 0, invCnt := 0, ovrCnt := 0, staleCnt := 0, result := 0, trace := [], inputs := [], epoch := 0 }

end Sys2Proof.Machine
end

