-- ==== Sys2Proof/Machine/Operands.lean ====
section
/-! DEFINITION. The fixed constants of 00_scope R5 and 10_state R21, the codes of 30_encoding R84, and the range
checks the commands make on their operands (30_encoding R82: the check of the legal range is part of each command's
rule, not of decoding). -/

namespace Sys2Proof.Machine

/-- `ST_PERIOD` = `T_TICK` = 1,000,000 µs (00_scope R5, 10_state R29). -/
def stPeriod : BitVec 20 := 1000000#20

/-- `BT_ALARM[k]`: the low-power durations of ZERO, ONE and MARKER in µs (10_state R30). -/
def btAlarm (k : Fin 3) : BitVec 20 :=
  match k with
  | 0 => 200000#20
  | 1 => 500000#20
  | 2 => 800000#20

/-- The code of a SlotValue: ZERO 0, ONE 1, MARKER 2; it indexes the Bit Timers (30_encoding R84). -/
def slotCode : SlotValue → Fin 3
  | .zero => 0
  | .one => 1
  | .marker => 2

/-- `T_LOW(v)`, "mapping SlotValue → low-power duration in microseconds" (00_scope R5, R13). -/
def tLow : SlotValue → Nat
  | .zero => 200000
  | .one => 500000
  | .marker => 800000

/-- `SV(b)`: a data bit as a SlotValue (42_frame_encoder R141). -/
def slotOfBit (b : Bool) : SlotValue := if b then .one else .zero

/-- `MARKER_SET` (00_scope R5). -/
def markerSet : List Nat := [0, 9, 19, 29, 39, 49, 59]

/-- `ZERO_SET` (00_scope R5). -/
def zeroSet : List Nat := [4, 10, 11, 14, 20, 21, 24, 34, 35, 36, 37, 38, 40, 41, 42, 43, 44, 54]

/-- The valid years, 1..9999 (92_eei_decisions D6). -/
def yearOk (y : Nat) : Bool := decide (1 ≤ y) && decide (y ≤ 9999)

/-- The valid days of the year, 1..366, whatever the year (92_eei_decisions D6). -/
def dayOk (d : Nat) : Bool := decide (1 ≤ d) && decide (d ≤ 366)

/-- Line 1 of ENCODE: each field against its own range only (42_frame_encoder R160, R161). -/
def sampleOk (t : TimeSample) : Bool :=
  yearOk t.year && dayOk t.dayOfYear && decide (t.hour ≤ 23) && decide (t.minute ≤ 59)

end Sys2Proof.Machine
end

