-- ==== Sys2Proof/Machine/Flags.lean ====
section
/-! DEFINITION. The five error classes, their bits in `ERR` and their counters (10_state R34, R35; 60_exceptions R230).
Recording one is `raise`, in Ops.lean. -/

namespace Sys2Proof.Machine

/-- The error classes of 60_exceptions R230. -/
inductive ErrorClass where
  | invalidTimeSample
  | timingOverrun
  | staleFrame
  | illegalCommand
  | startNoFrame
  deriving DecidableEq, Repr

/-- Cause codes 1..5 (60_exceptions R230). -/
def causeCode : ErrorClass → Nat
  | .invalidTimeSample => 1
  | .timingOverrun => 2
  | .staleFrame => 3
  | .illegalCommand => 4
  | .startNoFrame => 5

/-- The bit of `ERR` a class sets: bit `code - 1` (10_state R34). -/
def errBit (x : ErrorClass) : BitVec 5 :=
  match x with
  | .invalidTimeSample => 0b00001#5
  | .timingOverrun => 0b00010#5
  | .staleFrame => 0b00100#5
  | .illegalCommand => 0b01000#5
  | .startNoFrame => 0b10000#5

/-- `sat_32(X + 1)` (00_scope R9, 10_state R35). -/
def satSucc (x : BitVec 32) : BitVec 32 := if x = BitVec.allOnes 32 then x else x + 1

end Sys2Proof.Machine
end

