-- ==== Sys2Proof/Machine/Ops.lean ====
section
/-! DEFINITION. The named operations the meanings are written over: the frame store, `emit`, `raise`, the carrier
operations, the timers, and the entry into a service.

Taking an exception is `raise` (60_exceptions R231): it sets the class's flag, bumps its counter where it has one,
and transfers control nowhere, so no pc, status or mode is saved. Being interrupted is `acknowledge` (R242): `PEND[i]`
and `LATE[i]` are cleared and the handler body runs. There is no return from either (R243). -/

namespace Sys2Proof.Machine

/-! ### The frame store -/

/-- The location of bank `b`, slot `i`: `60*b + i` (20_memory R60, 92_eei_decisions D27). -/
def slotAddress (b : Bank) (i : SlotIndex) : Nat := 60 * b.val + i.val

/-- The slot listed at an address; none where nothing has been written since `Reset` (10_state R24). -/
def Memory.read (m : Memory) (a : Nat) : Option SlotValue :=
  match m with
  | [] => none
  | (k, v) :: rest => if a = k then some v else Memory.read rest a

/-- Store one slot, keeping the addresses strictly rising. -/
def Memory.write (m : Memory) (a : Nat) (v : SlotValue) : Memory :=
  match m with
  | [] => [(a, v)]
  | (k, w) :: rest =>
    if a < k then (a, v) :: (k, w) :: rest
    else if a = k then (a, v) :: rest
    else (k, w) :: Memory.write rest a v

/-- Every address of `m` is above `lo` and they rise strictly. -/
def Memory.risesFrom (m : Memory) (lo : Nat) : Bool :=
  match m with
  | [] => true
  | (k, _) :: rest => decide (lo ≤ k) && Memory.risesFrom rest (k + 1)

/-- The canonical form: strictly rising addresses, all of them locations of the frame store (20_memory R60). An
unlisted address holds no value, so no entry can equal what an unlisted address reads as. -/
def Memory.wf (m : Memory) : Bool := Memory.risesFrom m 0 && m.all (fun e => decide (e.1 < 120))

/-- `SlotWrite(b, i, v)` (00_scope R10). -/
def slotWrite (m : Memory) (b : Bank) (i : SlotIndex) (v : SlotValue) : Memory := Memory.write m (slotAddress b i) v

/-- Slots 0 .. n-1 of `for i in 0..59: SlotWrite(b, i, F[i])` (42_frame_encoder R160 line 4). -/
def writeSlots (m : Memory) (b : Bank) (f : Frame) : Nat → Memory
  | 0 => m
  | n + 1 => slotWrite (writeSlots m b f n) b (Fin.ofNat 60 n) (f (Fin.ofNat 60 n))

/-- The 60 slot writes of ENCODE (42_frame_encoder R160 line 4). -/
def writeBank (m : Memory) (b : Bank) (f : Frame) : Memory := writeSlots m b f 60

/-- The slot the frame store lists for bank `b`, slot `i`, if any was written since `Reset`. -/
def State.slot? (s : State) (b : Bank) (i : SlotIndex) : Option SlotValue := Memory.read s.fb (slotAddress b i)

/-- `SlotRead(b, i)` (00_scope R10). A slot never written since `Reset` reads as a free value (10_state R24,
93_implementation_defined U3; log 2). Reading changes nothing (20_memory R64). -/
def State.slotRead (s : State) (b : Bank) (i : SlotIndex) : SlotValue :=
  (s.slot? b i).getD (Config.unwrittenSlot s.epoch (slotAddress b i))

/-! ### Output events, errors, carrier -/

/-- `emit E`: append the event, stamped with the current `TB` (00_scope R10). -/
def emit (e : Event) (s : State) : State := { s with trace := s.trace ++ [{ event := e, tb := s.tb }] }

/-- `raise X` (60_exceptions R231): set the flag; if the class has a counter, `counter <- sat_32(counter + 1)`. -/
def raise (x : ErrorClass) (s : State) : State :=
  { s with
    err := s.err ||| errBit x
    invCnt := if x = .invalidTimeSample then satSucc s.invCnt else s.invCnt
    ovrCnt := if x = .timingOverrun then satSucc s.ovrCnt else s.ovrCnt
    staleCnt := if x = .staleFrame then satSucc s.staleCnt else s.staleCnt }

/-- `raise X` where a condition of the pseudocode holds, and go on. -/
def raiseIf (c : Bool) (x : ErrorClass) (s : State) : State := if c then raise x s else s

/-- `CARRIER <- 0; emit CarrierLow` (43_slot_scheduler R174). -/
def carrierDown (s : State) : State := emit .carrierLow { s with carrier := false }

/-- `CARRIER <- 1; emit CarrierFull` (43_slot_scheduler R175). -/
def carrierUp (s : State) : State := emit .carrierFull { s with carrier := true }

/-- `RESULT <- r`, the answer of a query command (10_state R36). -/
def answer (r : BitVec 32) (s : State) : State := { s with result := r }

/-! ### Timers and requests -/

/-- `ST_CNT <- 0 ; ST_RUN <- 1` (43_slot_scheduler R171). -/
def armSecondTick (s : State) : State := { s with stCnt := 0, stRun := true }

/-- `BT_CNT[k] <- 0 ; BT_ARMED[k] <- 1` (43_slot_scheduler R184 line 6). -/
def armBitTimer (k : Fin 3) (s : State) : State :=
  { s with btCnt := s.btCnt.set k 0, btArmed := s.btArmed.set k true }

/-- `ST_CNT <- n` (43_slot_scheduler R181). -/
def setStCnt (n : BitVec 20) (s : State) : State := { s with stCnt := n }

/-- `BT_CNT[k] <- BT_CNT[k] + 1` (43_slot_scheduler R182). -/
def bumpBitTimer (k : Fin 3) (s : State) : State := { s with btCnt := s.btCnt.set k (s.btCnt[k] + 1) }

/-- `BT_ARMED[k] <- 0`, one-shot (43_slot_scheduler R182). -/
def disarmBitTimer (k : Fin 3) (s : State) : State := { s with btArmed := s.btArmed.set k false }

/-- Some Bit Timer is armed (43_slot_scheduler R184 line 5). -/
def anyArmed (s : State) : Bool := s.btArmed[0] || s.btArmed[1] || s.btArmed[2]

/-- The one-hot mask of request `i` (30_encoding R86). -/
def requestBit (i : Fin 4) : RequestWord := BitVec.twoPow 4 i.val

/-- `PEND[i] = 1`. -/
def pending (s : State) (i : Fin 4) : Bool := s.pend.getLsbD i.val

/-- `LATE[i] = 1`. -/
def isLate (s : State) (i : Fin 4) : Bool := s.late.getLsbD i.val

/-- `Fire(i)` (43_slot_scheduler R182): a fire that finds its request pending is lost and counted. -/
def fire (i : Fin 4) (s : State) : State :=
  if pending s i then raise .timingOverrun s else { s with pend := s.pend ||| requestBit i }

/-- The arbiter takes request `i`: `PEND[i] <- 0; LATE[i] <- 0` (43_slot_scheduler R183, 60_exceptions R242). -/
def acknowledge (i : Fin 4) (s : State) : State :=
  { s with pend := s.pend &&& ~~~ requestBit i, late := s.late &&& ~~~ requestBit i }

/-- A held request is marked late and counted, once (43_slot_scheduler R183, the `else` branch). -/
def markLate (i : Fin 4) (s : State) : State :=
  if pending s i && !isLate s i then raise .timingOverrun { s with late := s.late ||| requestBit i } else s

/-! ### Sequencing -/

/-- Run `f` on the state of a next outcome; a stop stays a stop. -/
def andThen (r : Result) (f : State → Result) : Result :=
  match r with
  | .next s => f s
  | .fault e => .fault e
  | .refused e => .refused e

end Sys2Proof.Machine
end

