-- ==== Sys2Proof/Machine/CommandPort.lean ====
section
/-! DEFINITION. The one command of the command port that belongs to no component: NOP (44_command_port R221). -/

namespace Sys2Proof.Machine

/-- NOP: "the state after the step equals the state before it" (44_command_port R221). -/
def execNop (s : State) : Result := .next s

end Sys2Proof.Machine
end

