-- ==== Sys2Proof/Machine/BcdPacker.lean ====
section
/-! DEFINITION. The BCD Digit Packer: `pack_bcd` and the command PACK (40_bcd_packer). -/

namespace Sys2Proof.Machine

/-- `pack_bcd(n)` for `n` in 0..999: bits 11:8 hundreds, 7:4 tens, 3:0 ones (40_bcd_packer R110). "The function is
not defined" for `n >= 1000` (R111), so its argument is bounded by its type (log 16). -/
def packBcd (n : Fin 1000) : BitVec 16 :=
  let hundreds := n.val / 100
  let tens := (n.val - 100 * hundreds) / 10
  let ones := n.val % 10
  BitVec.ofNat 16 (hundreds * 256 + tens * 16 + ones)

/-- PACK (40_bcd_packer R112). -/
def execPack (n : Nat) (s : State) : Result :=
  if h : n < 1000 then .next (answer ((packBcd ⟨n, h⟩).setWidth 32) s)
  else .next (raise .illegalCommand s)

end Sys2Proof.Machine
end

