-- ==== Sys2Proof/Machine/Calendar.lean ====
section
/-! DEFINITION. The Calendar Helpers and the commands LEAP, DSTWIN and ISDST (41_calendar). The DST window is the open
parameter `P_DST_WINDOW`; its default is `defaultDstWindow` (log 4). -/

namespace Sys2Proof.Machine

/-- `is_leap_year(year)` (41_calendar R120). -/
def isLeapYear (y : Nat) : Bool := decide (y % 4 = 0) && (decide (y % 100 ≠ 0) || decide (y % 400 = 0))

/-- `feb_len(year)` (41_calendar R123). -/
def febLen (y : Nat) : Nat := if isLeapYear y then 29 else 28

/-- `weekday_anchor(year)` (41_calendar R123); the subtraction is never negative there. -/
def weekdayAnchor (y : Nat) : Nat := y + y / 4 - y / 100 + y / 400

/-- The default `P_DST_WINDOW` (41_calendar R124, 92_eei_decisions D13). -/
def defaultDstWindow (y : Nat) : Nat × Nat :=
  let marBase := 31 + febLen y
  let novBase := 276 + febLen y
  let a := weekdayAnchor y
  (marBase + (14 - (a + marBase) % 7), novBase + (7 - (a + novBase) % 7))

/-- `is_dst(year, day_of_year)`: `start <= day_of_year < end` (41_calendar R127). -/
def isDst (c : Params) (y d : Nat) : Bool := decide ((c.dstWindow y).1 ≤ d) && decide (d < (c.dstWindow y).2)

/-- LEAP (41_calendar R121). -/
def execLeap (y : Nat) (s : State) : Result :=
  if yearOk y then .next (answer (if isLeapYear y then 1#32 else 0#32) s)
  else .next (raise .illegalCommand s)

/-- DSTWIN under a window function (41_calendar R126): `RESULT <- end * 2^16 + start`. -/
def execDstwinWith (c : Params) (y : Nat) (s : State) : Result :=
  if yearOk y then .next (answer (BitVec.ofNat 32 ((c.dstWindow y).2 * 2 ^ 16 + (c.dstWindow y).1)) s)
  else .next (raise .illegalCommand s)

/-- ISDST under a window function (41_calendar R128). -/
def execIsdstWith (c : Params) (y d : Nat) (s : State) : Result :=
  if yearOk y && dayOk d then .next (answer (if isDst c y d then 1#32 else 0#32) s)
  else .next (raise .illegalCommand s)

end Sys2Proof.Machine
end

