-- ==== Sys2Proof/Machine/FrameEncoder.lean ====
section
/-! DEFINITION. The Frame Encoder: `encode_frame` and the command ENCODE (42_frame_encoder). The layout is the open
parameter `P_LAYOUT`; its default is `defaultLayout` (log 3). -/

namespace Sys2Proof.Machine

/-- A TimeSample within the ranges `encode_frame` is defined on (42_frame_encoder R140). -/
structure ValidSample where
  sample : TimeSample
  ok : sampleOk sample = true

/-- The minute of a valid sample is in the range of `pack_bcd`. -/
theorem ValidSample.minute_lt (t : ValidSample) : t.sample.minute < 1000 := by
  have h := t.ok; simp [sampleOk] at h; omega

/-- The hour of a valid sample is in the range of `pack_bcd`. -/
theorem ValidSample.hour_lt (t : ValidSample) : t.sample.hour < 1000 := by
  have h := t.ok; simp [sampleOk] at h; omega

/-- The day of a valid sample is in the range of `pack_bcd`. -/
theorem ValidSample.dayOfYear_lt (t : ValidSample) : t.sample.dayOfYear < 1000 := by
  have h := t.ok; simp [sampleOk, dayOk] at h; omega

/-- `m = pack_bcd(minute)` (42_frame_encoder R142). -/
def packedMinute (t : ValidSample) : BitVec 16 := packBcd ⟨t.sample.minute, t.minute_lt⟩

/-- `h = pack_bcd(hour)` (42_frame_encoder R142). -/
def packedHour (t : ValidSample) : BitVec 16 := packBcd ⟨t.sample.hour, t.hour_lt⟩

/-- `d = pack_bcd(day_of_year)` (42_frame_encoder R142). -/
def packedDay (t : ValidSample) : BitVec 16 := packBcd ⟨t.sample.dayOfYear, t.dayOfYear_lt⟩

/-- `y = pack_bcd(year mod 100)` (42_frame_encoder R142). -/
def packedYear (t : ValidSample) : BitVec 16 :=
  packBcd ⟨t.sample.year % 100, Nat.lt_trans (Nat.mod_lt _ (by decide)) (by decide)⟩

/-- What one slot is written with, by its class in the layout (42_frame_encoder R141, R142). -/
def slotContent (c : Params) (t : ValidSample) : SlotContent → SlotValue
  | .marker => .marker
  | .zero => .zero
  | .minute b => slotOfBit ((packedMinute t).getLsbD b.val)
  | .hour b => slotOfBit ((packedHour t).getLsbD b.val)
  | .day b => slotOfBit ((packedDay t).getLsbD b.val)
  | .year b => slotOfBit ((packedYear t).getLsbD b.val)
  | .leapYear => slotOfBit (isLeapYear t.sample.year)
  | .leapSecond => .zero
  | .dst _ => slotOfBit (isDst c t.sample.year t.sample.dayOfYear)

/-- `encode_frame(sample)` (42_frame_encoder R140, R142). -/
def encodeFrame (c : Params) (t : ValidSample) : Frame := fun i => slotContent c t (c.layout i)

/-- Slots 0 to 9 of the table of 42_frame_encoder R146: the minute. -/
def layoutGroup0 : List SlotContent :=
  [.marker, .minute 6, .minute 5, .minute 4, .zero, .minute 3, .minute 2, .minute 1, .minute 0, .marker]

/-- Slots 10 to 19: the hour. -/
def layoutGroup1 : List SlotContent :=
  [.zero, .zero, .hour 5, .hour 4, .zero, .hour 3, .hour 2, .hour 1, .hour 0, .marker]

/-- Slots 20 to 29: the day's hundreds and tens. -/
def layoutGroup2 : List SlotContent :=
  [.zero, .zero, .day 9, .day 8, .zero, .day 7, .day 6, .day 5, .day 4, .marker]

/-- Slots 30 to 39: the day's ones. -/
def layoutGroup3 : List SlotContent :=
  [.day 3, .day 2, .day 1, .day 0, .zero, .zero, .zero, .zero, .zero, .marker]

/-- Slots 40 to 49: the year's tens. -/
def layoutGroup4 : List SlotContent :=
  [.zero, .zero, .zero, .zero, .zero, .year 7, .year 6, .year 5, .year 4, .marker]

/-- Slots 50 to 59: the year's ones and the status bits. -/
def layoutGroup5 : List SlotContent :=
  [.year 3, .year 2, .year 1, .year 0, .zero, .leapYear, .leapSecond, .dst 0, .dst 1, .marker]

/-- The table of 42_frame_encoder R146, slots 0 to 59. -/
def layoutTable : List SlotContent :=
  layoutGroup0 ++ layoutGroup1 ++ layoutGroup2 ++ layoutGroup3 ++ layoutGroup4 ++ layoutGroup5

/-- The default `P_LAYOUT` (42_frame_encoder R146, 92_eei_decisions D9). -/
def defaultLayout (i : SlotIndex) : SlotContent := layoutTable.getD i.val .zero

/-- The spec's defaults of the open parameters, which exec, step and core run with (log 3, log 4). -/
def defaultParams : Params := { layout := defaultLayout, dstWindow := defaultDstWindow }

/-- Publish a frame: the slots of the back bank, the toggle of `FSEL`, `FVALID` and `FRESH` in one step
(42_frame_encoder R160 lines 3 to 7, 20_memory R68). -/
def publish (f : Frame) (s : State) : State :=
  let b := 1 - s.fsel
  { s with fb := writeBank s.fb b f, fsel := b, fvalid := true, fresh := true }

/-- ENCODE under given parameters (42_frame_encoder R160, R161). -/
def execEncodeWith (c : Params) (t : TimeSample) (s : State) : Result :=
  if h : sampleOk t = true then .next (publish (encodeFrame c ⟨t, h⟩) s)
  else .next (raise .invalidTimeSample s)

/-- ENCODE (42_frame_encoder R160). -/
def execEncode (t : TimeSample) (s : State) : Result := execEncodeWith defaultParams t s

/-- DSTWIN (41_calendar R126). -/
def execDstwin (y : Nat) (s : State) : Result := execDstwinWith defaultParams y s

/-- ISDST (41_calendar R128). -/
def execIsdst (y d : Nat) (s : State) : Result := execIsdstWith defaultParams y d s

end Sys2Proof.Machine
end

