-- ==== Sys2Proof/Machine/SlotScheduler.lean ====
section
/-! DEFINITION. The Slot Scheduler's operations: START, the carrier operations, TICK and BITFIREk (43_slot_scheduler).
The clearing of `PEND[i]` and `LATE[i]` before a service is the arbiter's, not the handler's (R183, log 13). -/

namespace Sys2Proof.Machine

/-- START (43_slot_scheduler R171, R172, R173). -/
def execStart (s : State) : Result :=
  if s.fvalid = false then .next (raise .startNoFrame s)
  else if s.stRun = true then .next s
  else .next (armSecondTick s)

/-- SET_CARRIER_LOW (43_slot_scheduler R174). -/
def execSetCarrierLow (s : State) : Result := .next (carrierDown s)

/-- SET_CARRIER_FULL (43_slot_scheduler R175). -/
def execSetCarrierFull (s : State) : Result := .next (carrierUp s)

/-- Line 2 of TICK: at slot 0 a frame that is not fresh is counted, and `FRESH` is cleared (43_slot_scheduler R184). -/
def consumeFresh (s : State) : State :=
  if s.idx = 0 then { raiseIf (!s.fresh) .staleFrame s with fresh := false } else s

/-- Line 10 of TICK: `if IDX = 0 then emit MinuteDone ; emit DiagNewline`, both under the condition
(43_slot_scheduler R184, R186, R187). -/
def endOfMinute (s : State) : State := if s.idx = 0 then emit .diagNewline (emit .minuteDone s) else s

/-- Line 5 of TICK: a Bit Timer that is still armed is counted as an overrun (43_slot_scheduler R184, R185). -/
def countOverlap (s : State) : State := raiseIf (anyArmed s) .timingOverrun s

/-- `SCHED <- x`. -/
def setSched (x : Sched) (s : State) : State := { s with sched := x }

/-- Line 9 of TICK: `IDX <- (IDX + 1) mod 60` (43_slot_scheduler R184, R186). -/
def advanceIdx (s : State) : State := { s with idx := s.idx + 1 }

/-- Lines 2 to 10 of TICK for the slot value `v` read in line 1, innermost line first (43_slot_scheduler R184). -/
def tickWith (v : SlotValue) (s : State) : State :=
  endOfMinute <| advanceIdx <| emit (.diag v) <| setSched .carrierLow <| armBitTimer (slotCode v) <|
    countOverlap <| carrierDown <| consumeFresh s

/-- TICK, the Second Tick service (43_slot_scheduler R184). -/
def execTick (s : State) : Result := .next (tickWith (s.slotRead s.fsel s.idx) s)

/-- `BitFire(k)`: carrier full, `SCHED <- CARRIER_FULL`; "`k` does not enter the effect" (43_slot_scheduler R188). -/
def bitFire (s : State) : State := setSched .carrierFull (carrierUp s)

/-- BITFIRE0 (43_slot_scheduler R188). -/
def execBitfire0 (s : State) : Result := .next (bitFire s)

/-- BITFIRE1 (43_slot_scheduler R188). -/
def execBitfire1 (s : State) : Result := .next (bitFire s)

/-- BITFIRE2 (43_slot_scheduler R188). -/
def execBitfire2 (s : State) : Result := .next (bitFire s)

end Sys2Proof.Machine
end

