-- ==== Sys2Proof/Machine/Dispatch.lean ====
section
/-! DEFINITION. The opcode table as a function: one arm per operation (30_encoding R80). -/

namespace Sys2Proof.Machine

-- The meaning of one operation, on the state as it finds it.
def exec (i : Instr) (s : State) : Host.Outcome State Fault Refusal :=
  match i with
  | .nop => Sys2Proof.Machine.execNop s
  | .encode sample => Sys2Proof.Machine.execEncode sample s
  | .start => Sys2Proof.Machine.execStart s
  | .pack n => Sys2Proof.Machine.execPack n s
  | .leap year => Sys2Proof.Machine.execLeap year s
  | .dstwin year => Sys2Proof.Machine.execDstwin year s
  | .isdst year dayOfYear => Sys2Proof.Machine.execIsdst year dayOfYear s
  | .bitfire0 => Sys2Proof.Machine.execBitfire0 s
  | .bitfire1 => Sys2Proof.Machine.execBitfire1 s
  | .bitfire2 => Sys2Proof.Machine.execBitfire2 s
  | .tick => Sys2Proof.Machine.execTick s
  | .setCarrierLow => Sys2Proof.Machine.execSetCarrierLow s
  | .setCarrierFull => Sys2Proof.Machine.execSetCarrierFull s

end Sys2Proof.Machine
end

