-- ==== Sys2Proof/Machine/Agents.lean ====
section
/-! DEFINITION. The three step kinds of 00_scope R7: `Cmd(w)`, `Usec(hold)` with its four phases, and `Reset`; and
where a step takes its operation from. -/

namespace Sys2Proof.Machine

/-! ### The operations under given parameters -/

/-- One operation under the open parameters `c`: the configuration "is a parameter of the step functions" (10_state
R20, 00_scope R5). Three operations look at it; the others are exec's. -/
def execWith (c : Params) (i : Instr) (s : State) : Result :=
  match i with
  | .encode sample => execEncodeWith c sample s
  | .dstwin year => execDstwinWith c year s
  | .isdst year dayOfYear => execIsdstWith c year dayOfYear s
  | .nop | .start | .pack _ | .leap _ | .bitfire0 | .bitfire1 | .bitfire2 | .tick | .setCarrierLow | .setCarrierFull =>
    exec i s

/-! ### The host: `Cmd(w)` -/

/-- `Cmd(w)` (44_command_port R220): an illegal word raises IllegalCommand and changes nothing else (R223). -/
def commandStepWith (c : Params) (w : CommandWord) (s : State) : Result :=
  match decodeCmd w with
  | .ok i => execWith c i s
  | .error _ => .next (raise .illegalCommand s)

/-- `Cmd(w)` under the default parameters (log 3, log 4). -/
def commandStep (w : CommandWord) (s : State) : Result := commandStepWith defaultParams w s

/-! ### The timebase and the real-time consumer: `Usec(hold)` -/

/-- Phase 1: `TB <- (TB + 1) mod 2^64` (43_slot_scheduler R180). -/
def countTimebase (s : State) : State := { s with tb := s.tb + 1 }

/-- Phase 2: the Second Tick counts and reloads itself (43_slot_scheduler R181). -/
def countSecondTick (s : State) : State :=
  if s.stRun then
    if s.stCnt + 1 = stPeriod then fire 3 (setStCnt 0 s) else setStCnt (s.stCnt + 1) s
  else s

/-- Phase 3 for one Bit Timer: an armed timer counts, and at its alarm disarms itself and fires
(43_slot_scheduler R182). -/
def countBitTimer (k : Fin 3) (s : State) : State :=
  if s.btArmed[k] then
    if s.btCnt[k] + 1 = btAlarm k then fire k.castSucc (disarmBitTimer k (bumpBitTimer k s)) else bumpBitTimer k s
  else s

/-- Phase 3: Bit Timers 0, 1, 2 (43_slot_scheduler R182). -/
def countBitTimers (s : State) : State := countBitTimer 2 (countBitTimer 1 (countBitTimer 0 s))

/-- Phases 1 to 3: "all fires of the step are registered before any service of the step" (60_exceptions R241). -/
def countPhases (s : State) : State := countBitTimers (countSecondTick (countTimebase s))

/-- The operation that services request `i`: what the decoder reads from the isolated request (30_encoding R86). -/
def serviceOf (i : Fin 4) : Instr :=
  match i with
  | 0 => .bitfire0
  | 1 => .bitfire1
  | 2 => .bitfire2
  | 3 => .tick

/-- Service request `i` if it is pending: clear `PEND[i]` and `LATE[i]`, then run its handler
(43_slot_scheduler R183). -/
def serviceRequest (i : Fin 4) (s : State) : Result :=
  if pending s i then exec (serviceOf i) (acknowledge i s) else .next s

/-- Phase 4 with `hold = 0`: every pending request, lowest number first (43_slot_scheduler R183). -/
def serviceAll (s : State) : Result :=
  andThen (andThen (andThen (serviceRequest 0 s) (serviceRequest 1)) (serviceRequest 2)) (serviceRequest 3)

/-- Phase 4 with `hold = 1`: nothing is serviced; each request newly left pending is counted late
(43_slot_scheduler R183). -/
def holdAll (s : State) : State := markLate 3 (markLate 2 (markLate 1 (markLate 0 s)))

/-- `Usec(hold)` (43_slot_scheduler R180). -/
def usecStep (hold : Bool) (s : State) : Result :=
  if hold then .next (holdAll (countPhases s)) else serviceAll (countPhases s)

/-! ### Reset -/

/-- The step `Reset` (70_reset R260): every register at its value of 10_state R46, both banks unspecified again. The
environment's further steps are not state of the block, and the free value of the banks is a new one (log 1, log 2). -/
def resetStep (s : State) : State := { State.reset with inputs := s.inputs, epoch := s.epoch + 1 }

/-! ### The environment -/

/-- The step the environment takes next; with no step listed, an undisturbed microsecond, the default of 00_scope R5
(log 1). -/
def nextInput (s : State) : Input :=
  match s.inputs with
  | [] => .usec false
  | i :: _ => i

/-- The state with that step taken off the list. -/
def dropInput (s : State) : State := { s with inputs := s.inputs.tail }

/-- One step of the given kind (00_scope R7): the step function of 10_state R20, whose parameter is the configuration
and whose input is the command word or the value of `hold`. Services look at no open parameter (43_slot_scheduler
R184, R188). -/
def runInputWith (c : Params) (i : Input) (s : State) : Result :=
  match i with
  | .reset => .next (resetStep s)
  | .cmd w => commandStepWith c w s
  | .usec hold => usecStep hold s

/-- One step under the open parameters `c`: the environment's next step is taken and run (00_scope R7). -/
def stepWith (c : Params) (s : State) : Result := runInputWith c (nextInput s) (dropInput s)

/-- The request whose service issues a carrier operation: TICK for low, BITFIREk for full (30_encoding R80). -/
def carrierRequest (c : CarrierWord) : RequestWord :=
  if c = 0b01#2 then 0b1000#4 else if c = 0b10#2 then 0b0001#4 else 0b0000#4

/-- Put a port word where the next step takes its operation from (log 6): a command on the command port; a request in
`PEND`, with a microsecond that is not held; for a carrier operation, the request whose service issues it. -/
def placeWord (p : PortWord) (s : State) : State :=
  match p with
  | .cmd w => { s with inputs := .cmd w :: s.inputs }
  | .request r => { s with pend := r, inputs := .usec false :: s.inputs }
  | .carrierOp c => { s with pend := carrierRequest c, inputs := .usec false :: s.inputs }

end Sys2Proof.Machine
end

