-- ==== Sys2Proof/Machine/Step.lean ====
section
/-! DEFINITION. One step of the machine: the environment's next step is taken and run (00_scope R7). -/

namespace Sys2Proof.Machine

/-- One step (00_scope R7) of the machine whose open parameters are the spec's defaults (log 3, log 4). -/
def step (s : State) : Host.Outcome State Fault Refusal := stepWith defaultParams s

/-- The state with a table word placed so that the very next step runs its operation (log 6, log 7). -/
def State.withFetchWord (s : State) (nbits w : Nat) : State := placeWord (tablePort nbits w) s

end Sys2Proof.Machine
end

