-- ==== Sys2Proof/Machine/Ports.lean ====
section
/-! DEFINITION. The output ports of 10_state R45 as views: the carrier level, the `status` view, and the pulses that
are "the hardware form of the output events" (log 17). Reading a view changes nothing. -/

namespace Sys2Proof.Machine

/-- `carrier_level` "equals `CARRIER`" (10_state R45). -/
def carrierLevel (s : State) : Bool := s.carrier

/-- The 2-bit code of a SlotValue: ZERO 0b00, ONE 0b01, MARKER 0b10 (30_encoding R84). -/
def symbolCode (v : SlotValue) : BitVec 2 := BitVec.ofNat 2 (slotCode v).val

/-- The 2-bit code of `SCHED`: IDLE 0, CARRIER_FULL 1, CARRIER_LOW 2 (10_state R27). -/
def schedCode : Sched → BitVec 2
  | .idle => 0
  | .carrierFull => 1
  | .carrierLow => 2

/-- The `status` port (10_state R45), field by field in the rule's order. -/
structure StatusPort where
  err : BitVec 5
  invCnt : BitVec 32
  ovrCnt : BitVec 32
  staleCnt : BitVec 32
  result : BitVec 32
  idx : BitVec 6
  sched : BitVec 2
  fsel : BitVec 1
  fvalid : BitVec 1
  fresh : BitVec 1
  stRun : BitVec 1
  deriving DecidableEq, Repr

/-- "continuous view of `ERR`, `INV_CNT`, `OVR_CNT`, `STALE_CNT`, `RESULT`, `IDX`, `SCHED`, `FSEL`, `FVALID`, `FRESH`,
`ST_RUN`" (10_state R45). -/
def statusPort (s : State) : StatusPort :=
  { err := s.err, invCnt := s.invCnt, ovrCnt := s.ovrCnt, staleCnt := s.staleCnt, result := s.result,
    idx := BitVec.ofNat 6 s.idx.val, sched := schedCode s.sched, fsel := BitVec.ofNat 1 s.fsel.val,
    fvalid := BitVec.ofBool s.fvalid, fresh := BitVec.ofBool s.fresh, stRun := BitVec.ofBool s.stRun }

/-- The output wires that pulse (10_state R45): `op_low`, `op_full`, `diag_valid`, `diag_sym`, `diag_nl`,
`minute_done`. -/
structure Pulse where
  opLow : Bool
  opFull : Bool
  diagValid : Bool
  diagSym : BitVec 2
  diagNl : Bool
  minuteDone : Bool
  deriving DecidableEq, Repr

/-- No wire pulses. -/
def Pulse.none : Pulse :=
  { opLow := false, opFull := false, diagValid := false, diagSym := 0, diagNl := false, minuteDone := false }

/-- The pulse that goes with an output event (10_state R45). -/
def pulseOf (e : Event) : Pulse :=
  match e with
  | .carrierLow => { Pulse.none with opLow := true }
  | .carrierFull => { Pulse.none with opFull := true }
  | .diag v => { Pulse.none with diagValid := true, diagSym := symbolCode v }
  | .diagNewline => { Pulse.none with diagNl := true }
  | .minuteDone => { Pulse.none with minuteDone := true }

/-- `carrier_op[1:0] = op_full ++ op_low` (30_encoding R87). -/
def carrierOpWires (p : Pulse) : CarrierWord := BitVec.ofBool p.opFull ++ BitVec.ofBool p.opLow

end Sys2Proof.Machine
end

