-- ==== Sys2Proof/Machine/Script.lean ====
section
/-! DEFINITION. The command-script notation of 30_encoding R93 and R94 as data: what each line expands to. -/

namespace Sys2Proof.Machine

/-- A line of a script (30_encoding R93, R94). -/
inductive ScriptLine where
  /-- A command by name, with its operands. -/
  | command (i : Instr)
  /-- `CMD 0xhhhhhhhhhh`, the literal word. -/
  | literal (w : CommandWord)
  | reset
  /-- `WAIT n`. -/
  | wait (n : Nat)
  /-- `WAITH n`. -/
  | waitHeld (n : Nat)
  deriving DecidableEq, Repr

/-- The steps a line stands for. "EVT and OUT operations never appear in a script" (30_encoding R94): a line that names
one stands for no step. -/
def lineSteps (l : ScriptLine) : List Input :=
  match l with
  | .command i =>
    match encode i with
    | .cmd w => [.cmd w]
    | .request _ => []
    | .carrierOp _ => []
  | .literal w => [.cmd w]
  | .reset => [.reset]
  | .wait n => List.replicate n (.usec false)
  | .waitHeld n => List.replicate n (.usec true)

/-- The steps a script stands for: "one step per line" of a command, the expansion of a directive (30_encoding R93). -/
def scriptSteps (ls : List ScriptLine) : List Input :=
  match ls with
  | [] => []
  | l :: rest => lineSteps l ++ scriptSteps rest

end Sys2Proof.Machine
end

