-- ==== Sys2Proof/Safety.lean ====
section
/-! DEFINITION. What the claims about whole runs speak of: the invariant of the registers (10_state R21, R26, R28, R33,
R35), an undisturbed state, and the discipline of 70_reset R272. -/

namespace Sys2Proof.Machine

/-- The front bank holds the frame of some valid sample, all 60 slots of it (10_state R26, 20_memory R67 item 1). -/
def frontHoldsFrame (c : Params) (s : State) : Prop :=
  ∃ t : ValidSample, ∀ i : SlotIndex, s.slot? s.fsel i = some (encodeFrame c t i)

/-- What the timer registers satisfy between steps (10_state R21, R29, R30). -/
structure TimersOk (s : State) : Prop where
  /-- `ST_CNT` is in 0..999,999 between steps. -/
  stCnt_lt : s.stCnt.toNat < 1000000
  /-- The Second Tick has not counted while it is not running. -/
  stCnt_idle : s.stRun = false → s.stCnt = 0
  /-- `BT_CNT[k]` is in 0..`BT_ALARM[k]`. -/
  btCnt_le : ∀ k : Fin 3, s.btCnt[k].toNat ≤ (btAlarm k).toNat
  /-- An armed Bit Timer has not reached its alarm: reaching it disarms it in the same step. -/
  btCnt_lt : ∀ k : Fin 3, s.btArmed[k] = true → s.btCnt[k].toNat < (btAlarm k).toNat
  /-- Bit Timers are armed by TICK only, and TICK runs only after START. -/
  armed_running : ∀ k : Fin 3, s.btArmed[k] = true → s.stRun = true

/-- What the arbiter's registers satisfy between steps (10_state R21, R33; 43_slot_scheduler R182). -/
structure RequestsOk (s : State) : Prop where
  /-- `LATE[i]=1` only if `PEND[i]=1`. -/
  late_pend : ∀ i : Fin 4, isLate s i = true → pending s i = true
  /-- Requests come from timers, and timers run only after START. -/
  pend_running : ∀ i : Fin 4, pending s i = true → s.stRun = true
  /-- An armed Bit Timer has no request of its own pending, so its fire is never lost. -/
  armed_not_pending : ∀ k : Fin 3, s.btArmed[k] = true → pending s k.castSucc = false

/-- What the error registers satisfy (10_state R35). -/
structure ErrorsOk (s : State) : Prop where
  /-- `ERR.INVALID = bool(INV_CNT > 0)`. -/
  invalid : s.err.getLsbD 0 = decide (0 < s.invCnt.toNat)
  /-- `ERR.OVERRUN = bool(OVR_CNT > 0)`. -/
  overrun : s.err.getLsbD 1 = decide (0 < s.ovrCnt.toNat)
  /-- `ERR.STALE = bool(STALE_CNT > 0)`. -/
  stale : s.err.getLsbD 2 = decide (0 < s.staleCnt.toNat)

/-- The invariant of the registers, under the open parameters `c`. -/
structure RegInv (c : Params) (s : State) : Prop where
  /-- The frame store is in its canonical form. -/
  mem : Memory.wf s.fb = true
  /-- `FVALID = 1` says the front bank holds a frame (10_state R26). -/
  front : s.fvalid = true → frontHoldsFrame c s
  /-- `ST_RUN = 1` implies `FVALID = 1` (10_state R26). -/
  running_valid : s.stRun = true → s.fvalid = true
  /-- A fresh frame is a committed one (10_state R25). -/
  fresh_valid : s.fresh = true → s.fvalid = true
  /-- `SCHED = CARRIER_LOW` exactly when `CARRIER = 0` (10_state R28). -/
  carrier_sched : s.sched = .carrierLow ↔ s.carrier = false
  timers : TimersOk s
  requests : RequestsOk s
  errors : ErrorsOk s

/-- At most one Bit Timer is armed (10_state R31). -/
def atMostOneArmed (s : State) : Prop := ∀ j k : Fin 3, s.btArmed[j] = true → s.btArmed[k] = true → j = k

/-- After the step, the Second Tick request, if it is still pending, has been held for at most 200,000 steps: it fired
when `ST_CNT` was reloaded with 0, and `ST_CNT` has counted the held steps since (70_reset R272). -/
def heldInBounds (s : State) : Prop := pending s 3 = true → s.stCnt.toNat < 200000

/-- The discipline a run keeps while no Second Tick request is held for more than 200,000 microseconds
(70_reset R272): one timer at a time, each due before the next Second Tick, and none armed while a Second Tick waits. -/
structure Disciplined (s : State) : Prop where
  one_armed : atMostOneArmed s
  due_in_time : ∀ k : Fin 3, s.btArmed[k] = true → s.stCnt.toNat + (btAlarm k).toNat ≤ 1000000 + s.btCnt[k].toNat
  tick_waits_alone : pending s 3 = true → ∀ k : Fin 3, s.btArmed[k] = false
  held : heldInBounds s

/-- The scheduler is on time between steps: no request waits, at most one Bit Timer is armed, an armed one has counted
with the Second Tick since the tick that armed it, and the carrier is low exactly while one is armed
(43_slot_scheduler R190 items 3 and 4). -/
structure OnTime (s : State) : Prop where
  no_request : s.pend = 0
  no_late : s.late = 0
  one_armed : atMostOneArmed s
  in_step : ∀ k : Fin 3, s.btArmed[k] = true → s.btCnt[k] = s.stCnt
  low_while_armed : s.carrier = false ↔ ∃ k : Fin 3, s.btArmed[k] = true

/-- A frame bit other than a marker and an always-zero slot: the 35 bits of 42_frame_encoder R143. -/
def isFieldBit (x : SlotContent) : Bool := decide (x ≠ .marker) && decide (x ≠ .zero)

/-- What the document fixes of any layout (42_frame_encoder R143, 93_implementation_defined U9): markers exactly at
`MARKER_SET`, always-zero slots exactly at `ZERO_SET`, and each field bit at exactly one index. -/
structure LayoutLawful (layout : SlotIndex → SlotContent) : Prop where
  marker_iff : ∀ i : SlotIndex, layout i = .marker ↔ i.val ∈ markerSet
  zero_iff : ∀ i : SlotIndex, layout i = .zero ↔ i.val ∈ zeroSet
  once : ∀ x : SlotContent, isFieldBit x = true → ∃ i : SlotIndex, layout i = x ∧ ∀ j : SlotIndex, layout j = x → j = i

/-- Run operations one after another. -/
def runOps (ops : List Instr) (s : State) : Result :=
  match ops with
  | [] => .next s
  | i :: rest => andThen (exec i s) (runOps rest)

/-- How many of the environment's steps are microseconds. -/
def usecCount (l : List Input) : Nat := (l.filter fun i => decide (i = .usec false) || decide (i = .usec true)).length

/-- The machine under the open parameters `c`; `Sys2Proof.core` is the one under the spec's defaults. -/
def machineWith (c : Params) : Host.Core :=
  { State := State, Fault := Fault, Refusal := Refusal, step := stepWith c, reset := State.reset }

/-- `n` steps of the machine under `c` whatever they are, by the host's own run. -/
abbrev runStepsWith (c : Params) (n : Nat) (s : Sys2Proof.Machine.State) : Result := Host.Core.run (machineWith c) n s

/-- `n` steps of the machine of the host's interface. -/
abbrev runSteps (n : Nat) (s : Sys2Proof.Machine.State) : Result := Host.Core.run Sys2Proof.core n s

end Sys2Proof.Machine
end

