-- ==== Sys2Proof/Certificates/Slice0/Obligations.lean ====
section
/-! DEFINITION. The statements for the provers. Each docstring names the rule of spec/ it formalises.

Where a statement says `{ s with f := v, ... }` the fields not named are unchanged, memory and every other register
among them: such an equation is the result, the frame and the completion of the operation in one. -/

open Sys2Proof Sys2Proof.Machine

/-! ### Encoding -/

/-- Decoding the encoding of a well-formed operation gives it back, on all three ports (30_encoding §2, §4, §5). -/
def Obligations.DecodeOfEncodeIsTheOperation : Prop :=
  ∀ i : Instr, i.wf = true → decode (encode i) = .ok i

/-- Encoding what a command word decodes to gives the word back with the bits its command ignores cleared
(30_encoding R82, R93). -/
def Obligations.EncodeOfDecodeClearsIgnoredBits : Prop :=
  ∀ (w : CommandWord) (i : Instr), decodeCmd w = .ok i →
    i.wf = true ∧ encode i = .cmd (w &&& usedBits (w.toNat / 2 ^ 36))

/-- The command decoder on every word (30_encoding R82, R83): illegal exactly when `cmd[35:34] != 0` or
`cmd[39:36] > 6`, else the row selected by `cmd[39:36]` with the operands taken directly from their bits. -/
def Obligations.CommandDecoderFollowsTheOpcodeMap : Prop :=
  ∀ w : CommandWord,
    let op := w.toNat / 2 ^ 36
    let rsv := w.toNat / 2 ^ 34 % 2 ^ 2
    let year := w.toNat / 2 ^ 20 % 2 ^ 14
    let day := w.toNat / 2 ^ 11 % 2 ^ 9
    let hour := w.toNat / 2 ^ 6 % 2 ^ 5
    let minute := w.toNat % 2 ^ 6
    let n := w.toNat % 2 ^ 10
    (rsv ≠ 0 ∨ 6 < op → ∃ e, decodeCmd w = .error e) ∧
    (rsv = 0 → op = 0 → decodeCmd w = .ok .nop) ∧
    (rsv = 0 → op = 1 → decodeCmd w = .ok (.encode { year := year, dayOfYear := day, hour := hour, minute := minute })) ∧
    (rsv = 0 → op = 2 → decodeCmd w = .ok .start) ∧
    (rsv = 0 → op = 3 → decodeCmd w = .ok (.pack n)) ∧
    (rsv = 0 → op = 4 → decodeCmd w = .ok (.leap year)) ∧
    (rsv = 0 → op = 5 → decodeCmd w = .ok (.dstwin year)) ∧
    (rsv = 0 → op = 6 → decodeCmd w = .ok (.isdst year day))

/-- The worked encodings of 30_encoding R95, written out. -/
def Obligations.WorkedEncodingsDecode : Prop :=
  decodeCmd 0x107E81E240#40 = .ok (.encode { year := 2024, dayOfYear := 60, hour := 9, minute := 0 }) ∧
  decodeCmd 0x107E964365#40 = .ok (.encode { year := 2025, dayOfYear := 200, hour := 13, minute := 37 }) ∧
  decodeCmd 0x1270FB75FB#40 = .ok (.encode { year := 9999, dayOfYear := 366, hour := 23, minute := 59 }) ∧
  decodeCmd 0x300000016E#40 = .ok (.pack 366) ∧
  decodeCmd 0x407E800000#40 = .ok (.leap 2024) ∧
  decodeCmd 0x507E800000#40 = .ok (.dstwin 2024) ∧
  decodeCmd 0x607E81E000#40 = .ok (.isdst 2024 60) ∧
  encode (.encode { year := 2024, dayOfYear := 60, hour := 9, minute := 0 }) = .cmd 0x107E81E240#40 ∧
  (∃ e, decodeCmd 0x7000000000#40 = .error e) ∧ (∃ e, decodeCmd 0x0400000000#40 = .error e)

/-- Request and carrier codes decode as the tables of 30_encoding §4 and §5 say, and nothing else decodes. -/
def Obligations.RequestAndCarrierCodesDecode : Prop :=
  (decodeRequest 0b0001#4 = .ok .bitfire0 ∧ decodeRequest 0b0010#4 = .ok .bitfire1 ∧
    decodeRequest 0b0100#4 = .ok .bitfire2 ∧ decodeRequest 0b1000#4 = .ok .tick) ∧
  (∀ r : RequestWord, r ∉ [0b0001#4, 0b0010#4, 0b0100#4, 0b1000#4] → ∃ e, decodeRequest r = .error e) ∧
  (decodeCarrierOp 0b01#2 = .ok .setCarrierLow ∧ decodeCarrierOp 0b10#2 = .ok .setCarrierFull) ∧
  (∀ c : CarrierWord, c ∉ [0b01#2, 0b10#2] → ∃ e, decodeCarrierOp c = .error e)

/-! ### What a step runs -/

/-- `Cmd(w)` runs the operation its word decodes to, and raises IllegalCommand for a word that is none
(44_command_port R220); `Usec(hold)` and `Reset` run theirs (00_scope R7). The list of the environment's steps is the
model's choice, and so is that an empty list is an undisturbed microsecond (log 1). -/
def Obligations.StepRunsTheDecodedOperation : Prop :=
  ∀ (s : State) (rest : List Input),
    (∀ (w : CommandWord) (i : Instr), s.inputs = .cmd w :: rest → decodeCmd w = .ok i →
      step s = exec i { s with inputs := rest }) ∧
    (∀ (w : CommandWord) (e : DecodeError), s.inputs = .cmd w :: rest → decodeCmd w = .error e →
      step s = .next { s with inputs := rest, err := s.err ||| 0b01000#5 }) ∧
    (∀ hold : Bool, s.inputs = .usec hold :: rest → step s = usecStep hold { s with inputs := rest }) ∧
    (s.inputs = .reset :: rest → step s = .next (resetStep { s with inputs := rest })) ∧
    (s.inputs = [] → step s = usecStep false s)

/-- The open parameters are arguments of the step functions (00_scope R5, 10_state R20): under every choice `c` of them a
step runs the operation decoded from the environment's next step, three operations look at `c` and the others are
exec's; exec, step and the host's core are these functions at the defaults (log 3, log 4; the list of steps: log 1). -/
def Obligations.StepsTakeTheOpenParameters : Prop :=
  (∀ (c : Params) (s : State) (rest : List Input),
    (∀ (w : CommandWord) (i : Instr), s.inputs = .cmd w :: rest → decodeCmd w = .ok i →
      stepWith c s = execWith c i { s with inputs := rest }) ∧
    (∀ (w : CommandWord) (e : DecodeError), s.inputs = .cmd w :: rest → decodeCmd w = .error e →
      stepWith c s = .next { s with inputs := rest, err := s.err ||| 0b01000#5 }) ∧
    (∀ hold : Bool, s.inputs = .usec hold :: rest → stepWith c s = usecStep hold { s with inputs := rest }) ∧
    (s.inputs = .reset :: rest → stepWith c s = .next (resetStep { s with inputs := rest })) ∧
    (s.inputs = [] → stepWith c s = usecStep false s)) ∧
  (∀ (c : Params) (s : State),
    (∀ x, execWith c (.encode x) s = execEncodeWith c x s) ∧ (∀ y, execWith c (.dstwin y) s = execDstwinWith c y s) ∧
    (∀ y d, execWith c (.isdst y d) s = execIsdstWith c y d s) ∧
    ∀ i : Instr, (∀ x, i ≠ .encode x) → (∀ y, i ≠ .dstwin y) → (∀ y d, i ≠ .isdst y d) → execWith c i s = exec i s) ∧
  (∀ (i : Instr) (s : State), execWith defaultParams i s = exec i s) ∧
  (∀ s : State, stepWith defaultParams s = step s) ∧
  ∀ (n : Nat) (s : State), runStepsWith defaultParams n s = runSteps n s

/-- The state of the block is the tuple of its registers; the command word and `hold` are inputs of a step, and no rule
reads the trace (10_state R20): under any parameters, one step on states with equal registers leaves equal registers and
appends the same events, whatever the trace and the steps to come. (An unwritten slot reads as the same free value only
after the same number of resets, log 2.) -/
def Obligations.RegistersAndInputDecideTheStep : Prop :=
  ∀ (c : Params) (i : Input) (s t : State), s.toRegisters = t.toRegisters → s.epoch = t.epoch →
    ∃ s' t', runInputWith c i s = .next s' ∧ runInputWith c i t = .next t' ∧
      s'.toRegisters = t'.toRegisters ∧ s'.epoch = t'.epoch ∧ s'.inputs = s.inputs ∧ t'.inputs = t.inputs ∧
      (i ≠ .reset → ∃ events, s'.trace = s.trace ++ events ∧ t'.trace = t.trace ++ events)

/-- No operation and no step faults or is refused, under any parameters: each answers a next state (20_memory R71,
30_encoding R88). -/
def Obligations.EveryStepCompletes : Prop :=
  (∀ (i : Instr) (s : State), ∃ t, exec i s = .next t) ∧ (∀ s : State, ∃ t, step s = .next t) ∧
  ∀ (c : Params) (s : State), (∀ i : Instr, ∃ t, execWith c i s = .next t) ∧ ∃ t, stepWith c s = .next t

/-- Script lines run their steps (30_encoding R93, R94): a command line runs its operation, `CMD` its literal word,
`RESET` the step `Reset`, `WAIT n` and `WAITH n` stand for `n` microseconds, not held and held, each of which is run as
such, and which leave the frame store, the selector and the query result. The script's steps stand in the list of the environment's steps (log 1). -/
def Obligations.ScriptLinesRunTheirSteps : Prop :=
  ∀ (s : State) (ls : List ScriptLine),
    let after := { s with inputs := scriptSteps ls }
    (∀ i : Instr, i.wf = true → (∃ w, encode i = .cmd w) → s.inputs = scriptSteps (.command i :: ls) →
      step s = exec i after) ∧
    (∀ w : CommandWord, s.inputs = scriptSteps (.literal w :: ls) → step s = commandStep w after) ∧
    (s.inputs = scriptSteps (.reset :: ls) → step s = .next (resetStep after)) ∧
    (∀ n : Nat, lineSteps (.wait n) = List.replicate n (.usec false) ∧
      lineSteps (.waitHeld n) = List.replicate n (.usec true)) ∧
    (∀ n : Nat, s.inputs = scriptSteps (.wait (n + 1) :: ls) →
      step s = usecStep false { s with inputs := scriptSteps (.wait n :: ls) }) ∧
    (∀ n : Nat, s.inputs = scriptSteps (.waitHeld (n + 1) :: ls) →
      step s = usecStep true { s with inputs := scriptSteps (.waitHeld n :: ls) }) ∧
    (∀ (n : Nat) (hold : Bool),
      s.inputs = scriptSteps ((if hold then ScriptLine.waitHeld n else ScriptLine.wait n) :: ls) →
      ∃ t, runSteps n s = .next t ∧ t.inputs = scriptSteps ls ∧ t.tb = s.tb + BitVec.ofNat 64 n ∧ t.fb = s.fb ∧
        t.fsel = s.fsel ∧ t.fvalid = s.fvalid ∧ t.stRun = s.stRun ∧ t.invCnt = s.invCnt ∧ t.result = s.result)

/-! ### The query commands -/

/-- NOP, for every word that decodes to it (44_command_port R221). -/
def Obligations.NopLeavesTheState : Prop :=
  (∀ s : State, exec .nop s = .next s) ∧
  ∀ (w : CommandWord) (s : State), w.toNat < 2 ^ 34 → commandStep w s = .next s

/-- PACK (40_bcd_packer R112): the packed word, zero-extended, or a refusal that leaves RESULT. -/
def Obligations.PackWritesThePackedWord : Prop :=
  ∀ (n : Nat) (s : State),
    (n ≤ 999 → exec (.pack n) s =
      .next { s with result := BitVec.ofNat 32 (n / 100 * 256 + (n - 100 * (n / 100)) / 10 * 16 + n % 10) }) ∧
    (999 < n → exec (.pack n) s = .next { s with err := s.err ||| 0b01000#5 }) ∧
    (n < 1024 → decodeCmd (BitVec.ofNat 40 (0x3000000000 + n)) = .ok (.pack n))

/-- The digits of `pack_bcd` (40_bcd_packer R110). -/
def Obligations.PackedDigitsStandInTheirNibbles : Prop :=
  ∀ n : Fin 1000,
    let hundreds := n.val / 100
    let tens := (n.val - 100 * hundreds) / 10
    let ones := n.val % 10
    (packBcd n).extractLsb' 12 4 = 0#4 ∧
    ((packBcd n).extractLsb' 8 4).toNat = hundreds ∧
    ((packBcd n).extractLsb' 4 4).toNat = tens ∧
    ((packBcd n).extractLsb' 0 4).toNat = ones ∧
    (packBcd n).toNat = hundreds * 256 + tens * 16 + ones

/-- The packing is invertible (40_bcd_packer R111, derived there). -/
def Obligations.PackingIsInvertible : Prop :=
  ∀ n : Fin 1000,
    let h := ((packBcd n).extractLsb' 8 4).toNat
    let t := ((packBcd n).extractLsb' 4 4).toNat
    let o := ((packBcd n).extractLsb' 0 4).toNat
    h ≤ 9 ∧ t ≤ 9 ∧ o ≤ 9 ∧ 100 * h + 10 * t + o = n.val

/-- LEAP and the leap-year rule (41_calendar R120, R121). -/
def Obligations.LeapAnswersTheGregorianRule : Prop :=
  (∀ y : Nat, isLeapYear y = true ↔ y % 4 = 0 ∧ (y % 100 ≠ 0 ∨ y % 400 = 0)) ∧
  ∀ (y : Nat) (s : State),
    (1 ≤ y → y ≤ 9999 → exec (.leap y) s =
      .next { s with result := if y % 4 = 0 ∧ (y % 100 ≠ 0 ∨ y % 400 = 0) then 1#32 else 0#32 }) ∧
    (y < 1 ∨ 9999 < y → exec (.leap y) s = .next { s with err := s.err ||| 0b01000#5 }) ∧
    (y < 2 ^ 14 → decodeCmd (BitVec.ofNat 40 (0x4000000000 + y * 2 ^ 20)) = .ok (.leap y))

/-- DSTWIN (41_calendar R126) for any window function. Where start and end do not fit the fields of RESULT (30_encoding
R90) the spec states no result, and that it is taken modulo 2^32 is the model's choice (log 18). -/
def Obligations.DstwinAnswersTheWindow : Prop :=
  (∀ (c : Params) (y : Nat) (s : State),
    (1 ≤ y → y ≤ 9999 → execDstwinWith c y s =
      .next { s with result := BitVec.ofNat 32 ((c.dstWindow y).2 * 2 ^ 16 + (c.dstWindow y).1) }) ∧
    (y < 1 ∨ 9999 < y → execDstwinWith c y s = .next { s with err := s.err ||| 0b01000#5 })) ∧
  ∀ y : Nat, y < 2 ^ 14 → decodeCmd (BitVec.ofNat 40 (0x5000000000 + y * 2 ^ 20)) = .ok (.dstwin y)

/-- The bounds of the default window and the fields of RESULT they give (41_calendar R125, 30_encoding R90; the window
is the default of `P_DST_WINDOW`, log 4). -/
def Obligations.DefaultWindowIsBounded : Prop :=
  ∀ y : Nat,
    67 ≤ (defaultParams.dstWindow y).1 ∧ (defaultParams.dstWindow y).1 ≤ 74 ∧
    305 ≤ (defaultParams.dstWindow y).2 ∧ (defaultParams.dstWindow y).2 ≤ 312 ∧
    (defaultParams.dstWindow y).2 = (defaultParams.dstWindow y).1 + 238 ∧
    ∀ s : State, 1 ≤ y → y ≤ 9999 → ∃ t, exec (.dstwin y) s = .next t ∧
      (t.result.extractLsb' 0 9).toNat = (defaultParams.dstWindow y).1 ∧ t.result.extractLsb' 9 7 = 0#7 ∧
      (t.result.extractLsb' 16 9).toNat = (defaultParams.dstWindow y).2 ∧ t.result.extractLsb' 25 7 = 0#7

/-- ISDST (41_calendar R127, R128) for any window function; the start day is inside, the end day outside. -/
def Obligations.IsdstTestsTheWindow : Prop :=
  (∀ (c : Params) (y d : Nat) (s : State),
    (1 ≤ y → y ≤ 9999 → 1 ≤ d → d ≤ 366 → execIsdstWith c y d s =
      .next { s with result := if (c.dstWindow y).1 ≤ d ∧ d < (c.dstWindow y).2 then 1#32 else 0#32 }) ∧
    (y < 1 ∨ 9999 < y ∨ d < 1 ∨ 366 < d → execIsdstWith c y d s = .next { s with err := s.err ||| 0b01000#5 })) ∧
  ∀ y d : Nat, y < 2 ^ 14 → d < 2 ^ 9 →
    decodeCmd (BitVec.ofNat 40 (0x6000000000 + y * 2 ^ 20 + d * 2 ^ 11)) = .ok (.isdst y d)

/-- IllegalCommand sets its flag and changes nothing else (44_command_port R223): for a word with `RSV` not 0 or `OP`
in 7..15, and for a query operand outside its rule's range. -/
def Obligations.IllegalCommandOnlySetsItsFlag : Prop :=
  ∀ s : State,
    (∀ w : CommandWord, w.toNat / 2 ^ 34 % 2 ^ 2 ≠ 0 ∨ 6 < w.toNat / 2 ^ 36 →
      commandStep w s = .next { s with err := s.err ||| 0b01000#5 }) ∧
    (∀ n, 999 < n → exec (.pack n) s = .next { s with err := s.err ||| 0b01000#5 }) ∧
    (∀ y, y < 1 ∨ 9999 < y → exec (.leap y) s = .next { s with err := s.err ||| 0b01000#5 } ∧
      exec (.dstwin y) s = .next { s with err := s.err ||| 0b01000#5 }) ∧
    (∀ y d, y < 1 ∨ 9999 < y ∨ d < 1 ∨ 366 < d → exec (.isdst y d) s = .next { s with err := s.err ||| 0b01000#5 })

/-! ### The frame encoder -/

/-- ENCODE (42_frame_encoder R160), under any parameters: for a valid sample the back bank becomes the frame and the
front bank, `FVALID` and `FRESH` are set, every slot outside the back bank reads as before, and nothing else changes;
for any other sample InvalidTimeSample. -/
def Obligations.EncodePublishesTheFrame : Prop :=
  (∀ (c : Params) (v : ValidSample) (s : State), ∃ t,
    execEncodeWith c v.sample s = .next t ∧
    t = { s with fb := t.fb, fsel := 1 - s.fsel, fvalid := true, fresh := true } ∧
    (∀ i : SlotIndex, t.slot? t.fsel i = some (encodeFrame c v i)) ∧
    (∀ a : Nat, (∀ i : SlotIndex, a ≠ slotAddress (1 - s.fsel) i) → Memory.read t.fb a = Memory.read s.fb a)) ∧
  (∀ (c : Params) (y d h m : Nat) (s : State),
    ((1 ≤ y ∧ y ≤ 9999 ∧ 1 ≤ d ∧ d ≤ 366 ∧ h ≤ 23 ∧ m ≤ 59) →
      ∃ v : ValidSample, v.sample = { year := y, dayOfYear := d, hour := h, minute := m }) ∧
    (¬ (1 ≤ y ∧ y ≤ 9999 ∧ 1 ≤ d ∧ d ≤ 366 ∧ h ≤ 23 ∧ m ≤ 59) →
      execEncodeWith c { year := y, dayOfYear := d, hour := h, minute := m } s =
        .next (raise .invalidTimeSample s))) ∧
  ∀ y d h m : Nat, y < 2 ^ 14 → d < 2 ^ 9 → h < 2 ^ 5 → m < 2 ^ 6 →
    decodeCmd (BitVec.ofNat 40 (0x1000000000 + y * 2 ^ 20 + d * 2 ^ 11 + h * 2 ^ 6 + m)) =
      .ok (.encode { year := y, dayOfYear := d, hour := h, minute := m })

/-- ENCODE of an out-of-range sample (42_frame_encoder R161): counted once, flagged, nothing else changed. -/
def Obligations.EncodeRejectsAnInvalidSample : Prop :=
  ∀ (y d h m : Nat) (s : State), ¬ (1 ≤ y ∧ y ≤ 9999 ∧ 1 ≤ d ∧ d ≤ 366 ∧ h ≤ 23 ∧ m ≤ 59) →
    exec (.encode { year := y, dayOfYear := d, hour := h, minute := m }) s =
      .next { s with
        invCnt := BitVec.ofNat 32 (min (2 ^ 32 - 1) (s.invCnt.toNat + 1))
        err := s.err ||| 0b00001#5 }

/-- What exec does with the three commands that use an open parameter: it runs them with the spec's defaults (log 3,
log 4), so with the window of 41_calendar R123, R124 and the frame of `encodeFrame defaultParams`, and each completes on
every operand in range. -/
def Obligations.ParameterisedCommandsRunWithTheDefaults : Prop :=
  ∀ y : Nat,
    let feb := if y % 4 = 0 ∧ (y % 100 ≠ 0 ∨ y % 400 = 0) then 29 else 28
    let a := y + y / 4 - y / 100 + y / 400
    let start := (31 + feb) + (14 - (a + (31 + feb)) % 7)
    let finish := (276 + feb) + (7 - (a + (276 + feb)) % 7)
    defaultParams.dstWindow y = (start, finish) ∧
    (1 ≤ y → y ≤ 9999 → ∀ (d h m : Nat) (s : State), 1 ≤ d → d ≤ 366 → h ≤ 23 → m ≤ 59 →
      exec (.dstwin y) s = .next { s with result := BitVec.ofNat 32 (finish * 2 ^ 16 + start) } ∧
      exec (.isdst y d) s = .next { s with result := if start ≤ d ∧ d < finish then 1#32 else 0#32 } ∧
      ∃ (v : ValidSample) (t : State), v.sample = { year := y, dayOfYear := d, hour := h, minute := m } ∧
        exec (.encode v.sample) s = .next t ∧
        t = { s with fb := t.fb, fsel := 1 - s.fsel, fvalid := true, fresh := true } ∧
        (∀ i : SlotIndex, t.slot? t.fsel i = some (encodeFrame defaultParams v i)) ∧
        ∀ a : Nat, (∀ i : SlotIndex, a ≠ slotAddress (1 - s.fsel) i) → Memory.read t.fb a = Memory.read s.fb a)

/-- Two ENCODEs of one sample leave both banks equal and `FSEL` as it was (42_frame_encoder R160, corner cases). -/
def Obligations.EncodeTwiceFillsBothBanks : Prop :=
  ∀ (c : Params) (v : ValidSample) (s : State), ∃ t u,
    execEncodeWith c v.sample s = .next t ∧ execEncodeWith c v.sample t = .next u ∧
    u.fsel = s.fsel ∧ ∀ (b : Bank) (i : SlotIndex), u.slot? b i = some (encodeFrame c v i)

/-- What `encode_frame` writes for each field (42_frame_encoder R141, R142), under any layout and any window: the bit
of the packed minute, hour, day of year or year mod 100, the leap-year bit, ZERO for the leap second, and the DST bit
twice. -/
def Obligations.SlotsCarryTheirField : Prop :=
  ∀ (c : Params) (v : ValidSample) (i : SlotIndex),
    let bcd := fun n : Nat => n / 100 * 256 + (n - 100 * (n / 100)) / 10 * 16 + n % 10
    let sv := fun b : Bool => if b then SlotValue.one else SlotValue.zero
    encodeFrame c v i = match c.layout i with
      | .marker => .marker
      | .zero => .zero
      | .minute b => sv ((bcd v.sample.minute).testBit b.val)
      | .hour b => sv ((bcd v.sample.hour).testBit b.val)
      | .day b => sv ((bcd v.sample.dayOfYear).testBit b.val)
      | .year b => sv ((bcd (v.sample.year % 100)).testBit b.val)
      | .leapYear => if v.sample.year % 4 = 0 ∧ (v.sample.year % 100 ≠ 0 ∨ v.sample.year % 400 = 0) then .one else .zero
      | .leapSecond => .zero
      | .dst _ =>
        if (c.dstWindow v.sample.year).1 ≤ v.sample.dayOfYear ∧ v.sample.dayOfYear < (c.dstWindow v.sample.year).2
        then .one else .zero

/-- The default code word slot by slot (42_frame_encoder R146, the default of `P_LAYOUT`, log 3): `SV(m[6])` is ONE when
bit 6 of the packed minute is 1, and so on down the table. -/
def Obligations.FrameFollowsTheDefaultLayout : Prop :=
  ∀ v : ValidSample,
    let bcd := fun n : Nat => n / 100 * 256 + (n - 100 * (n / 100)) / 10 * 16 + n % 10
    let sv := fun b : Bool => if b then SlotValue.one else SlotValue.zero
    let m := fun k => sv ((bcd v.sample.minute).testBit k)
    let h := fun k => sv ((bcd v.sample.hour).testBit k)
    let d := fun k => sv ((bcd v.sample.dayOfYear).testBit k)
    let y := fun k => sv ((bcd (v.sample.year % 100)).testBit k)
    let ly := sv (isLeapYear v.sample.year)
    let ds := sv (isDst defaultParams v.sample.year v.sample.dayOfYear)
    let z := SlotValue.zero
    let mk := SlotValue.marker
    ∀ i : SlotIndex, encodeFrame defaultParams v i =
      ([[mk, m 6, m 5, m 4, z, m 3, m 2, m 1, m 0, mk], [z, z, h 5, h 4, z, h 3, h 2, h 1, h 0, mk],
        [z, z, d 9, d 8, z, d 7, d 6, d 5, d 4, mk], [d 3, d 2, d 1, d 0, z, z, z, z, z, mk],
        [z, z, z, z, z, y 7, y 6, y 5, y 4, mk], [y 3, y 2, y 1, y 0, z, ly, z, ds, ds, mk]].flatten).getD i.val z

/-- Whatever the sample, the window and the lawful layout, the markers stand at `MARKER_SET` and only there, and the
always-zero slots are ZERO (42_frame_encoder R147 items 1 and 2). -/
def Obligations.MarkersAndZerosNeverVary : Prop :=
  ∀ (c : Params) (v : ValidSample) (i : SlotIndex), LayoutLawful c.layout →
    (encodeFrame c v i = .marker ↔ i.val ∈ [0, 9, 19, 29, 39, 49, 59]) ∧
    (i.val ∈ [4, 10, 11, 14, 20, 21, 24, 34, 35, 36, 37, 38, 40, 41, 42, 43, 44, 54] → encodeFrame c v i = .zero)

/-- The default layout (log 3) is lawful: the 35 field bits stand at the 35 free indices, each once (42_frame_encoder R143,
R147 item 4), its two DST slots agree and its leap-second slot is ZERO (R147 item 3). -/
def Obligations.DefaultLayoutIsLawful : Prop :=
  LayoutLawful defaultParams.layout ∧
  ∀ (w : Nat → Nat × Nat) (v : ValidSample),
    encodeFrame { layout := defaultParams.layout, dstWindow := w } v 56 = .zero ∧
    encodeFrame { layout := defaultParams.layout, dstWindow := w } v 57 =
      encodeFrame { layout := defaultParams.layout, dstWindow := w } v 58

/-- Under the default layout (log 3) the minute, hour, day of year and year mod 100 can be read back by weighting the slots
(42_frame_encoder R147 item 5, R148). -/
def Obligations.SampleReadsBackFromTheFrame : Prop :=
  ∀ v : ValidSample,
    let b := fun i : SlotIndex => if encodeFrame defaultParams v i = .one then 1 else 0
    40 * b 1 + 20 * b 2 + 10 * b 3 + 8 * b 5 + 4 * b 6 + 2 * b 7 + b 8 = v.sample.minute ∧
    20 * b 12 + 10 * b 13 + 8 * b 15 + 4 * b 16 + 2 * b 17 + b 18 = v.sample.hour ∧
    200 * b 22 + 100 * b 23 + 80 * b 25 + 40 * b 26 + 20 * b 27 + 10 * b 28 +
      8 * b 30 + 4 * b 31 + 2 * b 32 + b 33 = v.sample.dayOfYear ∧
    80 * b 45 + 40 * b 46 + 20 * b 47 + 10 * b 48 + 8 * b 50 + 4 * b 51 + 2 * b 52 + b 53 = v.sample.year % 100

/-! ### The scheduler's operations -/

/-- START (43_slot_scheduler R171, R172, R173): refused without a frame, without effect when it already runs, else it
arms the Second Tick; and nothing but `Reset` stops the Second Tick again. -/
def Obligations.StartArmsTheSecondTickOnce : Prop :=
  ∀ s : State,
    (s.fvalid = false → exec .start s = .next { s with err := s.err ||| 0b10000#5 }) ∧
    (s.fvalid = true → s.stRun = true → exec .start s = .next s) ∧
    (s.fvalid = true → s.stRun = false → exec .start s = .next { s with stCnt := 0, stRun := true }) ∧
    (∀ w : CommandWord, w.toNat / 2 ^ 34 = 8 → decodeCmd w = .ok .start) ∧
    (∀ t : State, nextInput s ≠ .reset → step s = .next t → s.stRun = true → t.stRun = true)

/-- SET_CARRIER_LOW and SET_CARRIER_FULL (43_slot_scheduler R174, R175): unconditional, the event always emitted; no
operation but TICK issues the first, and none but BITFIREk the second. -/
def Obligations.CarrierOperationsAreUnconditional : Prop :=
  ∀ s : State,
    let count := fun (e : Event) (u : State) => (u.trace.filter fun x => decide (x.event = e)).length
    exec .setCarrierLow s =
      .next { s with carrier := false, trace := s.trace ++ [{ event := .carrierLow, tb := s.tb }] } ∧
    exec .setCarrierFull s =
      .next { s with carrier := true, trace := s.trace ++ [{ event := .carrierFull, tb := s.tb }] } ∧
    decodeCarrierOp 0b01#2 = .ok .setCarrierLow ∧ decodeCarrierOp 0b10#2 = .ok .setCarrierFull ∧
    (∀ (i : Instr) (t : State), exec i s = .next t →
      (i ∉ [Instr.setCarrierLow, Instr.tick] → count .carrierLow t = count .carrierLow s) ∧
      (i ∉ [Instr.setCarrierFull, Instr.bitfire0, Instr.bitfire1, Instr.bitfire2] →
        count .carrierFull t = count .carrierFull s))

/-- BITFIREk, the same for the three timers (43_slot_scheduler R188). -/
def Obligations.BitfireRestoresFullPower : Prop :=
  ∀ (s : State) (i : Instr), i ∈ [Instr.bitfire0, Instr.bitfire1, Instr.bitfire2] →
    exec i s = .next { s with
      carrier := true, sched := .carrierFull, trace := s.trace ++ [{ event := .carrierFull, tb := s.tb }] } ∧
    ∃ k : Fin 3, decodeRequest (1#4 <<< k.val) = .ok i ∧ i = [Instr.bitfire0, Instr.bitfire1, Instr.bitfire2].get k

/-- TICK, all of it (43_slot_scheduler R184): `v` is the slot of the front bank at `IDX`, `k` its code. -/
def Obligations.TickTransmitsTheSlot : Prop :=
  ∀ s : State,
    let v := s.slotRead s.fsel s.idx
    let k : Fin 3 := match v with | .zero => 0 | .one => 1 | .marker => 2
    let stale := s.idx = 0 ∧ s.fresh = false
    let overlap := s.btArmed[0] = true ∨ s.btArmed[1] = true ∨ s.btArmed[2] = true
    decodeRequest 0b1000#4 = .ok .tick ∧ (∀ x, s.slot? s.fsel s.idx = some x → v = x) ∧
    exec .tick s = .next { s with
      fresh := if s.idx = 0 then false else s.fresh
      staleCnt := if stale then BitVec.ofNat 32 (min (2 ^ 32 - 1) (s.staleCnt.toNat + 1)) else s.staleCnt
      ovrCnt := if overlap then BitVec.ofNat 32 (min (2 ^ 32 - 1) (s.ovrCnt.toNat + 1)) else s.ovrCnt
      err := s.err ||| (if stale then 0b00100#5 else 0#5) ||| (if overlap then 0b00010#5 else 0#5)
      carrier := false
      btCnt := s.btCnt.set k 0
      btArmed := s.btArmed.set k true
      sched := .carrierLow
      idx := Fin.ofNat 60 (s.idx.val + 1)
      trace := s.trace ++ [{ event := .carrierLow, tb := s.tb }, { event := .diag v, tb := s.tb }] ++
        (if s.idx.val = 59 then [{ event := .minuteDone, tb := s.tb }, { event := .diagNewline, tb := s.tb }] else []) }

/-- The low-power duration is a function of the slot's value alone (43_slot_scheduler R176): whatever else differs, two
TICKs that read one value arm the same timer, and its alarm is 200,000, 500,000 or 800,000 µs by the value. -/
def Obligations.DurationIsAFunctionOfTheSymbol : Prop :=
  ∀ (s t : State), s.slotRead s.fsel s.idx = t.slotRead t.fsel t.idx →
    ∃ (k : Fin 3) (s' t' : State), exec .tick s = .next s' ∧ exec .tick t = .next t' ∧
      s'.btArmed = s.btArmed.set k true ∧ t'.btArmed = t.btArmed.set k true ∧ s'.btCnt[k] = 0 ∧ t'.btCnt[k] = 0 ∧
      (btAlarm k).toNat = (match s.slotRead s.fsel s.idx with | .zero => 200000 | .one => 500000 | .marker => 800000)

/-- TICK services alone: after `n` of them the index has advanced by `n` modulo 60, so any 60 consecutive ones take
every value once (43_slot_scheduler R186). -/
def Obligations.ConsecutiveTicksTakeEverySlotInOrder : Prop :=
  ∀ s : State,
    (∀ n : Nat, ∃ t, runOps (List.replicate n .tick) s = .next t ∧ t.idx.val = (s.idx.val + n) % 60) ∧
    ∀ j : SlotIndex, ∃ n, n < 60 ∧ (∃ t, runOps (List.replicate n .tick) s = .next t ∧ t.idx = j) ∧
      ∀ m, m < 60 → (∃ t, runOps (List.replicate m .tick) s = .next t ∧ t.idx = j) → m = n

/-! ### The microsecond step -/

/-- Phases 1 to 3 of `Usec` taken together (43_slot_scheduler R180, R181, R182): every timer counts, every timer that
reaches its alarm has its request pending afterwards, each fire that found its request pending is lost and counted, and
nothing else changes; phase 4 works on that state, whatever order phases 2 and 3 are thought of in. -/
def Obligations.CountingPhasesRegisterEveryFire : Prop :=
  ∀ s : State,
    let c := countPhases s
    let alarm := fun k : Fin 3 => match k with | 0 => 200000#20 | 1 => 500000#20 | 2 => 800000#20
    let tickFires := s.stRun && decide (s.stCnt + 1 = 1000000#20)
    let bitFires := fun k : Fin 3 => s.btArmed[k] && decide (s.btCnt[k] + 1 = alarm k)
    let lost := (if tickFires && s.pend.getLsbD 3 then 1 else 0) +
      ((List.finRange 3).filter fun k => bitFires k && s.pend.getLsbD k.val).length
    usecStep true s = .next (holdAll c) ∧ usecStep false s = serviceAll c ∧
    c.tb = s.tb + 1 ∧ c.stCnt = (if s.stRun then if tickFires then 0 else s.stCnt + 1 else s.stCnt) ∧
    (∀ k : Fin 3, c.btCnt[k] = if s.btArmed[k] then s.btCnt[k] + 1 else s.btCnt[k]) ∧
    (∀ k : Fin 3, c.btArmed[k] = (s.btArmed[k] && !bitFires k)) ∧
    (∀ k : Fin 3, c.pend.getLsbD k.val = (s.pend.getLsbD k.val || bitFires k)) ∧
    c.pend.getLsbD 3 = (s.pend.getLsbD 3 || tickFires) ∧
    c.ovrCnt = BitVec.ofNat 32 (min (2 ^ 32 - 1) (s.ovrCnt.toNat + lost)) ∧
    c.err = (if lost = 0 then s.err else s.err ||| 0b00010#5) ∧
    c = { s with tb := c.tb, stCnt := c.stCnt, btCnt := c.btCnt, btArmed := c.btArmed, pend := c.pend,
                 ovrCnt := c.ovrCnt, err := c.err }

/-- Phase 2 (43_slot_scheduler R181, with `Fire(3)` of R182): the Second Tick counts, reloads itself at 1,000,000 and
fires whether or not its last fire has been serviced. -/
def Obligations.SecondTickCountsAndReloads : Prop :=
  ∀ s : State,
    (s.stRun = false → countSecondTick s = s) ∧
    (s.stRun = true → s.stCnt + 1 ≠ 1000000#20 → countSecondTick s = { s with stCnt := s.stCnt + 1 }) ∧
    (s.stRun = true → s.stCnt + 1 = 1000000#20 → s.pend.getLsbD 3 = false →
      countSecondTick s = { s with stCnt := 0, pend := s.pend ||| 0b1000#4 }) ∧
    (s.stRun = true → s.stCnt + 1 = 1000000#20 → s.pend.getLsbD 3 = true →
      countSecondTick s = { s with
        stCnt := 0, err := s.err ||| 0b00010#5
        ovrCnt := BitVec.ofNat 32 (min (2 ^ 32 - 1) (s.ovrCnt.toNat + 1)) }) ∧
    (s.stCnt.toNat ≤ 999999 → (countSecondTick s).stCnt.toNat ≤ 999999)

/-- Phase 3 for one Bit Timer (43_slot_scheduler R182): an unarmed timer keeps its counter; an armed one counts, and at
its alarm disarms itself and fires; a fire that finds its request pending is lost and counted. -/
def Obligations.BitTimerCountsAndFiresOnce : Prop :=
  ∀ (s : State) (k : Fin 3),
    let alarm : BitVec 20 := match k with | 0 => 200000#20 | 1 => 500000#20 | 2 => 800000#20
    (s.btArmed[k] = false → countBitTimer k s = s) ∧
    (s.btArmed[k] = true → s.btCnt[k] + 1 ≠ alarm →
      countBitTimer k s = { s with btCnt := s.btCnt.set k (s.btCnt[k] + 1) }) ∧
    (s.btArmed[k] = true → s.btCnt[k] + 1 = alarm → s.pend.getLsbD k.val = false →
      countBitTimer k s = { s with
        btCnt := s.btCnt.set k alarm, btArmed := s.btArmed.set k false
        pend := s.pend ||| (1#4 <<< k.val) }) ∧
    (s.btArmed[k] = true → s.btCnt[k] + 1 = alarm → s.pend.getLsbD k.val = true →
      countBitTimer k s = { s with
        btCnt := s.btCnt.set k alarm, btArmed := s.btArmed.set k false, err := s.err ||| 0b00010#5
        ovrCnt := BitVec.ofNat 32 (min (2 ^ 32 - 1) (s.ovrCnt.toNat + 1)) })

/-- `raise` (60_exceptions R230, R231): the class's bit of `ERR` is set and no other, its counter where it has one goes
up by one and saturates, and nothing else changes. -/
def Obligations.RaiseRecordsItsClassOnly : Prop :=
  ∀ (x : ErrorClass) (s : State),
    let code := match x with
      | .invalidTimeSample => 1 | .timingOverrun => 2 | .staleFrame => 3 | .illegalCommand => 4 | .startNoFrame => 5
    let up := fun (n : Nat) (r : BitVec 32) => if code = n then min (2 ^ 32 - 1) (r.toNat + 1) else r.toNat
    (∀ j : Fin 5, (raise x s).err.getLsbD j.val = (s.err.getLsbD j.val || decide (j.val + 1 = code))) ∧
    (raise x s).invCnt.toNat = up 1 s.invCnt ∧ (raise x s).ovrCnt.toNat = up 2 s.ovrCnt ∧
    (raise x s).staleCnt.toNat = up 3 s.staleCnt ∧
    raise x s = { s with err := (raise x s).err, invCnt := (raise x s).invCnt, ovrCnt := (raise x s).ovrCnt,
                         staleCnt := (raise x s).staleCnt }

/-- Phase 4 with `hold = 0` (43_slot_scheduler R183, 30_encoding R86): each pending request in ascending order has its
`PEND` and `LATE` bits cleared and the operation its isolated request decodes to run; afterwards nothing is pending,
and nothing is late either where `LATE[i]=1` only if `PEND[i]=1` (10_state R21). -/
def Obligations.ArbiterServicesEveryRequestInOrder : Prop :=
  ∀ c : State,
    let serves := fun (i : Fin 4) (u v : State) =>
      (u.pend.getLsbD i.val = false → v = u) ∧
      (u.pend.getLsbD i.val = true → ∃ op, decodeRequest (1#4 <<< i.val) = .ok op ∧
        exec op { u with pend := u.pend &&& ~~~(1#4 <<< i.val), late := u.late &&& ~~~(1#4 <<< i.val) } = .next v)
    ∃ s0 s1 s2 s3 : State, serves 0 c s0 ∧ serves 1 s0 s1 ∧ serves 2 s1 s2 ∧ serves 3 s2 s3 ∧
      serviceAll c = .next s3 ∧ s3.pend = 0 ∧
      ((∀ i : Fin 4, c.late.getLsbD i.val = true → c.pend.getLsbD i.val = true) → s3.late = 0)

/-- Phase 4 with `hold = 1` (43_slot_scheduler R183): nothing is serviced; every pending request is marked late, and
each one newly late adds one to the overrun count. -/
def Obligations.HeldStepCountsEachLateRequestOnce : Prop :=
  ∀ c : State,
    let newlyLate := ((List.finRange 4).filter fun i => c.pend.getLsbD i.val && !c.late.getLsbD i.val).length
    holdAll c = { c with
      late := c.late ||| c.pend
      ovrCnt := BitVec.ofNat 32 (min (2 ^ 32 - 1) (c.ovrCnt.toNat + newlyLate))
      err := if newlyLate = 0 then c.err else c.err ||| 0b00010#5 }

/-- The period of the Second Tick is kept by its counter, not by its handler (10_state R29, 43_slot_scheduler R181):
under any parameters, commands and holds, `ST_CNT` after the run is the start value plus the microseconds, modulo 1,000,000. -/
def Obligations.SecondTickNeverDrifts : Prop :=
  ∀ (c : Params) (s : State), s.stRun = true → s.stCnt.toNat < 1000000 → Input.reset ∉ s.inputs →
    ∃ t, runStepsWith c s.inputs.length s = .next t ∧ t.stRun = true ∧ t.inputs = [] ∧
      t.stCnt.toNat = (s.stCnt.toNat + usecCount s.inputs) % 1000000 ∧
      t.tb = s.tb + BitVec.ofNat 64 (usecCount s.inputs)

/-! ### Reset -/

/-- The step `Reset` (70_reset R260, 10_state R46): every register at the value listed, no slot of either bank written,
no event in the trace (against the letter of R260, log 5). That an unspecified slot is one the memory does not list is the model's choice (log 2). -/
def Obligations.ResetPutsEveryRegisterAtItsValue : Prop :=
  ∀ (s : State) (rest : List Input), s.inputs = .reset :: rest → ∃ t, step s = .next t ∧
    t.tb = 0 ∧ t.fsel = 0 ∧ t.fvalid = false ∧ t.fresh = false ∧ t.idx = 0 ∧ t.sched = .idle ∧ t.carrier = true ∧
    t.stRun = false ∧ t.stCnt = 0 ∧ (∀ k : Fin 3, t.btArmed[k] = false ∧ t.btCnt[k] = 0) ∧ t.pend = 0 ∧ t.late = 0 ∧
    t.err = 0 ∧ t.invCnt = 0 ∧ t.ovrCnt = 0 ∧ t.staleCnt = 0 ∧ t.result = 0 ∧ t.trace = [] ∧
    (∀ (b : Bank) (i : SlotIndex), t.slot? b i = none)

/-! ### Whole-machine rules -/

/-- The invariant holds after reset (10_state R21, R26, R28, R35, R46). -/
def Obligations.ResetMeetsTheRegisterInvariant : Prop :=
  ∀ c : Params, RegInv c State.reset ∧ ∀ s : State, RegInv c (resetStep s)

/-- Every step keeps the register invariant (10_state R21, R26, R28, R33, R35): under any open parameters and from every
state that meets it, whatever the environment does next; and so does `step`, which runs with the defaults (log 3,
log 4). -/
def Obligations.EveryStepKeepsTheRegisterInvariant : Prop :=
  (∀ (c : Params) (s t : State), RegInv c s → stepWith c s = .next t → RegInv c t) ∧
  ∀ s t : State, RegInv defaultParams s → step s = .next t → RegInv defaultParams t

/-- Under the invariant a TICK that is about to be serviced reads a slot that ENCODE has written, the slot of some valid
sample's frame, under any parameters: the free value of an unwritten slot (log 2) is never transmitted (10_state R24, 43_slot_scheduler R184). -/
def Obligations.TickReadsOnlyWrittenSlots : Prop :=
  ∀ (c : Params) (s : State), RegInv c s → pending (countPhases s) 3 = true →
    ∃ v : ValidSample, (countPhases s).slot? (countPhases s).fsel (countPhases s).idx =
      some (encodeFrame c v s.idx)

/-- What no command can do (44_command_port R222), under any parameters: the registers a command can write are those
named in the equation, the trace and every slot of the front bank stay, no flag is cleared and none but INVALID, ILLCMD
and NOFRAME is set, `INV_CNT` does not fall, and a running Second Tick, `FVALID` and `FRESH` are not switched off. -/
def Obligations.CommandsLeaveTheSchedulerAlone : Prop :=
  ∀ (c : Params) (w : CommandWord) (s : State), ∃ t, commandStepWith c w s = .next t ∧
    t = { s with fb := t.fb, fsel := t.fsel, fvalid := t.fvalid, fresh := t.fresh, stRun := t.stRun, stCnt := t.stCnt,
                 result := t.result, err := t.err, invCnt := t.invCnt } ∧
    (∀ i : SlotIndex, t.slot? s.fsel i = s.slot? s.fsel i) ∧
    s.err &&& t.err = s.err ∧ t.err.getLsbD 1 = s.err.getLsbD 1 ∧ t.err.getLsbD 2 = s.err.getLsbD 2 ∧
    s.invCnt.toNat ≤ t.invCnt.toNat ∧ (s.stRun = true → t.stRun = true ∧ t.stCnt = s.stCnt) ∧
    (s.fvalid = true → t.fvalid = true) ∧ (s.fresh = true → t.fresh = true)

/-- Flags are sticky, counters never fall, and the Second Tick and `FVALID` are never switched off, but by `Reset`
(10_state R25, R29, R34, R35). -/
def Obligations.OnlyResetClearsFlagsAndCounters : Prop :=
  ∀ (c : Params) (s t : State), nextInput s ≠ .reset → stepWith c s = .next t →
    s.err &&& t.err = s.err ∧ s.invCnt.toNat ≤ t.invCnt.toNat ∧ s.ovrCnt.toNat ≤ t.ovrCnt.toNat ∧
    s.staleCnt.toNat ≤ t.staleCnt.toNat ∧ (s.stRun = true → t.stRun = true) ∧ (s.fvalid = true → t.fvalid = true) ∧
    s.trace <+: t.trace

/-- `IDX` moves by one, modulo 60, with a TICK service and by nothing else but `Reset` (10_state R23, 43_slot_scheduler
R186). -/
def Obligations.IndexMovesOnlyWithATick : Prop :=
  ∀ (c : Params) (s t : State), nextInput s ≠ .reset → stepWith c s = .next t →
    (nextInput s = .usec false ∧ pending (countPhases (dropInput s)) 3 = true →
      t.idx.val = (s.idx.val + 1) % 60) ∧
    (¬ (nextInput s = .usec false ∧ pending (countPhases (dropInput s)) 3 = true) → t.idx = s.idx)

/-- The frame store is written by ENCODE and `Reset` only: a microsecond leaves every slot (20_memory R60, R66). -/
def Obligations.MicrosecondsNeverWriteTheFrameStore : Prop :=
  ∀ (s : State) (hold : Bool), ∃ t, usecStep hold s = .next t ∧
    (∀ a : Nat, Memory.read t.fb a = Memory.read s.fb a) ∧
    t.fsel = s.fsel ∧ t.fvalid = s.fvalid ∧ t.stRun = s.stRun ∧ t.invCnt = s.invCnt ∧ t.result = s.result ∧
    t.tb = s.tb + 1

/-- The back bank is read by nothing (20_memory R65, R68): two states with the same front bank, alike but for the
memory, have the same microsecond, events included. -/
def Obligations.BackBankIsInvisibleToTheScheduler : Prop :=
  ∀ (s : State) (m : Memory) (hold : Bool),
    (∀ i : SlotIndex, Memory.read m (slotAddress s.fsel i) = Memory.read s.fb (slotAddress s.fsel i)) →
    ∃ t, usecStep hold s = .next t ∧ usecStep hold { s with fb := m } = .next { t with fb := m }

/-- Nothing reads `SCHED`, `ERR` or `RESULT` to decide anything (10_state R27, R34): the step of a state in which they
are changed differs in them only. -/
def Obligations.StatusRegistersDecideNothing : Prop :=
  ∀ (c : Params) (s : State) (x : Sched) (e : BitVec 5) (r : BitVec 32), ∃ t t', stepWith c s = .next t ∧
    stepWith c { s with sched := x, err := e, result := r } = .next t' ∧
    t' = { t with sched := t'.sched, err := t'.err, result := t'.result }

/-- A commit is visible to the very next tick service (20_memory R67 item 2): a TICK right after an ENCODE of a valid
sample transmits the new frame's slot, under any parameters. -/
def Obligations.CommitIsVisibleAtTheNextTick : Prop :=
  ∀ (c : Params) (v : ValidSample) (s : State), ∃ t u,
    execWith c (.encode v.sample) s = .next t ∧ execWith c .tick t = .next u ∧
    u.trace.take (s.trace.length + 2) = s.trace ++
      [{ event := .carrierLow, tb := s.tb }, { event := .diag (encodeFrame c v s.idx), tb := s.tb }]

/-- StaleFrame is counted only by a microsecond that services a TICK with slot 0 next, so reads slot 0, and finds no
commit since slot 0 was last read (20_memory R69, 43_slot_scheduler R184); and every such TICK counts it. -/
def Obligations.StaleFrameOnlyAtAnUncommittedSlotZero : Prop :=
  ∀ (c : Params) (s t : State), nextInput s ≠ .reset → stepWith c s = .next t →
    let readsSlotZero := nextInput s = .usec false ∧ pending (countPhases (dropInput s)) 3 = true ∧ s.idx = 0
    (t.staleCnt ≠ s.staleCnt → readsSlotZero ∧ s.fresh = false ∧ t.fresh = false ∧ t.idx = 1) ∧
    (readsSlotZero → s.fresh = false → t.staleCnt.toNat = min (2 ^ 32 - 1) (s.staleCnt.toNat + 1))

/-- The undisturbed run in closed form (43_slot_scheduler R190): from a just-started scheduler at slot 0 with frame `f`
in the front bank, after any number `n` of unheld microseconds the index is `n / 1,000,000` modulo 60, nothing is
pending, no overrun has been counted, and the carrier is low exactly in the first `T_LOW` microseconds of the current
slot. An empty list of the environment's steps is the undisturbed run (log 1). -/
def Obligations.UndisturbedRunKeepsTheTimeCode : Prop :=
  ∀ (c : Params) (s : State) (f : Frame),
    s.inputs = [] → s.stRun = true → s.stCnt = 0 → s.idx = 0 → s.carrier = true →
    (∀ k : Fin 3, s.btArmed[k] = false) → s.pend = 0 → s.late = 0 →
    (∀ i : SlotIndex, s.slot? s.fsel i = some (f i)) →
    ∀ n : Nat, ∃ t, runStepsWith c n s = .next t ∧
      t.tb = s.tb + BitVec.ofNat 64 n ∧ t.stCnt.toNat = n % 1000000 ∧ t.idx.val = n / 1000000 % 60 ∧
      t.pend = 0 ∧ t.late = 0 ∧ t.ovrCnt = s.ovrCnt ∧ atMostOneArmed t ∧
      (t.carrier = false ↔
        1000000 ≤ n ∧ n % 1000000 < tLow (f (Fin.ofNat 60 (n / 1000000 - 1))))

/-- The timing of a run without holds, one step at a time, with any commands between the microseconds and under any
parameters (43_slot_scheduler R190): the scheduler is on time after reset and after every step that is not held. Such a
step counts no overrun; a microsecond of a running scheduler transmits a slot exactly when the Second Tick reaches
1,000,000, with no Bit Timer armed, and then arms the timer of the value read; it restores the carrier exactly when the
armed timer's count, which is the Second Tick's, reaches its alarm; else it emits nothing. -/
def Obligations.UnheldStepsKeepTheTimeCode : Prop :=
  OnTime State.reset ∧
  ∀ (c : Params) (s t : State), RegInv c s → OnTime s → nextInput s ≠ .usec true → stepWith c s = .next t →
    OnTime t ∧ (nextInput s ≠ .reset → t.ovrCnt = s.ovrCnt) ∧
    (nextInput s = .usec false → s.stRun = true →
      let v := s.slotRead s.fsel s.idx
      let ticks := s.stCnt + 1 = 1000000#20
      (ticks → (∀ k : Fin 3, s.btArmed[k] = false) ∧ (∀ k : Fin 3, t.btArmed[k] = true ↔ k = slotCode v) ∧
        t.stCnt = 0 ∧ t.idx.val = (s.idx.val + 1) % 60 ∧
        t.trace = s.trace ++ [{ event := .carrierLow, tb := s.tb + 1 }, { event := .diag v, tb := s.tb + 1 }] ++
          (if s.idx.val = 59 then [{ event := .minuteDone, tb := s.tb + 1 }, { event := .diagNewline, tb := s.tb + 1 }]
           else [])) ∧
      (¬ ticks → t.stCnt = s.stCnt + 1 ∧ t.idx = s.idx ∧
        ∀ k : Fin 3, s.btArmed[k] = true →
          (s.stCnt + 1 = btAlarm k → t.carrier = true ∧
            t.trace = s.trace ++ [{ event := .carrierFull, tb := s.tb + 1 }]) ∧
          (s.stCnt + 1 ≠ btAlarm k → t.btArmed[k] = true ∧ t.carrier = false ∧ t.trace = s.trace)) ∧
      (¬ ticks → (∀ k : Fin 3, s.btArmed[k] = false) → t.carrier = true ∧ t.trace = s.trace))

/-- The starvation bound (70_reset R272): while no Second Tick request is held for more than 200,000 consecutive
microseconds, at most one Bit Timer is armed at any time, and no TICK finds one armed. -/
def Obligations.BoundedStarvationKeepsOneTimer : Prop :=
  Disciplined State.reset ∧
  ∀ (c : Params) (s t : State), RegInv c s → Disciplined s → stepWith c s = .next t → heldInBounds t →
    Disciplined t ∧
    (nextInput s = .usec false → pending (countPhases (dropInput s)) 3 = true →
      ∀ k : Fin 3, (countPhases (dropInput s)).btArmed[k] = false)

/-! ### Ports -/

/-- The carrier port (30_encoding R87): CarrierLow pulses 0b01, CarrierFull 0b10, every other event 0b00, and 0b11 never
occurs; `diag_sym` carries the code of the symbol (R84, 10_state R45). -/
def Obligations.CarrierPortCodes : Prop :=
  carrierOpWires (pulseOf .carrierLow) = 0b01#2 ∧ carrierOpWires (pulseOf .carrierFull) = 0b10#2 ∧
  (∀ e : Event, e ≠ .carrierLow → e ≠ .carrierFull → carrierOpWires (pulseOf e) = 0b00#2) ∧
  (∀ e : Event, carrierOpWires (pulseOf e) ≠ 0b11#2) ∧
  (pulseOf (.diag .zero)).diagSym = 0b00#2 ∧ (pulseOf (.diag .one)).diagSym = 0b01#2 ∧
  (pulseOf (.diag .marker)).diagSym = 0b10#2
end

