-- ==== Sys2Proof/Laws/State.lean ====
section
/-! SUPPORT. For each shared operation, one lemma per field of State: what it writes there, or that it leaves it
alone. Tagged simp, so that no proof unfolds a record update. -/

namespace Sys2Proof.Machine

variable (s : State)

/-! ### `emit`: only the trace -/

@[simp] theorem emit_tb (e : Event) : (emit e s).tb = s.tb := rfl
@[simp] theorem emit_fb (e : Event) : (emit e s).fb = s.fb := rfl
@[simp] theorem emit_fsel (e : Event) : (emit e s).fsel = s.fsel := rfl
@[simp] theorem emit_fvalid (e : Event) : (emit e s).fvalid = s.fvalid := rfl
@[simp] theorem emit_fresh (e : Event) : (emit e s).fresh = s.fresh := rfl
@[simp] theorem emit_idx (e : Event) : (emit e s).idx = s.idx := rfl
@[simp] theorem emit_sched (e : Event) : (emit e s).sched = s.sched := rfl
@[simp] theorem emit_carrier (e : Event) : (emit e s).carrier = s.carrier := rfl
@[simp] theorem emit_stRun (e : Event) : (emit e s).stRun = s.stRun := rfl
@[simp] theorem emit_stCnt (e : Event) : (emit e s).stCnt = s.stCnt := rfl
@[simp] theorem emit_btArmed (e : Event) : (emit e s).btArmed = s.btArmed := rfl
@[simp] theorem emit_btCnt (e : Event) : (emit e s).btCnt = s.btCnt := rfl
@[simp] theorem emit_pend (e : Event) : (emit e s).pend = s.pend := rfl
@[simp] theorem emit_late (e : Event) : (emit e s).late = s.late := rfl
@[simp] theorem emit_err (e : Event) : (emit e s).err = s.err := rfl
@[simp] theorem emit_invCnt (e : Event) : (emit e s).invCnt = s.invCnt := rfl
@[simp] theorem emit_ovrCnt (e : Event) : (emit e s).ovrCnt = s.ovrCnt := rfl
@[simp] theorem emit_staleCnt (e : Event) : (emit e s).staleCnt = s.staleCnt := rfl
@[simp] theorem emit_result (e : Event) : (emit e s).result = s.result := rfl
@[simp] theorem emit_inputs (e : Event) : (emit e s).inputs = s.inputs := rfl
@[simp] theorem emit_epoch (e : Event) : (emit e s).epoch = s.epoch := rfl

@[simp] theorem emit_trace (e : Event) : (emit e s).trace = s.trace ++ [{ event := e, tb := s.tb }] := rfl

/-! ### `raise`: only the flag and the class's counter (60_exceptions R231) -/

@[simp] theorem raise_tb (x : ErrorClass) : (raise x s).tb = s.tb := rfl
@[simp] theorem raise_fb (x : ErrorClass) : (raise x s).fb = s.fb := rfl
@[simp] theorem raise_fsel (x : ErrorClass) : (raise x s).fsel = s.fsel := rfl
@[simp] theorem raise_fvalid (x : ErrorClass) : (raise x s).fvalid = s.fvalid := rfl
@[simp] theorem raise_fresh (x : ErrorClass) : (raise x s).fresh = s.fresh := rfl
@[simp] theorem raise_idx (x : ErrorClass) : (raise x s).idx = s.idx := rfl
@[simp] theorem raise_sched (x : ErrorClass) : (raise x s).sched = s.sched := rfl
@[simp] theorem raise_carrier (x : ErrorClass) : (raise x s).carrier = s.carrier := rfl
@[simp] theorem raise_stRun (x : ErrorClass) : (raise x s).stRun = s.stRun := rfl
@[simp] theorem raise_stCnt (x : ErrorClass) : (raise x s).stCnt = s.stCnt := rfl
@[simp] theorem raise_btArmed (x : ErrorClass) : (raise x s).btArmed = s.btArmed := rfl
@[simp] theorem raise_btCnt (x : ErrorClass) : (raise x s).btCnt = s.btCnt := rfl
@[simp] theorem raise_pend (x : ErrorClass) : (raise x s).pend = s.pend := rfl
@[simp] theorem raise_late (x : ErrorClass) : (raise x s).late = s.late := rfl
@[simp] theorem raise_result (x : ErrorClass) : (raise x s).result = s.result := rfl
@[simp] theorem raise_trace (x : ErrorClass) : (raise x s).trace = s.trace := rfl
@[simp] theorem raise_inputs (x : ErrorClass) : (raise x s).inputs = s.inputs := rfl
@[simp] theorem raise_epoch (x : ErrorClass) : (raise x s).epoch = s.epoch := rfl

@[simp] theorem raise_err (x : ErrorClass) : (raise x s).err = s.err ||| errBit x := rfl
@[simp] theorem raise_invCnt (x : ErrorClass) : (raise x s).invCnt = if x = .invalidTimeSample then satSucc s.invCnt else s.invCnt := rfl
@[simp] theorem raise_ovrCnt (x : ErrorClass) : (raise x s).ovrCnt = if x = .timingOverrun then satSucc s.ovrCnt else s.ovrCnt := rfl
@[simp] theorem raise_staleCnt (x : ErrorClass) : (raise x s).staleCnt = if x = .staleFrame then satSucc s.staleCnt else s.staleCnt := rfl

/-! ### `raiseIf`: as `raise`, or nothing -/

@[simp] theorem raiseIf_tb (c : Bool) (x : ErrorClass) : (raiseIf c x s).tb = s.tb := by unfold raiseIf; split <;> rfl
@[simp] theorem raiseIf_fb (c : Bool) (x : ErrorClass) : (raiseIf c x s).fb = s.fb := by unfold raiseIf; split <;> rfl
@[simp] theorem raiseIf_fsel (c : Bool) (x : ErrorClass) : (raiseIf c x s).fsel = s.fsel := by unfold raiseIf; split <;> rfl
@[simp] theorem raiseIf_fvalid (c : Bool) (x : ErrorClass) : (raiseIf c x s).fvalid = s.fvalid := by unfold raiseIf; split <;> rfl
@[simp] theorem raiseIf_fresh (c : Bool) (x : ErrorClass) : (raiseIf c x s).fresh = s.fresh := by unfold raiseIf; split <;> rfl
@[simp] theorem raiseIf_idx (c : Bool) (x : ErrorClass) : (raiseIf c x s).idx = s.idx := by unfold raiseIf; split <;> rfl
@[simp] theorem raiseIf_sched (c : Bool) (x : ErrorClass) : (raiseIf c x s).sched = s.sched := by unfold raiseIf; split <;> rfl
@[simp] theorem raiseIf_carrier (c : Bool) (x : ErrorClass) : (raiseIf c x s).carrier = s.carrier := by unfold raiseIf; split <;> rfl
@[simp] theorem raiseIf_stRun (c : Bool) (x : ErrorClass) : (raiseIf c x s).stRun = s.stRun := by unfold raiseIf; split <;> rfl
@[simp] theorem raiseIf_stCnt (c : Bool) (x : ErrorClass) : (raiseIf c x s).stCnt = s.stCnt := by unfold raiseIf; split <;> rfl
@[simp] theorem raiseIf_btArmed (c : Bool) (x : ErrorClass) : (raiseIf c x s).btArmed = s.btArmed := by unfold raiseIf; split <;> rfl
@[simp] theorem raiseIf_btCnt (c : Bool) (x : ErrorClass) : (raiseIf c x s).btCnt = s.btCnt := by unfold raiseIf; split <;> rfl
@[simp] theorem raiseIf_pend (c : Bool) (x : ErrorClass) : (raiseIf c x s).pend = s.pend := by unfold raiseIf; split <;> rfl
@[simp] theorem raiseIf_late (c : Bool) (x : ErrorClass) : (raiseIf c x s).late = s.late := by unfold raiseIf; split <;> rfl
@[simp] theorem raiseIf_result (c : Bool) (x : ErrorClass) : (raiseIf c x s).result = s.result := by unfold raiseIf; split <;> rfl
@[simp] theorem raiseIf_trace (c : Bool) (x : ErrorClass) : (raiseIf c x s).trace = s.trace := by unfold raiseIf; split <;> rfl
@[simp] theorem raiseIf_inputs (c : Bool) (x : ErrorClass) : (raiseIf c x s).inputs = s.inputs := by unfold raiseIf; split <;> rfl
@[simp] theorem raiseIf_epoch (c : Bool) (x : ErrorClass) : (raiseIf c x s).epoch = s.epoch := by unfold raiseIf; split <;> rfl

/-! ### `carrierDown`: CARRIER and the trace (43_slot_scheduler R174) -/

@[simp] theorem carrierDown_tb : (carrierDown s).tb = s.tb := rfl
@[simp] theorem carrierDown_fb : (carrierDown s).fb = s.fb := rfl
@[simp] theorem carrierDown_fsel : (carrierDown s).fsel = s.fsel := rfl
@[simp] theorem carrierDown_fvalid : (carrierDown s).fvalid = s.fvalid := rfl
@[simp] theorem carrierDown_fresh : (carrierDown s).fresh = s.fresh := rfl
@[simp] theorem carrierDown_idx : (carrierDown s).idx = s.idx := rfl
@[simp] theorem carrierDown_sched : (carrierDown s).sched = s.sched := rfl
@[simp] theorem carrierDown_stRun : (carrierDown s).stRun = s.stRun := rfl
@[simp] theorem carrierDown_stCnt : (carrierDown s).stCnt = s.stCnt := rfl
@[simp] theorem carrierDown_btArmed : (carrierDown s).btArmed = s.btArmed := rfl
@[simp] theorem carrierDown_btCnt : (carrierDown s).btCnt = s.btCnt := rfl
@[simp] theorem carrierDown_pend : (carrierDown s).pend = s.pend := rfl
@[simp] theorem carrierDown_late : (carrierDown s).late = s.late := rfl
@[simp] theorem carrierDown_err : (carrierDown s).err = s.err := rfl
@[simp] theorem carrierDown_invCnt : (carrierDown s).invCnt = s.invCnt := rfl
@[simp] theorem carrierDown_ovrCnt : (carrierDown s).ovrCnt = s.ovrCnt := rfl
@[simp] theorem carrierDown_staleCnt : (carrierDown s).staleCnt = s.staleCnt := rfl
@[simp] theorem carrierDown_result : (carrierDown s).result = s.result := rfl
@[simp] theorem carrierDown_inputs : (carrierDown s).inputs = s.inputs := rfl
@[simp] theorem carrierDown_epoch : (carrierDown s).epoch = s.epoch := rfl

@[simp] theorem carrierDown_carrier : (carrierDown s).carrier = false := rfl
@[simp] theorem carrierDown_trace : (carrierDown s).trace = s.trace ++ [{ event := .carrierLow, tb := s.tb }] := rfl

/-! ### `carrierUp`: CARRIER and the trace (43_slot_scheduler R175) -/

@[simp] theorem carrierUp_tb : (carrierUp s).tb = s.tb := rfl
@[simp] theorem carrierUp_fb : (carrierUp s).fb = s.fb := rfl
@[simp] theorem carrierUp_fsel : (carrierUp s).fsel = s.fsel := rfl
@[simp] theorem carrierUp_fvalid : (carrierUp s).fvalid = s.fvalid := rfl
@[simp] theorem carrierUp_fresh : (carrierUp s).fresh = s.fresh := rfl
@[simp] theorem carrierUp_idx : (carrierUp s).idx = s.idx := rfl
@[simp] theorem carrierUp_sched : (carrierUp s).sched = s.sched := rfl
@[simp] theorem carrierUp_stRun : (carrierUp s).stRun = s.stRun := rfl
@[simp] theorem carrierUp_stCnt : (carrierUp s).stCnt = s.stCnt := rfl
@[simp] theorem carrierUp_btArmed : (carrierUp s).btArmed = s.btArmed := rfl
@[simp] theorem carrierUp_btCnt : (carrierUp s).btCnt = s.btCnt := rfl
@[simp] theorem carrierUp_pend : (carrierUp s).pend = s.pend := rfl
@[simp] theorem carrierUp_late : (carrierUp s).late = s.late := rfl
@[simp] theorem carrierUp_err : (carrierUp s).err = s.err := rfl
@[simp] theorem carrierUp_invCnt : (carrierUp s).invCnt = s.invCnt := rfl
@[simp] theorem carrierUp_ovrCnt : (carrierUp s).ovrCnt = s.ovrCnt := rfl
@[simp] theorem carrierUp_staleCnt : (carrierUp s).staleCnt = s.staleCnt := rfl
@[simp] theorem carrierUp_result : (carrierUp s).result = s.result := rfl
@[simp] theorem carrierUp_inputs : (carrierUp s).inputs = s.inputs := rfl
@[simp] theorem carrierUp_epoch : (carrierUp s).epoch = s.epoch := rfl

@[simp] theorem carrierUp_carrier : (carrierUp s).carrier = true := rfl
@[simp] theorem carrierUp_trace : (carrierUp s).trace = s.trace ++ [{ event := .carrierFull, tb := s.tb }] := rfl

/-! ### `answer`: RESULT (10_state R36) -/

@[simp] theorem answer_tb (r : BitVec 32) : (answer r s).tb = s.tb := rfl
@[simp] theorem answer_fb (r : BitVec 32) : (answer r s).fb = s.fb := rfl
@[simp] theorem answer_fsel (r : BitVec 32) : (answer r s).fsel = s.fsel := rfl
@[simp] theorem answer_fvalid (r : BitVec 32) : (answer r s).fvalid = s.fvalid := rfl
@[simp] theorem answer_fresh (r : BitVec 32) : (answer r s).fresh = s.fresh := rfl
@[simp] theorem answer_idx (r : BitVec 32) : (answer r s).idx = s.idx := rfl
@[simp] theorem answer_sched (r : BitVec 32) : (answer r s).sched = s.sched := rfl
@[simp] theorem answer_carrier (r : BitVec 32) : (answer r s).carrier = s.carrier := rfl
@[simp] theorem answer_stRun (r : BitVec 32) : (answer r s).stRun = s.stRun := rfl
@[simp] theorem answer_stCnt (r : BitVec 32) : (answer r s).stCnt = s.stCnt := rfl
@[simp] theorem answer_btArmed (r : BitVec 32) : (answer r s).btArmed = s.btArmed := rfl
@[simp] theorem answer_btCnt (r : BitVec 32) : (answer r s).btCnt = s.btCnt := rfl
@[simp] theorem answer_pend (r : BitVec 32) : (answer r s).pend = s.pend := rfl
@[simp] theorem answer_late (r : BitVec 32) : (answer r s).late = s.late := rfl
@[simp] theorem answer_err (r : BitVec 32) : (answer r s).err = s.err := rfl
@[simp] theorem answer_invCnt (r : BitVec 32) : (answer r s).invCnt = s.invCnt := rfl
@[simp] theorem answer_ovrCnt (r : BitVec 32) : (answer r s).ovrCnt = s.ovrCnt := rfl
@[simp] theorem answer_staleCnt (r : BitVec 32) : (answer r s).staleCnt = s.staleCnt := rfl
@[simp] theorem answer_trace (r : BitVec 32) : (answer r s).trace = s.trace := rfl
@[simp] theorem answer_inputs (r : BitVec 32) : (answer r s).inputs = s.inputs := rfl
@[simp] theorem answer_epoch (r : BitVec 32) : (answer r s).epoch = s.epoch := rfl

@[simp] theorem answer_result (r : BitVec 32) : (answer r s).result = r := rfl

/-! ### `armSecondTick`: ST_CNT and ST_RUN (43_slot_scheduler R171) -/

@[simp] theorem armSecondTick_tb : (armSecondTick s).tb = s.tb := rfl
@[simp] theorem armSecondTick_fb : (armSecondTick s).fb = s.fb := rfl
@[simp] theorem armSecondTick_fsel : (armSecondTick s).fsel = s.fsel := rfl
@[simp] theorem armSecondTick_fvalid : (armSecondTick s).fvalid = s.fvalid := rfl
@[simp] theorem armSecondTick_fresh : (armSecondTick s).fresh = s.fresh := rfl
@[simp] theorem armSecondTick_idx : (armSecondTick s).idx = s.idx := rfl
@[simp] theorem armSecondTick_sched : (armSecondTick s).sched = s.sched := rfl
@[simp] theorem armSecondTick_carrier : (armSecondTick s).carrier = s.carrier := rfl
@[simp] theorem armSecondTick_btArmed : (armSecondTick s).btArmed = s.btArmed := rfl
@[simp] theorem armSecondTick_btCnt : (armSecondTick s).btCnt = s.btCnt := rfl
@[simp] theorem armSecondTick_pend : (armSecondTick s).pend = s.pend := rfl
@[simp] theorem armSecondTick_late : (armSecondTick s).late = s.late := rfl
@[simp] theorem armSecondTick_err : (armSecondTick s).err = s.err := rfl
@[simp] theorem armSecondTick_invCnt : (armSecondTick s).invCnt = s.invCnt := rfl
@[simp] theorem armSecondTick_ovrCnt : (armSecondTick s).ovrCnt = s.ovrCnt := rfl
@[simp] theorem armSecondTick_staleCnt : (armSecondTick s).staleCnt = s.staleCnt := rfl
@[simp] theorem armSecondTick_result : (armSecondTick s).result = s.result := rfl
@[simp] theorem armSecondTick_trace : (armSecondTick s).trace = s.trace := rfl
@[simp] theorem armSecondTick_inputs : (armSecondTick s).inputs = s.inputs := rfl
@[simp] theorem armSecondTick_epoch : (armSecondTick s).epoch = s.epoch := rfl

@[simp] theorem armSecondTick_stCnt : (armSecondTick s).stCnt = 0 := rfl
@[simp] theorem armSecondTick_stRun : (armSecondTick s).stRun = true := rfl

/-! ### `armBitTimer`: one Bit Timer (43_slot_scheduler R184 line 6) -/

@[simp] theorem armBitTimer_tb (k : Fin 3) : (armBitTimer k s).tb = s.tb := rfl
@[simp] theorem armBitTimer_fb (k : Fin 3) : (armBitTimer k s).fb = s.fb := rfl
@[simp] theorem armBitTimer_fsel (k : Fin 3) : (armBitTimer k s).fsel = s.fsel := rfl
@[simp] theorem armBitTimer_fvalid (k : Fin 3) : (armBitTimer k s).fvalid = s.fvalid := rfl
@[simp] theorem armBitTimer_fresh (k : Fin 3) : (armBitTimer k s).fresh = s.fresh := rfl
@[simp] theorem armBitTimer_idx (k : Fin 3) : (armBitTimer k s).idx = s.idx := rfl
@[simp] theorem armBitTimer_sched (k : Fin 3) : (armBitTimer k s).sched = s.sched := rfl
@[simp] theorem armBitTimer_carrier (k : Fin 3) : (armBitTimer k s).carrier = s.carrier := rfl
@[simp] theorem armBitTimer_stRun (k : Fin 3) : (armBitTimer k s).stRun = s.stRun := rfl
@[simp] theorem armBitTimer_stCnt (k : Fin 3) : (armBitTimer k s).stCnt = s.stCnt := rfl
@[simp] theorem armBitTimer_pend (k : Fin 3) : (armBitTimer k s).pend = s.pend := rfl
@[simp] theorem armBitTimer_late (k : Fin 3) : (armBitTimer k s).late = s.late := rfl
@[simp] theorem armBitTimer_err (k : Fin 3) : (armBitTimer k s).err = s.err := rfl
@[simp] theorem armBitTimer_invCnt (k : Fin 3) : (armBitTimer k s).invCnt = s.invCnt := rfl
@[simp] theorem armBitTimer_ovrCnt (k : Fin 3) : (armBitTimer k s).ovrCnt = s.ovrCnt := rfl
@[simp] theorem armBitTimer_staleCnt (k : Fin 3) : (armBitTimer k s).staleCnt = s.staleCnt := rfl
@[simp] theorem armBitTimer_result (k : Fin 3) : (armBitTimer k s).result = s.result := rfl
@[simp] theorem armBitTimer_trace (k : Fin 3) : (armBitTimer k s).trace = s.trace := rfl
@[simp] theorem armBitTimer_inputs (k : Fin 3) : (armBitTimer k s).inputs = s.inputs := rfl
@[simp] theorem armBitTimer_epoch (k : Fin 3) : (armBitTimer k s).epoch = s.epoch := rfl

@[simp] theorem armBitTimer_btCnt (k : Fin 3) : (armBitTimer k s).btCnt = s.btCnt.set k 0 := rfl
@[simp] theorem armBitTimer_btArmed (k : Fin 3) : (armBitTimer k s).btArmed = s.btArmed.set k true := rfl

/-! ### `fire`: a request bit, or a counted overrun (43_slot_scheduler R182) -/

@[simp] theorem fire_tb (i : Fin 4) : (fire i s).tb = s.tb := by unfold fire; split <;> rfl
@[simp] theorem fire_fb (i : Fin 4) : (fire i s).fb = s.fb := by unfold fire; split <;> rfl
@[simp] theorem fire_fsel (i : Fin 4) : (fire i s).fsel = s.fsel := by unfold fire; split <;> rfl
@[simp] theorem fire_fvalid (i : Fin 4) : (fire i s).fvalid = s.fvalid := by unfold fire; split <;> rfl
@[simp] theorem fire_fresh (i : Fin 4) : (fire i s).fresh = s.fresh := by unfold fire; split <;> rfl
@[simp] theorem fire_idx (i : Fin 4) : (fire i s).idx = s.idx := by unfold fire; split <;> rfl
@[simp] theorem fire_sched (i : Fin 4) : (fire i s).sched = s.sched := by unfold fire; split <;> rfl
@[simp] theorem fire_carrier (i : Fin 4) : (fire i s).carrier = s.carrier := by unfold fire; split <;> rfl
@[simp] theorem fire_stRun (i : Fin 4) : (fire i s).stRun = s.stRun := by unfold fire; split <;> rfl
@[simp] theorem fire_stCnt (i : Fin 4) : (fire i s).stCnt = s.stCnt := by unfold fire; split <;> rfl
@[simp] theorem fire_btArmed (i : Fin 4) : (fire i s).btArmed = s.btArmed := by unfold fire; split <;> rfl
@[simp] theorem fire_btCnt (i : Fin 4) : (fire i s).btCnt = s.btCnt := by unfold fire; split <;> rfl
@[simp] theorem fire_late (i : Fin 4) : (fire i s).late = s.late := by unfold fire; split <;> rfl
@[simp] theorem fire_invCnt (i : Fin 4) : (fire i s).invCnt = s.invCnt := by unfold fire; split <;> rfl
@[simp] theorem fire_staleCnt (i : Fin 4) : (fire i s).staleCnt = s.staleCnt := by unfold fire; split <;> rfl
@[simp] theorem fire_result (i : Fin 4) : (fire i s).result = s.result := by unfold fire; split <;> rfl
@[simp] theorem fire_trace (i : Fin 4) : (fire i s).trace = s.trace := by unfold fire; split <;> rfl
@[simp] theorem fire_inputs (i : Fin 4) : (fire i s).inputs = s.inputs := by unfold fire; split <;> rfl
@[simp] theorem fire_epoch (i : Fin 4) : (fire i s).epoch = s.epoch := by unfold fire; split <;> rfl

/-! ### `acknowledge`: PEND[i] and LATE[i] (60_exceptions R242) -/

@[simp] theorem acknowledge_tb (i : Fin 4) : (acknowledge i s).tb = s.tb := rfl
@[simp] theorem acknowledge_fb (i : Fin 4) : (acknowledge i s).fb = s.fb := rfl
@[simp] theorem acknowledge_fsel (i : Fin 4) : (acknowledge i s).fsel = s.fsel := rfl
@[simp] theorem acknowledge_fvalid (i : Fin 4) : (acknowledge i s).fvalid = s.fvalid := rfl
@[simp] theorem acknowledge_fresh (i : Fin 4) : (acknowledge i s).fresh = s.fresh := rfl
@[simp] theorem acknowledge_idx (i : Fin 4) : (acknowledge i s).idx = s.idx := rfl
@[simp] theorem acknowledge_sched (i : Fin 4) : (acknowledge i s).sched = s.sched := rfl
@[simp] theorem acknowledge_carrier (i : Fin 4) : (acknowledge i s).carrier = s.carrier := rfl
@[simp] theorem acknowledge_stRun (i : Fin 4) : (acknowledge i s).stRun = s.stRun := rfl
@[simp] theorem acknowledge_stCnt (i : Fin 4) : (acknowledge i s).stCnt = s.stCnt := rfl
@[simp] theorem acknowledge_btArmed (i : Fin 4) : (acknowledge i s).btArmed = s.btArmed := rfl
@[simp] theorem acknowledge_btCnt (i : Fin 4) : (acknowledge i s).btCnt = s.btCnt := rfl
@[simp] theorem acknowledge_err (i : Fin 4) : (acknowledge i s).err = s.err := rfl
@[simp] theorem acknowledge_invCnt (i : Fin 4) : (acknowledge i s).invCnt = s.invCnt := rfl
@[simp] theorem acknowledge_ovrCnt (i : Fin 4) : (acknowledge i s).ovrCnt = s.ovrCnt := rfl
@[simp] theorem acknowledge_staleCnt (i : Fin 4) : (acknowledge i s).staleCnt = s.staleCnt := rfl
@[simp] theorem acknowledge_result (i : Fin 4) : (acknowledge i s).result = s.result := rfl
@[simp] theorem acknowledge_trace (i : Fin 4) : (acknowledge i s).trace = s.trace := rfl
@[simp] theorem acknowledge_inputs (i : Fin 4) : (acknowledge i s).inputs = s.inputs := rfl
@[simp] theorem acknowledge_epoch (i : Fin 4) : (acknowledge i s).epoch = s.epoch := rfl

@[simp] theorem acknowledge_pend (i : Fin 4) : (acknowledge i s).pend = s.pend &&& ~~~ requestBit i := rfl
@[simp] theorem acknowledge_late (i : Fin 4) : (acknowledge i s).late = s.late &&& ~~~ requestBit i := rfl

/-! ### `markLate`: LATE[i] and a counted overrun (43_slot_scheduler R183) -/

@[simp] theorem markLate_tb (i : Fin 4) : (markLate i s).tb = s.tb := by unfold markLate; split <;> rfl
@[simp] theorem markLate_fb (i : Fin 4) : (markLate i s).fb = s.fb := by unfold markLate; split <;> rfl
@[simp] theorem markLate_fsel (i : Fin 4) : (markLate i s).fsel = s.fsel := by unfold markLate; split <;> rfl
@[simp] theorem markLate_fvalid (i : Fin 4) : (markLate i s).fvalid = s.fvalid := by unfold markLate; split <;> rfl
@[simp] theorem markLate_fresh (i : Fin 4) : (markLate i s).fresh = s.fresh := by unfold markLate; split <;> rfl
@[simp] theorem markLate_idx (i : Fin 4) : (markLate i s).idx = s.idx := by unfold markLate; split <;> rfl
@[simp] theorem markLate_sched (i : Fin 4) : (markLate i s).sched = s.sched := by unfold markLate; split <;> rfl
@[simp] theorem markLate_carrier (i : Fin 4) : (markLate i s).carrier = s.carrier := by unfold markLate; split <;> rfl
@[simp] theorem markLate_stRun (i : Fin 4) : (markLate i s).stRun = s.stRun := by unfold markLate; split <;> rfl
@[simp] theorem markLate_stCnt (i : Fin 4) : (markLate i s).stCnt = s.stCnt := by unfold markLate; split <;> rfl
@[simp] theorem markLate_btArmed (i : Fin 4) : (markLate i s).btArmed = s.btArmed := by unfold markLate; split <;> rfl
@[simp] theorem markLate_btCnt (i : Fin 4) : (markLate i s).btCnt = s.btCnt := by unfold markLate; split <;> rfl
@[simp] theorem markLate_pend (i : Fin 4) : (markLate i s).pend = s.pend := by unfold markLate; split <;> rfl
@[simp] theorem markLate_invCnt (i : Fin 4) : (markLate i s).invCnt = s.invCnt := by unfold markLate; split <;> rfl
@[simp] theorem markLate_staleCnt (i : Fin 4) : (markLate i s).staleCnt = s.staleCnt := by unfold markLate; split <;> rfl
@[simp] theorem markLate_result (i : Fin 4) : (markLate i s).result = s.result := by unfold markLate; split <;> rfl
@[simp] theorem markLate_trace (i : Fin 4) : (markLate i s).trace = s.trace := by unfold markLate; split <;> rfl
@[simp] theorem markLate_inputs (i : Fin 4) : (markLate i s).inputs = s.inputs := by unfold markLate; split <;> rfl
@[simp] theorem markLate_epoch (i : Fin 4) : (markLate i s).epoch = s.epoch := by unfold markLate; split <;> rfl

/-! ### `holdAll`: the four requests of a held step -/

@[simp] theorem holdAll_tb : (holdAll s).tb = s.tb := by simp [holdAll]
@[simp] theorem holdAll_fb : (holdAll s).fb = s.fb := by simp [holdAll]
@[simp] theorem holdAll_fsel : (holdAll s).fsel = s.fsel := by simp [holdAll]
@[simp] theorem holdAll_fvalid : (holdAll s).fvalid = s.fvalid := by simp [holdAll]
@[simp] theorem holdAll_fresh : (holdAll s).fresh = s.fresh := by simp [holdAll]
@[simp] theorem holdAll_idx : (holdAll s).idx = s.idx := by simp [holdAll]
@[simp] theorem holdAll_sched : (holdAll s).sched = s.sched := by simp [holdAll]
@[simp] theorem holdAll_carrier : (holdAll s).carrier = s.carrier := by simp [holdAll]
@[simp] theorem holdAll_stRun : (holdAll s).stRun = s.stRun := by simp [holdAll]
@[simp] theorem holdAll_stCnt : (holdAll s).stCnt = s.stCnt := by simp [holdAll]
@[simp] theorem holdAll_btArmed : (holdAll s).btArmed = s.btArmed := by simp [holdAll]
@[simp] theorem holdAll_btCnt : (holdAll s).btCnt = s.btCnt := by simp [holdAll]
@[simp] theorem holdAll_pend : (holdAll s).pend = s.pend := by simp [holdAll]
@[simp] theorem holdAll_invCnt : (holdAll s).invCnt = s.invCnt := by simp [holdAll]
@[simp] theorem holdAll_staleCnt : (holdAll s).staleCnt = s.staleCnt := by simp [holdAll]
@[simp] theorem holdAll_result : (holdAll s).result = s.result := by simp [holdAll]
@[simp] theorem holdAll_trace : (holdAll s).trace = s.trace := by simp [holdAll]
@[simp] theorem holdAll_inputs : (holdAll s).inputs = s.inputs := by simp [holdAll]
@[simp] theorem holdAll_epoch : (holdAll s).epoch = s.epoch := by simp [holdAll]

/-! ### `consumeFresh`: FRESH and a counted stale frame (43_slot_scheduler R184 line 2) -/

@[simp] theorem consumeFresh_tb : (consumeFresh s).tb = s.tb := by unfold consumeFresh; split <;> simp
@[simp] theorem consumeFresh_fb : (consumeFresh s).fb = s.fb := by unfold consumeFresh; split <;> simp
@[simp] theorem consumeFresh_fsel : (consumeFresh s).fsel = s.fsel := by unfold consumeFresh; split <;> simp
@[simp] theorem consumeFresh_fvalid : (consumeFresh s).fvalid = s.fvalid := by unfold consumeFresh; split <;> simp
@[simp] theorem consumeFresh_idx : (consumeFresh s).idx = s.idx := by unfold consumeFresh; split <;> simp
@[simp] theorem consumeFresh_sched : (consumeFresh s).sched = s.sched := by unfold consumeFresh; split <;> simp
@[simp] theorem consumeFresh_carrier : (consumeFresh s).carrier = s.carrier := by unfold consumeFresh; split <;> simp
@[simp] theorem consumeFresh_stRun : (consumeFresh s).stRun = s.stRun := by unfold consumeFresh; split <;> simp
@[simp] theorem consumeFresh_stCnt : (consumeFresh s).stCnt = s.stCnt := by unfold consumeFresh; split <;> simp
@[simp] theorem consumeFresh_btArmed : (consumeFresh s).btArmed = s.btArmed := by unfold consumeFresh; split <;> simp
@[simp] theorem consumeFresh_btCnt : (consumeFresh s).btCnt = s.btCnt := by unfold consumeFresh; split <;> simp
@[simp] theorem consumeFresh_pend : (consumeFresh s).pend = s.pend := by unfold consumeFresh; split <;> simp
@[simp] theorem consumeFresh_late : (consumeFresh s).late = s.late := by unfold consumeFresh; split <;> simp
@[simp] theorem consumeFresh_result : (consumeFresh s).result = s.result := by unfold consumeFresh; split <;> simp
@[simp] theorem consumeFresh_trace : (consumeFresh s).trace = s.trace := by unfold consumeFresh; split <;> simp
@[simp] theorem consumeFresh_inputs : (consumeFresh s).inputs = s.inputs := by unfold consumeFresh; split <;> simp
@[simp] theorem consumeFresh_epoch : (consumeFresh s).epoch = s.epoch := by unfold consumeFresh; split <;> simp

/-! ### `endOfMinute`: only the trace (43_slot_scheduler R184 line 10) -/

@[simp] theorem endOfMinute_tb : (endOfMinute s).tb = s.tb := by unfold endOfMinute; split <;> rfl
@[simp] theorem endOfMinute_fb : (endOfMinute s).fb = s.fb := by unfold endOfMinute; split <;> rfl
@[simp] theorem endOfMinute_fsel : (endOfMinute s).fsel = s.fsel := by unfold endOfMinute; split <;> rfl
@[simp] theorem endOfMinute_fvalid : (endOfMinute s).fvalid = s.fvalid := by unfold endOfMinute; split <;> rfl
@[simp] theorem endOfMinute_fresh : (endOfMinute s).fresh = s.fresh := by unfold endOfMinute; split <;> rfl
@[simp] theorem endOfMinute_idx : (endOfMinute s).idx = s.idx := by unfold endOfMinute; split <;> rfl
@[simp] theorem endOfMinute_sched : (endOfMinute s).sched = s.sched := by unfold endOfMinute; split <;> rfl
@[simp] theorem endOfMinute_carrier : (endOfMinute s).carrier = s.carrier := by unfold endOfMinute; split <;> rfl
@[simp] theorem endOfMinute_stRun : (endOfMinute s).stRun = s.stRun := by unfold endOfMinute; split <;> rfl
@[simp] theorem endOfMinute_stCnt : (endOfMinute s).stCnt = s.stCnt := by unfold endOfMinute; split <;> rfl
@[simp] theorem endOfMinute_btArmed : (endOfMinute s).btArmed = s.btArmed := by unfold endOfMinute; split <;> rfl
@[simp] theorem endOfMinute_btCnt : (endOfMinute s).btCnt = s.btCnt := by unfold endOfMinute; split <;> rfl
@[simp] theorem endOfMinute_pend : (endOfMinute s).pend = s.pend := by unfold endOfMinute; split <;> rfl
@[simp] theorem endOfMinute_late : (endOfMinute s).late = s.late := by unfold endOfMinute; split <;> rfl
@[simp] theorem endOfMinute_err : (endOfMinute s).err = s.err := by unfold endOfMinute; split <;> rfl
@[simp] theorem endOfMinute_invCnt : (endOfMinute s).invCnt = s.invCnt := by unfold endOfMinute; split <;> rfl
@[simp] theorem endOfMinute_ovrCnt : (endOfMinute s).ovrCnt = s.ovrCnt := by unfold endOfMinute; split <;> rfl
@[simp] theorem endOfMinute_staleCnt : (endOfMinute s).staleCnt = s.staleCnt := by unfold endOfMinute; split <;> rfl
@[simp] theorem endOfMinute_result : (endOfMinute s).result = s.result := by unfold endOfMinute; split <;> rfl
@[simp] theorem endOfMinute_inputs : (endOfMinute s).inputs = s.inputs := by unfold endOfMinute; split <;> rfl
@[simp] theorem endOfMinute_epoch : (endOfMinute s).epoch = s.epoch := by unfold endOfMinute; split <;> rfl

/-! ### `countOverlap`: a counted overrun, or nothing (43_slot_scheduler R185) -/

@[simp] theorem countOverlap_tb : (countOverlap s).tb = s.tb := by simp [countOverlap]
@[simp] theorem countOverlap_fb : (countOverlap s).fb = s.fb := by simp [countOverlap]
@[simp] theorem countOverlap_fsel : (countOverlap s).fsel = s.fsel := by simp [countOverlap]
@[simp] theorem countOverlap_fvalid : (countOverlap s).fvalid = s.fvalid := by simp [countOverlap]
@[simp] theorem countOverlap_fresh : (countOverlap s).fresh = s.fresh := by simp [countOverlap]
@[simp] theorem countOverlap_idx : (countOverlap s).idx = s.idx := by simp [countOverlap]
@[simp] theorem countOverlap_sched : (countOverlap s).sched = s.sched := by simp [countOverlap]
@[simp] theorem countOverlap_carrier : (countOverlap s).carrier = s.carrier := by simp [countOverlap]
@[simp] theorem countOverlap_stRun : (countOverlap s).stRun = s.stRun := by simp [countOverlap]
@[simp] theorem countOverlap_stCnt : (countOverlap s).stCnt = s.stCnt := by simp [countOverlap]
@[simp] theorem countOverlap_btArmed : (countOverlap s).btArmed = s.btArmed := by simp [countOverlap]
@[simp] theorem countOverlap_btCnt : (countOverlap s).btCnt = s.btCnt := by simp [countOverlap]
@[simp] theorem countOverlap_pend : (countOverlap s).pend = s.pend := by simp [countOverlap]
@[simp] theorem countOverlap_late : (countOverlap s).late = s.late := by simp [countOverlap]
@[simp] theorem countOverlap_result : (countOverlap s).result = s.result := by simp [countOverlap]
@[simp] theorem countOverlap_trace : (countOverlap s).trace = s.trace := by simp [countOverlap]
@[simp] theorem countOverlap_inputs : (countOverlap s).inputs = s.inputs := by simp [countOverlap]
@[simp] theorem countOverlap_epoch : (countOverlap s).epoch = s.epoch := by simp [countOverlap]

/-! ### `setSched`: SCHED -/

@[simp] theorem setSched_tb (x : Sched) : (setSched x s).tb = s.tb := rfl
@[simp] theorem setSched_fb (x : Sched) : (setSched x s).fb = s.fb := rfl
@[simp] theorem setSched_fsel (x : Sched) : (setSched x s).fsel = s.fsel := rfl
@[simp] theorem setSched_fvalid (x : Sched) : (setSched x s).fvalid = s.fvalid := rfl
@[simp] theorem setSched_fresh (x : Sched) : (setSched x s).fresh = s.fresh := rfl
@[simp] theorem setSched_idx (x : Sched) : (setSched x s).idx = s.idx := rfl
@[simp] theorem setSched_carrier (x : Sched) : (setSched x s).carrier = s.carrier := rfl
@[simp] theorem setSched_stRun (x : Sched) : (setSched x s).stRun = s.stRun := rfl
@[simp] theorem setSched_stCnt (x : Sched) : (setSched x s).stCnt = s.stCnt := rfl
@[simp] theorem setSched_btArmed (x : Sched) : (setSched x s).btArmed = s.btArmed := rfl
@[simp] theorem setSched_btCnt (x : Sched) : (setSched x s).btCnt = s.btCnt := rfl
@[simp] theorem setSched_pend (x : Sched) : (setSched x s).pend = s.pend := rfl
@[simp] theorem setSched_late (x : Sched) : (setSched x s).late = s.late := rfl
@[simp] theorem setSched_err (x : Sched) : (setSched x s).err = s.err := rfl
@[simp] theorem setSched_invCnt (x : Sched) : (setSched x s).invCnt = s.invCnt := rfl
@[simp] theorem setSched_ovrCnt (x : Sched) : (setSched x s).ovrCnt = s.ovrCnt := rfl
@[simp] theorem setSched_staleCnt (x : Sched) : (setSched x s).staleCnt = s.staleCnt := rfl
@[simp] theorem setSched_result (x : Sched) : (setSched x s).result = s.result := rfl
@[simp] theorem setSched_trace (x : Sched) : (setSched x s).trace = s.trace := rfl
@[simp] theorem setSched_inputs (x : Sched) : (setSched x s).inputs = s.inputs := rfl
@[simp] theorem setSched_epoch (x : Sched) : (setSched x s).epoch = s.epoch := rfl

@[simp] theorem setSched_sched (x : Sched) : (setSched x s).sched = x := rfl

/-! ### `advanceIdx`: IDX (43_slot_scheduler R186) -/

@[simp] theorem advanceIdx_tb : (advanceIdx s).tb = s.tb := rfl
@[simp] theorem advanceIdx_fb : (advanceIdx s).fb = s.fb := rfl
@[simp] theorem advanceIdx_fsel : (advanceIdx s).fsel = s.fsel := rfl
@[simp] theorem advanceIdx_fvalid : (advanceIdx s).fvalid = s.fvalid := rfl
@[simp] theorem advanceIdx_fresh : (advanceIdx s).fresh = s.fresh := rfl
@[simp] theorem advanceIdx_sched : (advanceIdx s).sched = s.sched := rfl
@[simp] theorem advanceIdx_carrier : (advanceIdx s).carrier = s.carrier := rfl
@[simp] theorem advanceIdx_stRun : (advanceIdx s).stRun = s.stRun := rfl
@[simp] theorem advanceIdx_stCnt : (advanceIdx s).stCnt = s.stCnt := rfl
@[simp] theorem advanceIdx_btArmed : (advanceIdx s).btArmed = s.btArmed := rfl
@[simp] theorem advanceIdx_btCnt : (advanceIdx s).btCnt = s.btCnt := rfl
@[simp] theorem advanceIdx_pend : (advanceIdx s).pend = s.pend := rfl
@[simp] theorem advanceIdx_late : (advanceIdx s).late = s.late := rfl
@[simp] theorem advanceIdx_err : (advanceIdx s).err = s.err := rfl
@[simp] theorem advanceIdx_invCnt : (advanceIdx s).invCnt = s.invCnt := rfl
@[simp] theorem advanceIdx_ovrCnt : (advanceIdx s).ovrCnt = s.ovrCnt := rfl
@[simp] theorem advanceIdx_staleCnt : (advanceIdx s).staleCnt = s.staleCnt := rfl
@[simp] theorem advanceIdx_result : (advanceIdx s).result = s.result := rfl
@[simp] theorem advanceIdx_trace : (advanceIdx s).trace = s.trace := rfl
@[simp] theorem advanceIdx_inputs : (advanceIdx s).inputs = s.inputs := rfl
@[simp] theorem advanceIdx_epoch : (advanceIdx s).epoch = s.epoch := rfl

@[simp] theorem advanceIdx_idx : (advanceIdx s).idx = s.idx + 1 := rfl

/-! ### `setStCnt`: ST_CNT -/

@[simp] theorem setStCnt_tb (n : BitVec 20) : (setStCnt n s).tb = s.tb := rfl
@[simp] theorem setStCnt_fb (n : BitVec 20) : (setStCnt n s).fb = s.fb := rfl
@[simp] theorem setStCnt_fsel (n : BitVec 20) : (setStCnt n s).fsel = s.fsel := rfl
@[simp] theorem setStCnt_fvalid (n : BitVec 20) : (setStCnt n s).fvalid = s.fvalid := rfl
@[simp] theorem setStCnt_fresh (n : BitVec 20) : (setStCnt n s).fresh = s.fresh := rfl
@[simp] theorem setStCnt_idx (n : BitVec 20) : (setStCnt n s).idx = s.idx := rfl
@[simp] theorem setStCnt_sched (n : BitVec 20) : (setStCnt n s).sched = s.sched := rfl
@[simp] theorem setStCnt_carrier (n : BitVec 20) : (setStCnt n s).carrier = s.carrier := rfl
@[simp] theorem setStCnt_stRun (n : BitVec 20) : (setStCnt n s).stRun = s.stRun := rfl
@[simp] theorem setStCnt_btArmed (n : BitVec 20) : (setStCnt n s).btArmed = s.btArmed := rfl
@[simp] theorem setStCnt_btCnt (n : BitVec 20) : (setStCnt n s).btCnt = s.btCnt := rfl
@[simp] theorem setStCnt_pend (n : BitVec 20) : (setStCnt n s).pend = s.pend := rfl
@[simp] theorem setStCnt_late (n : BitVec 20) : (setStCnt n s).late = s.late := rfl
@[simp] theorem setStCnt_err (n : BitVec 20) : (setStCnt n s).err = s.err := rfl
@[simp] theorem setStCnt_invCnt (n : BitVec 20) : (setStCnt n s).invCnt = s.invCnt := rfl
@[simp] theorem setStCnt_ovrCnt (n : BitVec 20) : (setStCnt n s).ovrCnt = s.ovrCnt := rfl
@[simp] theorem setStCnt_staleCnt (n : BitVec 20) : (setStCnt n s).staleCnt = s.staleCnt := rfl
@[simp] theorem setStCnt_result (n : BitVec 20) : (setStCnt n s).result = s.result := rfl
@[simp] theorem setStCnt_trace (n : BitVec 20) : (setStCnt n s).trace = s.trace := rfl
@[simp] theorem setStCnt_inputs (n : BitVec 20) : (setStCnt n s).inputs = s.inputs := rfl
@[simp] theorem setStCnt_epoch (n : BitVec 20) : (setStCnt n s).epoch = s.epoch := rfl

@[simp] theorem setStCnt_stCnt (n : BitVec 20) : (setStCnt n s).stCnt = n := rfl

/-! ### `bumpBitTimer`: BT_CNT[k] -/

@[simp] theorem bumpBitTimer_tb (k : Fin 3) : (bumpBitTimer k s).tb = s.tb := rfl
@[simp] theorem bumpBitTimer_fb (k : Fin 3) : (bumpBitTimer k s).fb = s.fb := rfl
@[simp] theorem bumpBitTimer_fsel (k : Fin 3) : (bumpBitTimer k s).fsel = s.fsel := rfl
@[simp] theorem bumpBitTimer_fvalid (k : Fin 3) : (bumpBitTimer k s).fvalid = s.fvalid := rfl
@[simp] theorem bumpBitTimer_fresh (k : Fin 3) : (bumpBitTimer k s).fresh = s.fresh := rfl
@[simp] theorem bumpBitTimer_idx (k : Fin 3) : (bumpBitTimer k s).idx = s.idx := rfl
@[simp] theorem bumpBitTimer_sched (k : Fin 3) : (bumpBitTimer k s).sched = s.sched := rfl
@[simp] theorem bumpBitTimer_carrier (k : Fin 3) : (bumpBitTimer k s).carrier = s.carrier := rfl
@[simp] theorem bumpBitTimer_stRun (k : Fin 3) : (bumpBitTimer k s).stRun = s.stRun := rfl
@[simp] theorem bumpBitTimer_stCnt (k : Fin 3) : (bumpBitTimer k s).stCnt = s.stCnt := rfl
@[simp] theorem bumpBitTimer_btArmed (k : Fin 3) : (bumpBitTimer k s).btArmed = s.btArmed := rfl
@[simp] theorem bumpBitTimer_pend (k : Fin 3) : (bumpBitTimer k s).pend = s.pend := rfl
@[simp] theorem bumpBitTimer_late (k : Fin 3) : (bumpBitTimer k s).late = s.late := rfl
@[simp] theorem bumpBitTimer_err (k : Fin 3) : (bumpBitTimer k s).err = s.err := rfl
@[simp] theorem bumpBitTimer_invCnt (k : Fin 3) : (bumpBitTimer k s).invCnt = s.invCnt := rfl
@[simp] theorem bumpBitTimer_ovrCnt (k : Fin 3) : (bumpBitTimer k s).ovrCnt = s.ovrCnt := rfl
@[simp] theorem bumpBitTimer_staleCnt (k : Fin 3) : (bumpBitTimer k s).staleCnt = s.staleCnt := rfl
@[simp] theorem bumpBitTimer_result (k : Fin 3) : (bumpBitTimer k s).result = s.result := rfl
@[simp] theorem bumpBitTimer_trace (k : Fin 3) : (bumpBitTimer k s).trace = s.trace := rfl
@[simp] theorem bumpBitTimer_inputs (k : Fin 3) : (bumpBitTimer k s).inputs = s.inputs := rfl
@[simp] theorem bumpBitTimer_epoch (k : Fin 3) : (bumpBitTimer k s).epoch = s.epoch := rfl

@[simp] theorem bumpBitTimer_btCnt (k : Fin 3) : (bumpBitTimer k s).btCnt = s.btCnt.set k (s.btCnt[k] + 1) := rfl

/-! ### `disarmBitTimer`: BT_ARMED[k] -/

@[simp] theorem disarmBitTimer_tb (k : Fin 3) : (disarmBitTimer k s).tb = s.tb := rfl
@[simp] theorem disarmBitTimer_fb (k : Fin 3) : (disarmBitTimer k s).fb = s.fb := rfl
@[simp] theorem disarmBitTimer_fsel (k : Fin 3) : (disarmBitTimer k s).fsel = s.fsel := rfl
@[simp] theorem disarmBitTimer_fvalid (k : Fin 3) : (disarmBitTimer k s).fvalid = s.fvalid := rfl
@[simp] theorem disarmBitTimer_fresh (k : Fin 3) : (disarmBitTimer k s).fresh = s.fresh := rfl
@[simp] theorem disarmBitTimer_idx (k : Fin 3) : (disarmBitTimer k s).idx = s.idx := rfl
@[simp] theorem disarmBitTimer_sched (k : Fin 3) : (disarmBitTimer k s).sched = s.sched := rfl
@[simp] theorem disarmBitTimer_carrier (k : Fin 3) : (disarmBitTimer k s).carrier = s.carrier := rfl
@[simp] theorem disarmBitTimer_stRun (k : Fin 3) : (disarmBitTimer k s).stRun = s.stRun := rfl
@[simp] theorem disarmBitTimer_stCnt (k : Fin 3) : (disarmBitTimer k s).stCnt = s.stCnt := rfl
@[simp] theorem disarmBitTimer_btCnt (k : Fin 3) : (disarmBitTimer k s).btCnt = s.btCnt := rfl
@[simp] theorem disarmBitTimer_pend (k : Fin 3) : (disarmBitTimer k s).pend = s.pend := rfl
@[simp] theorem disarmBitTimer_late (k : Fin 3) : (disarmBitTimer k s).late = s.late := rfl
@[simp] theorem disarmBitTimer_err (k : Fin 3) : (disarmBitTimer k s).err = s.err := rfl
@[simp] theorem disarmBitTimer_invCnt (k : Fin 3) : (disarmBitTimer k s).invCnt = s.invCnt := rfl
@[simp] theorem disarmBitTimer_ovrCnt (k : Fin 3) : (disarmBitTimer k s).ovrCnt = s.ovrCnt := rfl
@[simp] theorem disarmBitTimer_staleCnt (k : Fin 3) : (disarmBitTimer k s).staleCnt = s.staleCnt := rfl
@[simp] theorem disarmBitTimer_result (k : Fin 3) : (disarmBitTimer k s).result = s.result := rfl
@[simp] theorem disarmBitTimer_trace (k : Fin 3) : (disarmBitTimer k s).trace = s.trace := rfl
@[simp] theorem disarmBitTimer_inputs (k : Fin 3) : (disarmBitTimer k s).inputs = s.inputs := rfl
@[simp] theorem disarmBitTimer_epoch (k : Fin 3) : (disarmBitTimer k s).epoch = s.epoch := rfl

@[simp] theorem disarmBitTimer_btArmed (k : Fin 3) : (disarmBitTimer k s).btArmed = s.btArmed.set k false := rfl

/-! ### `bitFire`: CARRIER, the trace and SCHED (43_slot_scheduler R188) -/

@[simp] theorem bitFire_tb : (bitFire s).tb = s.tb := rfl
@[simp] theorem bitFire_fb : (bitFire s).fb = s.fb := rfl
@[simp] theorem bitFire_fsel : (bitFire s).fsel = s.fsel := rfl
@[simp] theorem bitFire_fvalid : (bitFire s).fvalid = s.fvalid := rfl
@[simp] theorem bitFire_fresh : (bitFire s).fresh = s.fresh := rfl
@[simp] theorem bitFire_idx : (bitFire s).idx = s.idx := rfl
@[simp] theorem bitFire_stRun : (bitFire s).stRun = s.stRun := rfl
@[simp] theorem bitFire_stCnt : (bitFire s).stCnt = s.stCnt := rfl
@[simp] theorem bitFire_btArmed : (bitFire s).btArmed = s.btArmed := rfl
@[simp] theorem bitFire_btCnt : (bitFire s).btCnt = s.btCnt := rfl
@[simp] theorem bitFire_pend : (bitFire s).pend = s.pend := rfl
@[simp] theorem bitFire_late : (bitFire s).late = s.late := rfl
@[simp] theorem bitFire_err : (bitFire s).err = s.err := rfl
@[simp] theorem bitFire_invCnt : (bitFire s).invCnt = s.invCnt := rfl
@[simp] theorem bitFire_ovrCnt : (bitFire s).ovrCnt = s.ovrCnt := rfl
@[simp] theorem bitFire_staleCnt : (bitFire s).staleCnt = s.staleCnt := rfl
@[simp] theorem bitFire_result : (bitFire s).result = s.result := rfl
@[simp] theorem bitFire_inputs : (bitFire s).inputs = s.inputs := rfl
@[simp] theorem bitFire_epoch : (bitFire s).epoch = s.epoch := rfl

@[simp] theorem bitFire_carrier : (bitFire s).carrier = true := rfl
@[simp] theorem bitFire_sched : (bitFire s).sched = .carrierFull := rfl
@[simp] theorem bitFire_trace : (bitFire s).trace = s.trace ++ [{ event := .carrierFull, tb := s.tb }] := rfl

/-! ### `tickWith`: what TICK leaves alone (43_slot_scheduler R184) -/

@[simp] theorem tickWith_tb (v : SlotValue) : (tickWith v s).tb = s.tb := by simp [tickWith]
@[simp] theorem tickWith_fb (v : SlotValue) : (tickWith v s).fb = s.fb := by simp [tickWith]
@[simp] theorem tickWith_fsel (v : SlotValue) : (tickWith v s).fsel = s.fsel := by simp [tickWith]
@[simp] theorem tickWith_fvalid (v : SlotValue) : (tickWith v s).fvalid = s.fvalid := by simp [tickWith]
@[simp] theorem tickWith_stRun (v : SlotValue) : (tickWith v s).stRun = s.stRun := by simp [tickWith]
@[simp] theorem tickWith_stCnt (v : SlotValue) : (tickWith v s).stCnt = s.stCnt := by simp [tickWith]
@[simp] theorem tickWith_pend (v : SlotValue) : (tickWith v s).pend = s.pend := by simp [tickWith]
@[simp] theorem tickWith_late (v : SlotValue) : (tickWith v s).late = s.late := by simp [tickWith]
@[simp] theorem tickWith_result (v : SlotValue) : (tickWith v s).result = s.result := by simp [tickWith]
@[simp] theorem tickWith_inputs (v : SlotValue) : (tickWith v s).inputs = s.inputs := by simp [tickWith]
@[simp] theorem tickWith_epoch (v : SlotValue) : (tickWith v s).epoch = s.epoch := by simp [tickWith]

@[simp] theorem tickWith_carrier (v : SlotValue) : (tickWith v s).carrier = false := by simp [tickWith]
@[simp] theorem tickWith_sched (v : SlotValue) : (tickWith v s).sched = .carrierLow := by simp [tickWith]
@[simp] theorem tickWith_idx (v : SlotValue) : (tickWith v s).idx = s.idx + 1 := by simp [tickWith]
@[simp] theorem tickWith_btCnt (v : SlotValue) : (tickWith v s).btCnt = s.btCnt.set (slotCode v) 0 := by simp [tickWith]
@[simp] theorem tickWith_btArmed (v : SlotValue) : (tickWith v s).btArmed = s.btArmed.set (slotCode v) true := by simp [tickWith]

/-! ### `publish`: the frame store and its three bits (42_frame_encoder R160) -/

@[simp] theorem publish_tb (f : Frame) : (publish f s).tb = s.tb := by simp only [publish]
@[simp] theorem publish_idx (f : Frame) : (publish f s).idx = s.idx := by simp only [publish]
@[simp] theorem publish_sched (f : Frame) : (publish f s).sched = s.sched := by simp only [publish]
@[simp] theorem publish_carrier (f : Frame) : (publish f s).carrier = s.carrier := by simp only [publish]
@[simp] theorem publish_stRun (f : Frame) : (publish f s).stRun = s.stRun := by simp only [publish]
@[simp] theorem publish_stCnt (f : Frame) : (publish f s).stCnt = s.stCnt := by simp only [publish]
@[simp] theorem publish_btArmed (f : Frame) : (publish f s).btArmed = s.btArmed := by simp only [publish]
@[simp] theorem publish_btCnt (f : Frame) : (publish f s).btCnt = s.btCnt := by simp only [publish]
@[simp] theorem publish_pend (f : Frame) : (publish f s).pend = s.pend := by simp only [publish]
@[simp] theorem publish_late (f : Frame) : (publish f s).late = s.late := by simp only [publish]
@[simp] theorem publish_err (f : Frame) : (publish f s).err = s.err := by simp only [publish]
@[simp] theorem publish_invCnt (f : Frame) : (publish f s).invCnt = s.invCnt := by simp only [publish]
@[simp] theorem publish_ovrCnt (f : Frame) : (publish f s).ovrCnt = s.ovrCnt := by simp only [publish]
@[simp] theorem publish_staleCnt (f : Frame) : (publish f s).staleCnt = s.staleCnt := by simp only [publish]
@[simp] theorem publish_result (f : Frame) : (publish f s).result = s.result := by simp only [publish]
@[simp] theorem publish_trace (f : Frame) : (publish f s).trace = s.trace := by simp only [publish]
@[simp] theorem publish_inputs (f : Frame) : (publish f s).inputs = s.inputs := by simp only [publish]
@[simp] theorem publish_epoch (f : Frame) : (publish f s).epoch = s.epoch := by simp only [publish]

@[simp] theorem publish_fb (f : Frame) : (publish f s).fb = writeBank s.fb (1 - s.fsel) f := by simp only [publish]
@[simp] theorem publish_fsel (f : Frame) : (publish f s).fsel = 1 - s.fsel := by simp only [publish]
@[simp] theorem publish_fvalid (f : Frame) : (publish f s).fvalid = true := by simp only [publish]
@[simp] theorem publish_fresh (f : Frame) : (publish f s).fresh = true := by simp only [publish]

/-! ### `countTimebase`: TB (43_slot_scheduler R180 line 1) -/

@[simp] theorem countTimebase_fb : (countTimebase s).fb = s.fb := rfl
@[simp] theorem countTimebase_fsel : (countTimebase s).fsel = s.fsel := rfl
@[simp] theorem countTimebase_fvalid : (countTimebase s).fvalid = s.fvalid := rfl
@[simp] theorem countTimebase_fresh : (countTimebase s).fresh = s.fresh := rfl
@[simp] theorem countTimebase_idx : (countTimebase s).idx = s.idx := rfl
@[simp] theorem countTimebase_sched : (countTimebase s).sched = s.sched := rfl
@[simp] theorem countTimebase_carrier : (countTimebase s).carrier = s.carrier := rfl
@[simp] theorem countTimebase_stRun : (countTimebase s).stRun = s.stRun := rfl
@[simp] theorem countTimebase_stCnt : (countTimebase s).stCnt = s.stCnt := rfl
@[simp] theorem countTimebase_btArmed : (countTimebase s).btArmed = s.btArmed := rfl
@[simp] theorem countTimebase_btCnt : (countTimebase s).btCnt = s.btCnt := rfl
@[simp] theorem countTimebase_pend : (countTimebase s).pend = s.pend := rfl
@[simp] theorem countTimebase_late : (countTimebase s).late = s.late := rfl
@[simp] theorem countTimebase_err : (countTimebase s).err = s.err := rfl
@[simp] theorem countTimebase_invCnt : (countTimebase s).invCnt = s.invCnt := rfl
@[simp] theorem countTimebase_ovrCnt : (countTimebase s).ovrCnt = s.ovrCnt := rfl
@[simp] theorem countTimebase_staleCnt : (countTimebase s).staleCnt = s.staleCnt := rfl
@[simp] theorem countTimebase_result : (countTimebase s).result = s.result := rfl
@[simp] theorem countTimebase_trace : (countTimebase s).trace = s.trace := rfl
@[simp] theorem countTimebase_inputs : (countTimebase s).inputs = s.inputs := rfl
@[simp] theorem countTimebase_epoch : (countTimebase s).epoch = s.epoch := rfl

@[simp] theorem countTimebase_tb : (countTimebase s).tb = s.tb + 1 := rfl

/-! ### `countSecondTick`: ST_CNT and request 3 (43_slot_scheduler R181) -/

@[simp] theorem countSecondTick_tb : (countSecondTick s).tb = s.tb := by unfold countSecondTick; (repeat' split) <;> simp
@[simp] theorem countSecondTick_fb : (countSecondTick s).fb = s.fb := by unfold countSecondTick; (repeat' split) <;> simp
@[simp] theorem countSecondTick_fsel : (countSecondTick s).fsel = s.fsel := by unfold countSecondTick; (repeat' split) <;> simp
@[simp] theorem countSecondTick_fvalid : (countSecondTick s).fvalid = s.fvalid := by unfold countSecondTick; (repeat' split) <;> simp
@[simp] theorem countSecondTick_fresh : (countSecondTick s).fresh = s.fresh := by unfold countSecondTick; (repeat' split) <;> simp
@[simp] theorem countSecondTick_idx : (countSecondTick s).idx = s.idx := by unfold countSecondTick; (repeat' split) <;> simp
@[simp] theorem countSecondTick_sched : (countSecondTick s).sched = s.sched := by unfold countSecondTick; (repeat' split) <;> simp
@[simp] theorem countSecondTick_carrier : (countSecondTick s).carrier = s.carrier := by unfold countSecondTick; (repeat' split) <;> simp
@[simp] theorem countSecondTick_stRun : (countSecondTick s).stRun = s.stRun := by unfold countSecondTick; (repeat' split) <;> simp
@[simp] theorem countSecondTick_btArmed : (countSecondTick s).btArmed = s.btArmed := by unfold countSecondTick; (repeat' split) <;> simp
@[simp] theorem countSecondTick_btCnt : (countSecondTick s).btCnt = s.btCnt := by unfold countSecondTick; (repeat' split) <;> simp
@[simp] theorem countSecondTick_late : (countSecondTick s).late = s.late := by unfold countSecondTick; (repeat' split) <;> simp
@[simp] theorem countSecondTick_invCnt : (countSecondTick s).invCnt = s.invCnt := by unfold countSecondTick; (repeat' split) <;> simp
@[simp] theorem countSecondTick_staleCnt : (countSecondTick s).staleCnt = s.staleCnt := by unfold countSecondTick; (repeat' split) <;> simp
@[simp] theorem countSecondTick_result : (countSecondTick s).result = s.result := by unfold countSecondTick; (repeat' split) <;> simp
@[simp] theorem countSecondTick_trace : (countSecondTick s).trace = s.trace := by unfold countSecondTick; (repeat' split) <;> simp
@[simp] theorem countSecondTick_inputs : (countSecondTick s).inputs = s.inputs := by unfold countSecondTick; (repeat' split) <;> simp
@[simp] theorem countSecondTick_epoch : (countSecondTick s).epoch = s.epoch := by unfold countSecondTick; (repeat' split) <;> simp

/-! ### `countBitTimer`: one Bit Timer and its request (43_slot_scheduler R182) -/

@[simp] theorem countBitTimer_tb (k : Fin 3) : (countBitTimer k s).tb = s.tb := by unfold countBitTimer; (repeat' split) <;> simp
@[simp] theorem countBitTimer_fb (k : Fin 3) : (countBitTimer k s).fb = s.fb := by unfold countBitTimer; (repeat' split) <;> simp
@[simp] theorem countBitTimer_fsel (k : Fin 3) : (countBitTimer k s).fsel = s.fsel := by unfold countBitTimer; (repeat' split) <;> simp
@[simp] theorem countBitTimer_fvalid (k : Fin 3) : (countBitTimer k s).fvalid = s.fvalid := by unfold countBitTimer; (repeat' split) <;> simp
@[simp] theorem countBitTimer_fresh (k : Fin 3) : (countBitTimer k s).fresh = s.fresh := by unfold countBitTimer; (repeat' split) <;> simp
@[simp] theorem countBitTimer_idx (k : Fin 3) : (countBitTimer k s).idx = s.idx := by unfold countBitTimer; (repeat' split) <;> simp
@[simp] theorem countBitTimer_sched (k : Fin 3) : (countBitTimer k s).sched = s.sched := by unfold countBitTimer; (repeat' split) <;> simp
@[simp] theorem countBitTimer_carrier (k : Fin 3) : (countBitTimer k s).carrier = s.carrier := by unfold countBitTimer; (repeat' split) <;> simp
@[simp] theorem countBitTimer_stRun (k : Fin 3) : (countBitTimer k s).stRun = s.stRun := by unfold countBitTimer; (repeat' split) <;> simp
@[simp] theorem countBitTimer_stCnt (k : Fin 3) : (countBitTimer k s).stCnt = s.stCnt := by unfold countBitTimer; (repeat' split) <;> simp
@[simp] theorem countBitTimer_late (k : Fin 3) : (countBitTimer k s).late = s.late := by unfold countBitTimer; (repeat' split) <;> simp
@[simp] theorem countBitTimer_invCnt (k : Fin 3) : (countBitTimer k s).invCnt = s.invCnt := by unfold countBitTimer; (repeat' split) <;> simp
@[simp] theorem countBitTimer_staleCnt (k : Fin 3) : (countBitTimer k s).staleCnt = s.staleCnt := by unfold countBitTimer; (repeat' split) <;> simp
@[simp] theorem countBitTimer_result (k : Fin 3) : (countBitTimer k s).result = s.result := by unfold countBitTimer; (repeat' split) <;> simp
@[simp] theorem countBitTimer_trace (k : Fin 3) : (countBitTimer k s).trace = s.trace := by unfold countBitTimer; (repeat' split) <;> simp
@[simp] theorem countBitTimer_inputs (k : Fin 3) : (countBitTimer k s).inputs = s.inputs := by unfold countBitTimer; (repeat' split) <;> simp
@[simp] theorem countBitTimer_epoch (k : Fin 3) : (countBitTimer k s).epoch = s.epoch := by unfold countBitTimer; (repeat' split) <;> simp

/-! ### `countBitTimers`: the three Bit Timers and their requests -/

@[simp] theorem countBitTimers_tb : (countBitTimers s).tb = s.tb := by simp [countBitTimers]
@[simp] theorem countBitTimers_fb : (countBitTimers s).fb = s.fb := by simp [countBitTimers]
@[simp] theorem countBitTimers_fsel : (countBitTimers s).fsel = s.fsel := by simp [countBitTimers]
@[simp] theorem countBitTimers_fvalid : (countBitTimers s).fvalid = s.fvalid := by simp [countBitTimers]
@[simp] theorem countBitTimers_fresh : (countBitTimers s).fresh = s.fresh := by simp [countBitTimers]
@[simp] theorem countBitTimers_idx : (countBitTimers s).idx = s.idx := by simp [countBitTimers]
@[simp] theorem countBitTimers_sched : (countBitTimers s).sched = s.sched := by simp [countBitTimers]
@[simp] theorem countBitTimers_carrier : (countBitTimers s).carrier = s.carrier := by simp [countBitTimers]
@[simp] theorem countBitTimers_stRun : (countBitTimers s).stRun = s.stRun := by simp [countBitTimers]
@[simp] theorem countBitTimers_stCnt : (countBitTimers s).stCnt = s.stCnt := by simp [countBitTimers]
@[simp] theorem countBitTimers_late : (countBitTimers s).late = s.late := by simp [countBitTimers]
@[simp] theorem countBitTimers_invCnt : (countBitTimers s).invCnt = s.invCnt := by simp [countBitTimers]
@[simp] theorem countBitTimers_staleCnt : (countBitTimers s).staleCnt = s.staleCnt := by simp [countBitTimers]
@[simp] theorem countBitTimers_result : (countBitTimers s).result = s.result := by simp [countBitTimers]
@[simp] theorem countBitTimers_trace : (countBitTimers s).trace = s.trace := by simp [countBitTimers]
@[simp] theorem countBitTimers_inputs : (countBitTimers s).inputs = s.inputs := by simp [countBitTimers]
@[simp] theorem countBitTimers_epoch : (countBitTimers s).epoch = s.epoch := by simp [countBitTimers]

/-! ### `countPhases`: phases 1 to 3 (43_slot_scheduler R180) -/

@[simp] theorem countPhases_fb : (countPhases s).fb = s.fb := by simp [countPhases]
@[simp] theorem countPhases_fsel : (countPhases s).fsel = s.fsel := by simp [countPhases]
@[simp] theorem countPhases_fvalid : (countPhases s).fvalid = s.fvalid := by simp [countPhases]
@[simp] theorem countPhases_fresh : (countPhases s).fresh = s.fresh := by simp [countPhases]
@[simp] theorem countPhases_idx : (countPhases s).idx = s.idx := by simp [countPhases]
@[simp] theorem countPhases_sched : (countPhases s).sched = s.sched := by simp [countPhases]
@[simp] theorem countPhases_carrier : (countPhases s).carrier = s.carrier := by simp [countPhases]
@[simp] theorem countPhases_stRun : (countPhases s).stRun = s.stRun := by simp [countPhases]
@[simp] theorem countPhases_late : (countPhases s).late = s.late := by simp [countPhases]
@[simp] theorem countPhases_invCnt : (countPhases s).invCnt = s.invCnt := by simp [countPhases]
@[simp] theorem countPhases_staleCnt : (countPhases s).staleCnt = s.staleCnt := by simp [countPhases]
@[simp] theorem countPhases_result : (countPhases s).result = s.result := by simp [countPhases]
@[simp] theorem countPhases_trace : (countPhases s).trace = s.trace := by simp [countPhases]
@[simp] theorem countPhases_inputs : (countPhases s).inputs = s.inputs := by simp [countPhases]
@[simp] theorem countPhases_epoch : (countPhases s).epoch = s.epoch := by simp [countPhases]

@[simp] theorem countPhases_tb : (countPhases s).tb = s.tb + 1 := by simp [countPhases]

/-! ### `dropInput`: the environment's list -/

@[simp] theorem dropInput_tb : (dropInput s).tb = s.tb := rfl
@[simp] theorem dropInput_fb : (dropInput s).fb = s.fb := rfl
@[simp] theorem dropInput_fsel : (dropInput s).fsel = s.fsel := rfl
@[simp] theorem dropInput_fvalid : (dropInput s).fvalid = s.fvalid := rfl
@[simp] theorem dropInput_fresh : (dropInput s).fresh = s.fresh := rfl
@[simp] theorem dropInput_idx : (dropInput s).idx = s.idx := rfl
@[simp] theorem dropInput_sched : (dropInput s).sched = s.sched := rfl
@[simp] theorem dropInput_carrier : (dropInput s).carrier = s.carrier := rfl
@[simp] theorem dropInput_stRun : (dropInput s).stRun = s.stRun := rfl
@[simp] theorem dropInput_stCnt : (dropInput s).stCnt = s.stCnt := rfl
@[simp] theorem dropInput_btArmed : (dropInput s).btArmed = s.btArmed := rfl
@[simp] theorem dropInput_btCnt : (dropInput s).btCnt = s.btCnt := rfl
@[simp] theorem dropInput_pend : (dropInput s).pend = s.pend := rfl
@[simp] theorem dropInput_late : (dropInput s).late = s.late := rfl
@[simp] theorem dropInput_err : (dropInput s).err = s.err := rfl
@[simp] theorem dropInput_invCnt : (dropInput s).invCnt = s.invCnt := rfl
@[simp] theorem dropInput_ovrCnt : (dropInput s).ovrCnt = s.ovrCnt := rfl
@[simp] theorem dropInput_staleCnt : (dropInput s).staleCnt = s.staleCnt := rfl
@[simp] theorem dropInput_result : (dropInput s).result = s.result := rfl
@[simp] theorem dropInput_trace : (dropInput s).trace = s.trace := rfl
@[simp] theorem dropInput_epoch : (dropInput s).epoch = s.epoch := rfl

@[simp] theorem dropInput_inputs : (dropInput s).inputs = s.inputs.tail := rfl

end Sys2Proof.Machine
end

