-- ==== Sys2Proof/Laws/Memory.lean ====
section
/-! SUPPORT. The frame store: read after write, the canonical form, and what a whole-bank write does. -/

namespace Sys2Proof.Machine

/-! ### One location -/

@[simp] theorem Memory.read_nil (a : Nat) : Memory.read [] a = none := rfl

/-- Reading the location just written gives the value written. -/
@[simp] theorem Memory.read_write_self (m : Memory) (a : Nat) (v : SlotValue) :
    Memory.read (Memory.write m a v) a = some v := by
  induction m with
  | nil => simp [Memory.write, Memory.read]
  | cons e rest ih =>
    simp only [Memory.write]
    split
    · simp [Memory.read]
    · split
      · simp [Memory.read]
      · simp [Memory.read, *]

/-- A write leaves every other location alone. -/
theorem Memory.read_write_of_ne (m : Memory) {a b : Nat} (v : SlotValue) (h : b ≠ a) :
    Memory.read (Memory.write m a v) b = Memory.read m b := by
  induction m with
  | nil => simp [Memory.write, Memory.read, h]
  | cons e rest ih =>
    simp only [Memory.write]
    split
    · simp [Memory.read, h]
    · split
      · subst_vars; simp [Memory.read, h]
      · simp [Memory.read, ih]

/-! ### The canonical form -/

theorem Memory.risesFrom_mono {m : Memory} {lo lo' : Nat} (h : Memory.risesFrom m lo = true) (hl : lo' ≤ lo) :
    Memory.risesFrom m lo' = true := by
  cases m with
  | nil => rfl
  | cons e rest =>
    simp only [Memory.risesFrom, Bool.and_eq_true, decide_eq_true_eq] at h ⊢
    exact ⟨Nat.le_trans hl h.1, h.2⟩

/-- A write keeps the addresses strictly rising. -/
theorem Memory.risesFrom_write {m : Memory} {lo a : Nat} (v : SlotValue) (h : Memory.risesFrom m lo = true)
    (ha : lo ≤ a) : Memory.risesFrom (Memory.write m a v) lo = true := by
  induction m generalizing lo with
  | nil => simp [Memory.write, Memory.risesFrom, ha]
  | cons e rest ih =>
    simp only [Memory.risesFrom, Bool.and_eq_true, decide_eq_true_eq] at h
    simp only [Memory.write]
    split
    · simp only [Memory.risesFrom, Bool.and_eq_true, decide_eq_true_eq]
      exact ⟨ha, by omega, h.2⟩
    · split
      · subst_vars
        simp only [Memory.risesFrom, Bool.and_eq_true, decide_eq_true_eq]
        exact h
      · simp only [Memory.risesFrom, Bool.and_eq_true, decide_eq_true_eq]
        exact ⟨h.1, ih h.2 (by omega)⟩

theorem Memory.all_write {m : Memory} {p : Nat × SlotValue → Bool} {a : Nat} {v : SlotValue} (h : m.all p = true)
    (ha : p (a, v) = true) : (Memory.write m a v).all p = true := by
  induction m with
  | nil => simp [Memory.write, ha]
  | cons e rest ih =>
    simp only [List.all_cons, Bool.and_eq_true] at h
    simp only [Memory.write]
    split
    · simp [ha, h.1, h.2]
    · split
      · simp [ha, h.2]
      · simp [h.1, ih h.2]

/-- A write inside the address space keeps the canonical form. -/
theorem Memory.wf_write {m : Memory} {a : Nat} (v : SlotValue) (h : Memory.wf m = true) (ha : a < 120) :
    Memory.wf (Memory.write m a v) = true := by
  simp only [Memory.wf, Bool.and_eq_true] at h ⊢
  exact ⟨Memory.risesFrom_write v h.1 (Nat.zero_le a), Memory.all_write h.2 (by simpa using ha)⟩

theorem Memory.read_eq_none_of_risesFrom {m : Memory} {lo a : Nat} (h : Memory.risesFrom m lo = true) (ha : a < lo) :
    Memory.read m a = none := by
  induction m generalizing lo with
  | nil => rfl
  | cons e rest ih =>
    simp only [Memory.risesFrom, Bool.and_eq_true, decide_eq_true_eq] at h
    simp only [Memory.read]
    rw [if_neg (by omega)]
    exact ih h.2 (by omega)

theorem Memory.eq_of_read_eq_of_rises {m n : Memory} {lo : Nat} (hm : Memory.risesFrom m lo = true)
    (hn : Memory.risesFrom n lo = true) (h : ∀ a, Memory.read m a = Memory.read n a) : m = n := by
  induction m generalizing n lo with
  | nil =>
    cases n with
    | nil => rfl
    | cons e rest => have := h e.1; simp [Memory.read] at this
  | cons e rest ih =>
    cases n with
    | nil => have := h e.1; simp [Memory.read] at this
    | cons f rest' =>
      obtain ⟨k, v⟩ := e
      obtain ⟨l, w⟩ := f
      simp only [Memory.risesFrom, Bool.and_eq_true, decide_eq_true_eq] at hm hn
      have hk := h k
      have hl := h l
      have nk : ∀ {x}, x < k + 1 → Memory.read rest x = none := Memory.read_eq_none_of_risesFrom hm.2
      have nl : ∀ {x}, x < l + 1 → Memory.read rest' x = none := Memory.read_eq_none_of_risesFrom hn.2
      simp only [Memory.read] at hk hl
      have hkl : k = l := by
        rcases Nat.lt_trichotomy k l with hlt | heq | hgt
        · rw [if_neg (show ¬ k = l by omega), nl (by omega)] at hk; simp at hk
        · exact heq
        · rw [if_neg (show ¬ l = k by omega), nk (by omega)] at hl; simp at hl
      subst hkl
      have hvw : v = w := by simpa using hk
      subst hvw
      have hr : ∀ a, Memory.read rest a = Memory.read rest' a := by
        intro a
        by_cases hak : a = k
        · subst hak; rw [nk (by omega), nl (by omega)]
        · have := h a; simpa [Memory.read, hak] using this
      rw [ih hm.2 hn.2 hr]

/-- Memories that read the same are the same data. -/
theorem Memory.eq_of_read_eq {m n : Memory} (hm : Memory.wf m = true) (hn : Memory.wf n = true)
    (h : ∀ a, Memory.read m a = Memory.read n a) : m = n := by
  simp only [Memory.wf, Bool.and_eq_true] at hm hn
  exact Memory.eq_of_read_eq_of_rises hm.1 hn.1 h

/-- The frame store after reset has the canonical form (10_state R46). -/
theorem wf_reset : Memory.wf State.reset.fb = true := rfl

/-! ### Slots and banks -/

/-- Two slots have one address only if they are one slot (20_memory R60). -/
theorem slotAddress_inj {b c : Bank} {i j : SlotIndex} (h : slotAddress b i = slotAddress c j) : b = c ∧ i = j := by
  simp only [slotAddress] at h
  constructor <;> ext <;> omega

/-- Every slot is one of the 120 locations (20_memory R60). -/
theorem slotAddress_lt (b : Bank) (i : SlotIndex) : slotAddress b i < 120 := by simp only [slotAddress]; omega

@[simp] theorem slotWrite_self (m : Memory) (b : Bank) (i : SlotIndex) (v : SlotValue) :
    Memory.read (slotWrite m b i v) (slotAddress b i) = some v := Memory.read_write_self ..

theorem slotWrite_of_ne (m : Memory) {b : Bank} {i : SlotIndex} (v : SlotValue) {a : Nat} (h : a ≠ slotAddress b i) :
    Memory.read (slotWrite m b i v) a = Memory.read m a := Memory.read_write_of_ne m v h

theorem wf_slotWrite {m : Memory} (b : Bank) (i : SlotIndex) (v : SlotValue) (h : Memory.wf m = true) :
    Memory.wf (slotWrite m b i v) = true := Memory.wf_write v h (slotAddress_lt b i)

theorem wf_writeSlots {m : Memory} (b : Bank) (f : Frame) (n : Nat) (h : Memory.wf m = true) :
    Memory.wf (writeSlots m b f n) = true := by
  induction n with
  | zero => exact h
  | succ n ih => exact wf_slotWrite b _ _ ih

/-- Writing a bank keeps the canonical form. -/
theorem wf_writeBank {m : Memory} (b : Bank) (f : Frame) (h : Memory.wf m = true) :
    Memory.wf (writeBank m b f) = true := wf_writeSlots b f 60 h

theorem read_writeSlots_of_lt (m : Memory) (b : Bank) (f : Frame) {n : Nat} (hn : n ≤ 60) (i : SlotIndex)
    (hi : i.val < n) : Memory.read (writeSlots m b f n) (slotAddress b i) = some (f i) := by
  induction n with
  | zero => omega
  | succ n ih =>
    have hval : (Fin.ofNat 60 n).val = n := by simp [Fin.ofNat]; omega
    by_cases h : i.val = n
    · have hi' : Fin.ofNat 60 n = i := Fin.ext (by omega)
      simp only [writeSlots, hi', slotWrite_self]
    · have hne : slotAddress b i ≠ slotAddress b (Fin.ofNat 60 n) := fun he => by
        have := (slotAddress_inj he).2
        subst this
        omega
      rw [writeSlots, slotWrite_of_ne _ _ hne]
      exact ih (by omega) (by omega)

theorem read_writeSlots_of_ne (m : Memory) (b : Bank) (f : Frame) (n : Nat) {a : Nat}
    (h : ∀ i : SlotIndex, a ≠ slotAddress b i) : Memory.read (writeSlots m b f n) a = Memory.read m a := by
  induction n with
  | zero => rfl
  | succ n ih => rw [writeSlots, slotWrite_of_ne _ _ (h _), ih]

/-- After a bank is written, each of its slots reads as the frame (42_frame_encoder R160 line 4). -/
@[simp] theorem read_writeBank_self (m : Memory) (b : Bank) (f : Frame) (i : SlotIndex) :
    Memory.read (writeBank m b f) (slotAddress b i) = some (f i) :=
  read_writeSlots_of_lt m b f (Nat.le_refl 60) i i.isLt

/-- Writing a bank leaves the other bank alone (20_memory R65). -/
theorem read_writeBank_other (m : Memory) {b c : Bank} (f : Frame) (i : SlotIndex) (h : c ≠ b) :
    Memory.read (writeBank m b f) (slotAddress c i) = Memory.read m (slotAddress c i) :=
  read_writeSlots_of_ne m b f 60 fun _ he => h (slotAddress_inj he).1

/-- The other bank is another bank. -/
theorem backBank_ne (b : Bank) : 1 - b ≠ b := by revert b; decide

@[simp] theorem backBank_backBank (b : Bank) : 1 - (1 - b) = b := by revert b; decide

/-! ### The slots of a state -/

/-- The slots of a state depend on its frame store only. -/
theorem slot?_of_fb_eq {s t : State} (h : t.fb = s.fb) (b : Bank) (i : SlotIndex) : t.slot? b i = s.slot? b i := by
  simp only [State.slot?, h]

/-- What a slot reads as depends on the frame store and the number of resets only. -/
theorem slotRead_of_fb_eq {s t : State} (h : t.fb = s.fb) (he : t.epoch = s.epoch) (b : Bank) (i : SlotIndex) :
    t.slotRead b i = s.slotRead b i := by
  simp only [State.slotRead, slot?_of_fb_eq h, he]

/-- A slot that holds a value reads as it. -/
theorem slotRead_of_slot? {s : State} {b : Bank} {i : SlotIndex} {v : SlotValue} (h : s.slot? b i = some v) :
    s.slotRead b i = v := by
  simp only [State.slotRead, h, Option.getD_some]

/-- After a publish the back bank of before holds the frame. -/
@[simp] theorem publish_slot?_back (f : Frame) (s : State) (i : SlotIndex) :
    (publish f s).slot? (1 - s.fsel) i = some (f i) := by
  simp only [State.slot?, publish_fb, read_writeBank_self]

/-- A publish leaves the front bank of before alone. -/
theorem publish_slot?_front (f : Frame) (s : State) (i : SlotIndex) :
    (publish f s).slot? s.fsel i = s.slot? s.fsel i := by
  simp only [State.slot?, publish_fb]
  exact read_writeBank_other _ f i fun h => backBank_ne s.fsel h.symm

end Sys2Proof.Machine
end

