-- ==== Sys2Proof/Laws/Ops.lean ====
section
/-! SUPPORT. What each shared operation can do, said once: requests as bits, saturating counters, errors, `Fire`, late
marks, the timers. -/

namespace Sys2Proof.Machine

variable (s : State)

/-! ### Saturating counters -/

/-- `sat_32(X + 1)` as a natural (00_scope R9). -/
theorem satSucc_toNat (x : BitVec 32) : (satSucc x).toNat = min (2 ^ 32 - 1) (x.toNat + 1) := by
  have hx := x.isLt
  unfold satSucc
  split
  · subst_vars; simp
  · have hne : x.toNat ≠ 2 ^ 32 - 1 := fun h => by
      rename_i hx'
      exact hx' (BitVec.eq_of_toNat_eq (by simpa using h))
    have h1 : (1 : BitVec 32).toNat = 1 := rfl
    rw [BitVec.toNat_add, h1]
    omega

/-- `sat_32(X + 1)` written with `min`. -/
theorem satSucc_eq_ofNat (x : BitVec 32) : satSucc x = BitVec.ofNat 32 (min (2 ^ 32 - 1) (x.toNat + 1)) := by
  apply BitVec.eq_of_toNat_eq
  rw [satSucc_toNat, BitVec.toNat_ofNat]
  omega

theorem le_satSucc (x : BitVec 32) : x.toNat ≤ (satSucc x).toNat := by
  have := x.isLt; rw [satSucc_toNat]; omega

theorem satSucc_pos (x : BitVec 32) : 0 < (satSucc x).toNat := by rw [satSucc_toNat]; omega

/-! ### Error flags -/

/-- Setting a flag clears none (10_state R34). -/
theorem err_sub_or (e f : BitVec 5) : e &&& (e ||| f) = e := by
  ext i hi; simp; intro h; exact Or.inl h

theorem err_sub_trans {a b c : BitVec 5} (hab : a &&& b = a) (hbc : b &&& c = b) : a &&& c = a := by
  calc a &&& c = a &&& b &&& c := by rw [hab]
    _ = a &&& (b &&& c) := BitVec.and_assoc ..
    _ = a := by rw [hbc, hab]

/-! ### Request bits -/

@[simp] theorem pending_of_pend {s t : State} (h : t.pend = s.pend) (i : Fin 4) : pending t i = pending s i := by
  simp only [pending, h]

theorem getLsbD_requestBit (i j : Fin 4) : (requestBit i).getLsbD j.val = decide (i = j) := by
  revert i j; decide

@[simp] theorem getElem_requestBit (i j : Fin 4) : (requestBit i)[j.val] = decide (i = j) := by
  revert i j; decide

/-- A request bit is the bit shifted into place. -/
theorem requestBit_eq_shift (i : Fin 4) : requestBit i = 1#4 <<< i.val := by revert i; decide

/-- The decoder reads the isolated request as the operation the arbiter runs (30_encoding R86). -/
theorem decodeRequest_requestBit (i : Fin 4) : decodeRequest (requestBit i) = .ok (serviceOf i) := by
  revert i; decide

/-- Taking a request clears it and no other. -/
theorem pending_acknowledge (i j : Fin 4) : pending (acknowledge i s) j = (pending s j && decide (i ≠ j)) := by
  simp [pending]

/-- Taking a request clears its late mark and no other. -/
theorem isLate_acknowledge (i j : Fin 4) : isLate (acknowledge i s) j = (isLate s j && decide (i ≠ j)) := by
  simp [isLate]

/-- Request vectors with the same bits are the same. -/
theorem requests_ext {x y : BitVec 4} (h : ∀ i : Fin 4, x.getLsbD i.val = y.getLsbD i.val) : x = y := by
  apply BitVec.eq_of_getLsbD_eq
  intro i hi
  exact h ⟨i, hi⟩

/-! ### `Fire` -/

/-- `Fire(i)` leaves request `i` pending, whichever branch it takes (43_slot_scheduler R182). -/
theorem pending_fire (i j : Fin 4) : pending (fire i s) j = (pending s j || decide (i = j)) := by
  unfold fire
  split
  · rename_i h
    by_cases hij : i = j
    · subst hij; simp [pending] at h ⊢; exact h
    · simp [pending, hij]
  · simp [pending]

theorem fire_of_not_pending {i : Fin 4} (h : pending s i = false) :
    fire i s = { s with pend := s.pend ||| requestBit i } := by simp [fire, h]

theorem fire_of_pending {i : Fin 4} (h : pending s i = true) : fire i s = raise .timingOverrun s := by simp [fire, h]

/-! ### Late marks -/

theorem markLate_of_new {i : Fin 4} (hp : pending s i = true) (hl : isLate s i = false) :
    markLate i s = raise .timingOverrun { s with late := s.late ||| requestBit i } := by simp [markLate, hp, hl]

theorem markLate_of_old {i : Fin 4} (h : pending s i = false ∨ isLate s i = true) : markLate i s = s := by
  rcases h with h | h <;> simp [markLate, h]

/-- After marking, request `i` is late if it is pending; no other mark changes. -/
theorem isLate_markLate (i j : Fin 4) :
    isLate (markLate i s) j = (isLate s j || (pending s i && decide (i = j))) := by
  unfold markLate
  split
  · rename_i h
    simp only [Bool.and_eq_true, Bool.not_eq_true'] at h
    simp [isLate, h.1]
  · rename_i h
    by_cases hij : i = j
    · subst hij
      cases hp : pending s i <;> cases hl : isLate s i <;> simp_all
    · simp [hij]

/-! ### Timers -/

@[simp] theorem btAlarm_zero : (btAlarm 0).toNat = 200000 := rfl
@[simp] theorem btAlarm_one : (btAlarm 1).toNat = 500000 := rfl
@[simp] theorem btAlarm_two : (btAlarm 2).toNat = 800000 := rfl

/-- The alarm of the timer of a symbol is its low-power duration (43_slot_scheduler R176). -/
theorem btAlarm_slotCode (v : SlotValue) : (btAlarm (slotCode v)).toNat = tLow v := by cases v <;> rfl

theorem btAlarm_le (k : Fin 3) : (btAlarm k).toNat ≤ 800000 := by revert k; decide

theorem btAlarm_pos (k : Fin 3) : 200000 ≤ (btAlarm k).toNat := by revert k; decide

theorem countSecondTick_idle (h : s.stRun = false) : countSecondTick s = s := by simp [countSecondTick, h]

theorem countSecondTick_count (h : s.stRun = true) (hn : s.stCnt + 1 ≠ stPeriod) :
    countSecondTick s = setStCnt (s.stCnt + 1) s := by
  simp only [countSecondTick, h, hn, if_true, if_false]

theorem countSecondTick_fire (h : s.stRun = true) (hn : s.stCnt + 1 = stPeriod) :
    countSecondTick s = fire 3 (setStCnt 0 s) := by
  simp only [countSecondTick, h, hn, if_true]

theorem countBitTimer_idle {k : Fin 3} (h : s.btArmed[k] = false) : countBitTimer k s = s := by
  simp only [countBitTimer, h, Bool.false_eq_true, if_false]

theorem countBitTimer_count {k : Fin 3} (h : s.btArmed[k] = true) (hn : s.btCnt[k] + 1 ≠ btAlarm k) :
    countBitTimer k s = bumpBitTimer k s := by
  simp only [countBitTimer, h, hn, if_true, if_false]

theorem countBitTimer_fire {k : Fin 3} (h : s.btArmed[k] = true) (hn : s.btCnt[k] + 1 = btAlarm k) :
    countBitTimer k s = fire k.castSucc (disarmBitTimer k (bumpBitTimer k s)) := by
  simp only [countBitTimer, h, hn, if_true]

end Sys2Proof.Machine
end

