-- ==== Sys2Proof/Laws/Step.lean ====
section
/-! SUPPORT. Each operation, each service and each step as a plain function of the state: no meaning stops, so a proof
can work with these functions and never with outcomes. -/

namespace Sys2Proof.Machine

/-- The handler of request `i` as a function. -/
def handler (i : Fin 4) (s : State) : State :=
  match i with
  | 0 => bitFire s
  | 1 => bitFire s
  | 2 => bitFire s
  | 3 => tickWith (s.slotRead s.fsel s.idx) s

/-- One request of phase 4 as a function. -/
def serve (i : Fin 4) (s : State) : State := if pending s i then handler i (acknowledge i s) else s

/-- Phase 4 with `hold = 0` as a function. -/
def serveAll (s : State) : State := serve 3 (serve 2 (serve 1 (serve 0 s)))

/-- A microsecond as a function. -/
def usec (hold : Bool) (s : State) : State := if hold then holdAll (countPhases s) else serveAll (countPhases s)

theorem exec_serviceOf (i : Fin 4) (s : State) : exec (serviceOf i) s = .next (handler i s) := by
  fin_cases i <;> rfl

theorem serviceRequest_eq (i : Fin 4) (s : State) : serviceRequest i s = .next (serve i s) := by
  unfold serviceRequest serve
  split
  · exact exec_serviceOf i _
  · rfl

@[simp] theorem andThen_next (s : State) (f : State → Result) : andThen (.next s) f = f s := rfl

theorem serviceAll_eq (s : State) : serviceAll s = .next (serveAll s) := by
  simp only [serviceAll, serviceRequest_eq, andThen_next, serveAll]

theorem usecStep_eq (hold : Bool) (s : State) : usecStep hold s = .next (usec hold s) := by
  cases hold
  · exact serviceAll_eq _
  · rfl

theorem serve_of_not_pending {i : Fin 4} {s : State} (h : pending s i = false) : serve i s = s := by
  simp [serve, h]

theorem serve_of_pending {i : Fin 4} {s : State} (h : pending s i = true) :
    serve i s = handler i (acknowledge i s) := by simp [serve, h]

/-- The default parameters give exec's meanings. -/
@[simp] theorem execWith_default (i : Instr) (s : State) : execWith defaultParams i s = exec i s := by cases i <;> rfl

/-- One inversion for a command word: it is illegal, or it runs the operation it decodes to. -/
theorem commandStepWith_cases (c : Params) (w : CommandWord) (s : State) :
    (∃ e, decodeCmd w = .error e ∧ commandStepWith c w s = .next (raise .illegalCommand s)) ∨
    (∃ i, decodeCmd w = .ok i ∧ commandStepWith c w s = execWith c i s) := by
  unfold commandStepWith
  cases h : decodeCmd w with
  | error e => exact .inl ⟨e, rfl, rfl⟩
  | ok i => exact .inr ⟨i, rfl, rfl⟩

/-- What an operation of the command port can do to the state: every outcome of the seven commands. -/
inductive CommandEffect (c : Params) (s : State) : State → Prop where
  | same : CommandEffect c s s
  | illegal : CommandEffect c s (raise .illegalCommand s)
  | noFrame : s.fvalid = false → CommandEffect c s (raise .startNoFrame s)
  | invalid : CommandEffect c s (raise .invalidTimeSample s)
  | armed : s.fvalid = true → s.stRun = false → CommandEffect c s (armSecondTick s)
  | answered (r : BitVec 32) : CommandEffect c s (answer r s)
  | published (t : ValidSample) : CommandEffect c s (publish (encodeFrame c t) s)

/-- The operations a command word can decode to. -/
def isCommand : Instr → Bool
  | .nop | .encode _ | .start | .pack _ | .leap _ | .dstwin _ | .isdst _ _ => true
  | .bitfire0 | .bitfire1 | .bitfire2 | .tick | .setCarrierLow | .setCarrierFull => false

theorem decodeCmd_isCommand {w : CommandWord} {i : Instr} (h : decodeCmd w = .ok i) : isCommand i = true := by
  unfold decodeCmd decodeOpcode at h
  repeat' split at h
  all_goals first | (cases h; rfl) | cases h

/-- Each command answers one of those effects. -/
theorem execWith_command (c : Params) {i : Instr} (hi : isCommand i = true) (s : State) :
    ∃ t, execWith c i s = .next t ∧ CommandEffect c s t := by
  cases i with
  | nop => exact ⟨s, rfl, .same⟩
  | encode t =>
    by_cases h : sampleOk t = true
    · exact ⟨_, by simp only [execWith, execEncodeWith, h, dite_true], .published ⟨t, h⟩⟩
    · exact ⟨_, by simp only [execWith, execEncodeWith, h]; rfl, .invalid⟩
  | start =>
    cases hf : s.fvalid with
    | false => exact ⟨_, by simp only [execWith, exec, execStart, hf, if_true], .noFrame hf⟩
    | true =>
      cases hr : s.stRun with
      | true => exact ⟨s, by simp [execWith, exec, execStart, hf, hr], .same⟩
      | false => exact ⟨_, by simp [execWith, exec, execStart, hf, hr], .armed hf hr⟩
  | pack n =>
    by_cases h : n < 1000
    · exact ⟨_, by simp only [execWith, exec, execPack, h, dite_true]; rfl, .answered _⟩
    · exact ⟨_, by simp only [execWith, exec, execPack, h, dite_false], .illegal⟩
  | leap y =>
    cases h : yearOk y with
    | true => exact ⟨_, by simp only [execWith, exec, execLeap, h, if_true]; rfl, .answered _⟩
    | false => exact ⟨_, by simp only [execWith, exec, execLeap, h]; rfl, .illegal⟩
  | dstwin y =>
    cases h : yearOk y with
    | true => exact ⟨_, by simp only [execWith, execDstwinWith, h, if_true]; rfl, .answered _⟩
    | false => exact ⟨_, by simp only [execWith, execDstwinWith, h]; rfl, .illegal⟩
  | isdst y d =>
    cases h : yearOk y && dayOk d with
    | true => exact ⟨_, by simp only [execWith, execIsdstWith, h, if_true]; rfl, .answered _⟩
    | false => exact ⟨_, by simp only [execWith, execIsdstWith, h]; rfl, .illegal⟩
  | bitfire0 => cases hi
  | bitfire1 => cases hi
  | bitfire2 => cases hi
  | tick => cases hi
  | setCarrierLow => cases hi
  | setCarrierFull => cases hi

/-- What a `Cmd` step can do (44_command_port R220). -/
theorem commandStepWith_effect (c : Params) (w : CommandWord) (s : State) :
    ∃ t, commandStepWith c w s = .next t ∧ CommandEffect c s t := by
  rcases commandStepWith_cases c w s with ⟨_, _, h⟩ | ⟨i, hd, h⟩
  · exact ⟨_, h, .illegal⟩
  · rw [h]; exact execWith_command c (decodeCmd_isCommand hd) s

/-- One inversion for the step: what it answers, by what the environment does next (00_scope R7). -/
theorem stepWith_cases (c : Params) (s : State) :
    (nextInput s = .reset ∧ stepWith c s = .next (resetStep (dropInput s))) ∨
    (∃ w t, nextInput s = .cmd w ∧ stepWith c s = .next t ∧ CommandEffect c (dropInput s) t) ∨
    (∃ hold, nextInput s = .usec hold ∧ stepWith c s = .next (usec hold (dropInput s))) := by
  unfold stepWith
  cases h : nextInput s with
  | reset => exact .inl ⟨rfl, rfl⟩
  | cmd w =>
    obtain ⟨t, ht, he⟩ := commandStepWith_effect c w (dropInput s)
    exact .inr (.inl ⟨w, t, rfl, ht, he⟩)
  | usec hold => exact .inr (.inr ⟨hold, rfl, usecStep_eq hold _⟩)

/-- Every step answers a next state. -/
theorem stepWith_next (c : Params) (s : State) : ∃ t, stepWith c s = .next t := by
  obtain ⟨-, h⟩ | ⟨_, _, -, h, -⟩ | ⟨_, -, h⟩ := stepWith_cases c s <;> exact ⟨_, h⟩

end Sys2Proof.Machine
end

