-- ==== Sys2Proof/Laws/Usec.lean ====
section
/-! SUPPORT. What the services and the phases of a microsecond do, register by register: lines of TICK, the handlers,
phase 4, the counting phases, and the microsecond as a whole. -/

namespace Sys2Proof.Machine

/-! ### Lines 2 and 5 of TICK -/

/-- Line 2 of TICK as one record update (43_slot_scheduler R184). -/
theorem consumeFresh_eq (s : State) : consumeFresh s = { s with
    fresh := if s.idx = 0 then false else s.fresh
    staleCnt := if s.idx = 0 ∧ s.fresh = false then satSucc s.staleCnt else s.staleCnt
    err := s.err ||| (if s.idx = 0 ∧ s.fresh = false then 0b00100#5 else 0#5) } := by
  unfold consumeFresh
  by_cases h : s.idx = 0
  · cases hf : s.fresh <;> simp [h, raiseIf, raise, errBit, hf]
  · simp [h]

/-- Line 5 of TICK as one record update (43_slot_scheduler R184, R185). -/
theorem countOverlap_eq (s : State) : countOverlap s = { s with
    ovrCnt := if s.btArmed[0] = true ∨ s.btArmed[1] = true ∨ s.btArmed[2] = true then satSucc s.ovrCnt else s.ovrCnt
    err := s.err |||
      (if s.btArmed[0] = true ∨ s.btArmed[1] = true ∨ s.btArmed[2] = true then 0b00010#5 else 0#5) } := by
  unfold countOverlap
  by_cases h : anyArmed s = true
  · have h' := h
    simp only [anyArmed, Bool.or_eq_true, or_assoc] at h'
    simp [h, raiseIf, raise, errBit, h']
  · have h' := h
    simp only [anyArmed, Bool.or_eq_true, or_assoc] at h'
    simp only [h', if_false]
    simp [raiseIf, h]

variable (v : SlotValue) (s : State)

/-- TICK counts no invalid sample. -/
@[simp] theorem tickWith_invCnt : (tickWith v s).invCnt = s.invCnt := by simp [tickWith, consumeFresh_eq, countOverlap_eq]

/-- TICK consumes a fresh frame at slot 0 (43_slot_scheduler R184 line 2). -/
@[simp] theorem tickWith_fresh : (tickWith v s).fresh = if s.idx = 0 then false else s.fresh := by
  simp [tickWith, consumeFresh_eq]

/-- TICK counts a stale frame at slot 0 (43_slot_scheduler R184 line 2). -/
@[simp] theorem tickWith_staleCnt :
    (tickWith v s).staleCnt = if s.idx = 0 ∧ s.fresh = false then satSucc s.staleCnt else s.staleCnt := by
  simp [tickWith, consumeFresh_eq, countOverlap_eq]

/-- TICK counts an overlap (43_slot_scheduler R184 line 5). -/
@[simp] theorem tickWith_ovrCnt :
    (tickWith v s).ovrCnt =
      if s.btArmed[0] = true ∨ s.btArmed[1] = true ∨ s.btArmed[2] = true then satSucc s.ovrCnt else s.ovrCnt := by
  simp [tickWith, consumeFresh_eq, countOverlap_eq]
  rfl

/-- TICK sets the flags of what it counts (43_slot_scheduler R184). -/
@[simp] theorem tickWith_err :
    (tickWith v s).err = (s.err ||| (if s.idx = 0 ∧ s.fresh = false then 0b00100#5 else 0#5)) |||
      (if s.btArmed[0] = true ∨ s.btArmed[1] = true ∨ s.btArmed[2] = true then 0b00010#5 else 0#5) := by
  simp [tickWith, consumeFresh_eq, countOverlap_eq]
  rfl

/-- TICK appends to the trace. -/
theorem prefix_trace_tickWith : s.trace <+: (tickWith v s).trace := by
  unfold tickWith endOfMinute
  split <;> simp [List.append_assoc]

/-! ### What no service changes -/

@[simp] theorem handler_tb (i : Fin 4) : (handler i s).tb = s.tb := by fin_cases i <;> simp [handler]
@[simp] theorem handler_fb (i : Fin 4) : (handler i s).fb = s.fb := by fin_cases i <;> simp [handler]
@[simp] theorem handler_fsel (i : Fin 4) : (handler i s).fsel = s.fsel := by fin_cases i <;> simp [handler]
@[simp] theorem handler_fvalid (i : Fin 4) : (handler i s).fvalid = s.fvalid := by fin_cases i <;> simp [handler]
@[simp] theorem handler_stRun (i : Fin 4) : (handler i s).stRun = s.stRun := by fin_cases i <;> simp [handler]
@[simp] theorem handler_stCnt (i : Fin 4) : (handler i s).stCnt = s.stCnt := by fin_cases i <;> simp [handler]
@[simp] theorem handler_pend (i : Fin 4) : (handler i s).pend = s.pend := by fin_cases i <;> simp [handler]
@[simp] theorem handler_late (i : Fin 4) : (handler i s).late = s.late := by fin_cases i <;> simp [handler]
@[simp] theorem handler_invCnt (i : Fin 4) : (handler i s).invCnt = s.invCnt := by fin_cases i <;> simp [handler]
@[simp] theorem handler_result (i : Fin 4) : (handler i s).result = s.result := by fin_cases i <;> simp [handler]
@[simp] theorem handler_inputs (i : Fin 4) : (handler i s).inputs = s.inputs := by fin_cases i <;> simp [handler]
@[simp] theorem handler_epoch (i : Fin 4) : (handler i s).epoch = s.epoch := by fin_cases i <;> simp [handler]

@[simp] theorem serve_tb (i : Fin 4) : (serve i s).tb = s.tb := by unfold serve; split <;> simp
@[simp] theorem serve_fb (i : Fin 4) : (serve i s).fb = s.fb := by unfold serve; split <;> simp
@[simp] theorem serve_fsel (i : Fin 4) : (serve i s).fsel = s.fsel := by unfold serve; split <;> simp
@[simp] theorem serve_fvalid (i : Fin 4) : (serve i s).fvalid = s.fvalid := by unfold serve; split <;> simp
@[simp] theorem serve_stRun (i : Fin 4) : (serve i s).stRun = s.stRun := by unfold serve; split <;> simp
@[simp] theorem serve_stCnt (i : Fin 4) : (serve i s).stCnt = s.stCnt := by unfold serve; split <;> simp
@[simp] theorem serve_invCnt (i : Fin 4) : (serve i s).invCnt = s.invCnt := by unfold serve; split <;> simp
@[simp] theorem serve_result (i : Fin 4) : (serve i s).result = s.result := by unfold serve; split <;> simp
@[simp] theorem serve_inputs (i : Fin 4) : (serve i s).inputs = s.inputs := by unfold serve; split <;> simp
@[simp] theorem serve_epoch (i : Fin 4) : (serve i s).epoch = s.epoch := by unfold serve; split <;> simp

@[simp] theorem serveAll_tb : (serveAll s).tb = s.tb := by simp [serveAll]
@[simp] theorem serveAll_fb : (serveAll s).fb = s.fb := by simp [serveAll]
@[simp] theorem serveAll_fsel : (serveAll s).fsel = s.fsel := by simp [serveAll]
@[simp] theorem serveAll_fvalid : (serveAll s).fvalid = s.fvalid := by simp [serveAll]
@[simp] theorem serveAll_stRun : (serveAll s).stRun = s.stRun := by simp [serveAll]
@[simp] theorem serveAll_stCnt : (serveAll s).stCnt = s.stCnt := by simp [serveAll]
@[simp] theorem serveAll_invCnt : (serveAll s).invCnt = s.invCnt := by simp [serveAll]
@[simp] theorem serveAll_result : (serveAll s).result = s.result := by simp [serveAll]
@[simp] theorem serveAll_inputs : (serveAll s).inputs = s.inputs := by simp [serveAll]
@[simp] theorem serveAll_epoch : (serveAll s).epoch = s.epoch := by simp [serveAll]

/-! ### Requests through phase 4 -/

/-- Serving a request clears it and no other (43_slot_scheduler R183). -/
theorem pending_serve (i j : Fin 4) : pending (serve i s) j = (pending s j && decide (i ≠ j)) := by
  cases h : pending s i with
  | true => rw [serve_of_pending h, pending_of_pend (handler_pend _ _), pending_acknowledge]
  | false =>
    rw [serve_of_not_pending h]
    by_cases hij : i = j
    · subst hij; simp [h]
    · simp [hij]

/-- Serving a pending request clears its late mark and no other (60_exceptions R242). -/
theorem isLate_serve (i j : Fin 4) :
    isLate (serve i s) j = (isLate s j && !(pending s i && decide (i = j))) := by
  cases h : pending s i with
  | true =>
    rw [serve_of_pending h]
    have : isLate (handler i (acknowledge i s)) j = isLate (acknowledge i s) j := by
      simp only [isLate, handler_late]
    rw [this, isLate_acknowledge]
    simp
  | false => rw [serve_of_not_pending h]; simp

/-! ### What a microsecond leaves alone -/

@[simp] theorem usec_fb (hold : Bool) : (usec hold s).fb = s.fb := by cases hold <;> simp [usec]
@[simp] theorem usec_fsel (hold : Bool) : (usec hold s).fsel = s.fsel := by cases hold <;> simp [usec]
@[simp] theorem usec_fvalid (hold : Bool) : (usec hold s).fvalid = s.fvalid := by cases hold <;> simp [usec]
@[simp] theorem usec_stRun (hold : Bool) : (usec hold s).stRun = s.stRun := by cases hold <;> simp [usec]
@[simp] theorem usec_invCnt (hold : Bool) : (usec hold s).invCnt = s.invCnt := by cases hold <;> simp [usec]
@[simp] theorem usec_result (hold : Bool) : (usec hold s).result = s.result := by cases hold <;> simp [usec]
@[simp] theorem usec_inputs (hold : Bool) : (usec hold s).inputs = s.inputs := by cases hold <;> simp [usec]
@[simp] theorem usec_epoch (hold : Bool) : (usec hold s).epoch = s.epoch := by cases hold <;> simp [usec]

@[simp] theorem usec_tb (hold : Bool) : (usec hold s).tb = s.tb + 1 := by cases hold <;> simp [usec]

@[simp] theorem usec_stCnt (hold : Bool) : (usec hold s).stCnt = (countPhases s).stCnt := by
  cases hold <;> simp [usec]

/-! ### The Second Tick's counter -/

/-- Phase 2 as an update of the counter (43_slot_scheduler R181). -/
theorem countSecondTick_stCnt : (countSecondTick s).stCnt =
    if s.stRun then (if s.stCnt + 1 = stPeriod then 0 else s.stCnt + 1) else s.stCnt := by
  unfold countSecondTick
  split
  · split <;> simp only [fire_stCnt, setStCnt_stCnt]
  · rfl

/-- Phases 1 to 3 leave the Second Tick's counter as phase 2 does. -/
theorem countPhases_stCnt : (countPhases s).stCnt = (countSecondTick s).stCnt := by
  simp only [countPhases, countBitTimers_stCnt, countSecondTick_stCnt, countTimebase_stCnt, countTimebase_stRun]
  rfl

variable {s}

/-- The counter of a running Second Tick counts modulo 1,000,000 (43_slot_scheduler R181). -/
theorem countSecondTick_stCnt_toNat (hr : s.stRun = true) (hlt : s.stCnt.toNat < 1000000) :
    (countSecondTick s).stCnt.toNat = (s.stCnt.toNat + 1) % 1000000 := by
  have h1 : (s.stCnt + 1).toNat = s.stCnt.toNat + 1 := by
    rw [BitVec.toNat_add, show (1 : BitVec 20).toNat = 1 from rfl]; omega
  by_cases hn : s.stCnt + 1 = stPeriod
  · have h2 := congrArg BitVec.toNat hn
    rw [h1, show stPeriod.toNat = 1000000 from rfl] at h2
    rw [countSecondTick_fire s hr hn, h2]; simp
  · have h2 : s.stCnt.toNat + 1 ≠ 1000000 := fun h => hn (BitVec.eq_of_toNat_eq (by rw [h1, h]; rfl))
    rw [countSecondTick_count s hr hn, setStCnt_stCnt, h1]; omega

/-- The same for a whole microsecond. -/
theorem countPhases_stCnt_toNat (hr : s.stRun = true) (hlt : s.stCnt.toNat < 1000000) :
    (countPhases s).stCnt.toNat = (s.stCnt.toNat + 1) % 1000000 := by
  rw [countPhases_stCnt, countSecondTick_stCnt_toNat hr hlt]

/-! ### Runs -/

variable {c : Params}

theorem runStepsWith_zero (s : State) : runStepsWith c 0 s = .next s := rfl

theorem runStepsWith_succ {t : State} (n : Nat) (h : stepWith c s = .next t) :
    runStepsWith c (n + 1) s = runStepsWith c n t := by
  have h' : (machineWith c).step s = .next t := h
  show Host.Core.run _ _ _ = Host.Core.run _ _ _
  simp only [Host.Core.run, h']

/-- A run of `n + 1` steps is `n` steps and one more. -/
theorem runStepsWith_succ' {t u : State} (n : Nat) (h : runStepsWith c n s = .next t) (hu : stepWith c t = .next u) :
    runStepsWith c (n + 1) s = .next u := by
  induction n generalizing s with
  | zero => cases h; rw [runStepsWith_succ 0 hu, runStepsWith_zero]
  | succ n ih =>
    obtain ⟨s', hs⟩ := stepWith_next c s
    rw [runStepsWith_succ _ hs] at h ⊢
    exact ih h

end Sys2Proof.Machine
end

