-- ==== Sys2Proof/Laws/Encoding.lean ====
section
/-! SUPPORT. Command words as naturals, the operand checks as propositions, and the packed digits bit by bit. -/

namespace Sys2Proof

/-- A command word is its opcode and its operand part (30_encoding R81). -/
theorem commandWord_toNat {op x : Nat} (h : op < 16) (hx : x < 2 ^ 36) :
    (commandWord op x).toNat = op * 2 ^ 36 + x := by
  unfold commandWord
  rw [BitVec.toNat_ofNat]
  exact Nat.mod_eq_of_lt (by omega)

end Sys2Proof

namespace Sys2Proof.Machine

theorem yearOk_iff (y : Nat) : yearOk y = true ↔ 1 ≤ y ∧ y ≤ 9999 := by simp [yearOk]

theorem dayOk_iff (d : Nat) : dayOk d = true ↔ 1 ≤ d ∧ d ≤ 366 := by simp [dayOk]

/-- Line 1 of ENCODE as a proposition (42_frame_encoder R160). -/
theorem sampleOk_iff (y d h m : Nat) :
    sampleOk { year := y, dayOfYear := d, hour := h, minute := m } = true ↔
      (1 ≤ y ∧ y ≤ 9999 ∧ 1 ≤ d ∧ d ≤ 366 ∧ h ≤ 23 ∧ m ≤ 59) := by
  simp [sampleOk, yearOk, dayOk]; omega

theorem isLeapYear_iff (y : Nat) : isLeapYear y = true ↔ y % 4 = 0 ∧ (y % 100 ≠ 0 ∨ y % 400 = 0) := by
  simp [isLeapYear]

/-- The bits of `pack_bcd` are the bits of the packed number (40_bcd_packer R110). -/
theorem packBcd_getLsbD (n : Fin 1000) {k : Nat} (hk : k < 16) : (packBcd n).getLsbD k =
    (n.val / 100 * 256 + (n.val - 100 * (n.val / 100)) / 10 * 16 + n.val % 10).testBit k := by
  simp only [packBcd, BitVec.getLsbD_ofNat, hk, decide_true, Bool.true_and]

/-- ENCODE of a valid sample publishes its frame (42_frame_encoder R160). -/
theorem execEncodeWith_valid (c : Params) (v : ValidSample) (s : State) :
    execEncodeWith c v.sample s = .next (publish (encodeFrame c v) s) := by
  simp only [execEncodeWith, v.ok, dite_true]

end Sys2Proof.Machine
end

