-- ==== Sys2Proof/Laws/Timers.lean ====
section
/-! SUPPORT. What the counting phases of a microsecond do to each timer and to each request. -/

namespace Sys2Proof.Machine

/-- A vector of three after one entry is set. -/
theorem getElem_set3 {α : Type} (v : Vector α 3) (k j : Fin 3) (x : α) : (v.set k x)[j] = if j = k then x else v[j] := by
  simp only [Fin.getElem_fin, Vector.getElem_set, Fin.ext_iff, eq_comm]

/-- A Bit Timer's armed bit after it has counted: its own is cleared by its fire, the others stay
(43_slot_scheduler R182). -/
theorem countBitTimer_armed (j k : Fin 3) (s : State) : (countBitTimer k s).btArmed[j] = if j = k then s.btArmed[j] && decide (s.btCnt[j] + 1 ≠ btAlarm j) else s.btArmed[j] := by
  cases ha : s.btArmed[k] with
  | false =>
    rw [countBitTimer_idle s ha]
    by_cases h : j = k
    · subst h; simp only [ha, if_true, Bool.false_and]
    · rw [if_neg h]
  | true =>
    by_cases hc : s.btCnt[k] + 1 = btAlarm k
    · rw [countBitTimer_fire s ha hc]
      simp only [fire_btArmed, disarmBitTimer_btArmed, bumpBitTimer_btArmed, getElem_set3]
      by_cases h : j = k
      · subst h; simp only [if_true, ha, hc, Bool.true_and, ne_eq, not_true, decide_false]
      · simp only [if_neg h]
    · rw [countBitTimer_count s ha hc]
      simp only [bumpBitTimer_btArmed]
      by_cases h : j = k
      · subst h; simp only [if_true, ha, hc, Bool.true_and, ne_eq, not_false_eq_true, decide_true]
      · simp only [if_neg h]

/-- A Bit Timer's counter after it has counted (43_slot_scheduler R182). -/
theorem countBitTimer_cnt (j k : Fin 3) (s : State) : (countBitTimer k s).btCnt[j] = if j = k then (if s.btArmed[j] then s.btCnt[j] + 1 else s.btCnt[j]) else s.btCnt[j] := by
  cases ha : s.btArmed[k] with
  | false =>
    rw [countBitTimer_idle s ha]
    by_cases h : j = k
    · subst h; simp only [ha, if_true, Bool.false_eq_true, if_false]
    · rw [if_neg h]
  | true =>
    by_cases hc : s.btCnt[k] + 1 = btAlarm k
    · rw [countBitTimer_fire s ha hc]
      simp only [fire_btCnt, disarmBitTimer_btCnt, bumpBitTimer_btCnt, getElem_set3]
      by_cases h : j = k
      · subst h; simp only [if_true, ha]
      · simp only [if_neg h]
    · rw [countBitTimer_count s ha hc]
      simp only [bumpBitTimer_btCnt, getElem_set3]
      by_cases h : j = k
      · subst h; simp only [if_true, ha]
      · simp only [if_neg h]

/-- The requests after a Bit Timer has counted (43_slot_scheduler R182). -/
theorem pending_countBitTimer (k : Fin 3) (i : Fin 4) (s : State) : pending (countBitTimer k s) i = (pending s i || (decide (i = k.castSucc) && s.btArmed[k] && decide (s.btCnt[k] + 1 = btAlarm k))) := by
  cases ha : s.btArmed[k] with
  | false => rw [countBitTimer_idle s ha]; simp
  | true =>
    by_cases hc : s.btCnt[k] + 1 = btAlarm k
    · rw [countBitTimer_fire s ha hc, pending_fire, show pending (disarmBitTimer k (bumpBitTimer k s)) i = pending s i from rfl]
      simp only [hc, decide_true, Bool.and_true, eq_comm (a := i)]
    · rw [countBitTimer_count s ha hc, show pending (bumpBitTimer k s) i = pending s i from rfl]
      simp only [hc, decide_false, Bool.and_false, Bool.or_false]

/-- The requests after the Second Tick has counted (43_slot_scheduler R181). -/
theorem pending_countSecondTick (i : Fin 4) (s : State) : pending (countSecondTick s) i = (pending s i || (decide (i = 3) && s.stRun && decide (s.stCnt + 1 = stPeriod))) := by
  cases ha : s.stRun with
  | false => rw [countSecondTick_idle s ha]; simp
  | true =>
    by_cases hc : s.stCnt + 1 = stPeriod
    · rw [countSecondTick_fire s ha hc, pending_fire, show pending (setStCnt 0 s) i = pending s i from rfl]
      simp only [hc, decide_true, Bool.and_true, eq_comm (a := i)]
    · rw [countSecondTick_count s ha hc, show pending (setStCnt (s.stCnt + 1) s) i = pending s i from rfl]
      simp only [hc, decide_false, Bool.and_false, Bool.or_false]

/-! ### Phases 1 to 3 together -/

variable (s : State)

/-- The requests after phases 1 and 2. -/
theorem pending_phaseTwo (i : Fin 4) : pending (countSecondTick (countTimebase s)) i =
    (pending s i || (decide (i = 3) && s.stRun && decide (s.stCnt + 1 = stPeriod))) := by
  rw [pending_countSecondTick]; rfl

/-- A Bit Timer stays armed through the counting phases unless it fires. -/
theorem countPhases_armed (k : Fin 3) :
    (countPhases s).btArmed[k] = (s.btArmed[k] && decide (s.btCnt[k] + 1 ≠ btAlarm k)) := by
  simp only [countPhases, countBitTimers, countBitTimer_armed, countBitTimer_cnt, countSecondTick_btArmed,
    countSecondTick_btCnt, countTimebase_btArmed, countTimebase_btCnt]
  fin_cases k <;> simp

/-- An armed Bit Timer counts one. -/
theorem countPhases_cnt (k : Fin 3) :
    (countPhases s).btCnt[k] = if s.btArmed[k] then s.btCnt[k] + 1 else s.btCnt[k] := by
  simp only [countPhases, countBitTimers, countBitTimer_armed, countBitTimer_cnt, countSecondTick_btArmed,
    countSecondTick_btCnt, countTimebase_btArmed, countTimebase_btCnt]
  fin_cases k <;> simp

/-- The Second Tick's request after the counting phases. -/
theorem pending_countPhases_tick :
    pending (countPhases s) 3 = (pending s 3 || (s.stRun && decide (s.stCnt + 1 = stPeriod))) := by
  simp only [countPhases, countBitTimers, pending_countBitTimer, pending_phaseTwo]
  simp

/-- A Bit Timer's request after the counting phases. -/
theorem pending_countPhases_bit (k : Fin 3) : pending (countPhases s) k.castSucc =
    (pending s k.castSucc || (s.btArmed[k] && decide (s.btCnt[k] + 1 = btAlarm k))) := by
  simp only [countPhases, countBitTimers, pending_countBitTimer, pending_phaseTwo, countBitTimer_armed,
    countBitTimer_cnt, countSecondTick_btArmed, countSecondTick_btCnt, countTimebase_btArmed, countTimebase_btCnt]
  fin_cases k <;> simp

/-- A counter below the period does not wrap. -/
theorem counter_add_one_toNat {x : BitVec 20} (h : x.toNat < 1000000) : (x + 1).toNat = x.toNat + 1 := by
  rw [BitVec.toNat_add, show (1 : BitVec 20).toNat = 1 from rfl]; omega

end Sys2Proof.Machine
end

