-- ==== Sys2Proof/Laws/Invariant.lean ====
section
/-! SUPPORT. The parts of the register invariant through each shared operation: flags and counters, and the timers with
their requests. -/

namespace Sys2Proof.Machine

/-! ### Flags and counters (10_state R35) -/

/-- Recording an error keeps flag and counter in step (60_exceptions R231). -/
theorem errorsOk_raise (x) {s : State} (h : ErrorsOk s) : ErrorsOk (raise x s) := by
  refine ⟨?_, ?_, ?_⟩
  · have := h.invalid; cases x <;> simp_all [errBit, raise, satSucc_pos] 
  · have := h.overrun; cases x <;> simp_all [errBit, raise, satSucc_pos] 
  · have := h.stale; cases x <;> simp_all [errBit, raise, satSucc_pos] 

/-- A state with the same flags and counters. -/
theorem errorsOk_of_same {s t : State} (h : ErrorsOk s) (h1 : t.err = s.err) (h2 : t.invCnt = s.invCnt) (h3 : t.ovrCnt = s.ovrCnt) (h4 : t.staleCnt = s.staleCnt) : ErrorsOk t := by
  obtain ⟨a, b, c⟩ := h
  exact ⟨by rw [h1, h2, a], by rw [h1, h3, b], by rw [h1, h4, c]⟩

/-- Recording one or nothing. -/
theorem errorsOk_raiseIf (c x) {s : State} (h : ErrorsOk s) : ErrorsOk (raiseIf c x s) := by
  unfold raiseIf; split
  · exact errorsOk_raise x h
  · exact h

/-- `Fire`. -/
theorem errorsOk_fire (i) {s : State} (h : ErrorsOk s) : ErrorsOk (fire i s) := by
  unfold fire; split
  · exact errorsOk_raise _ h
  · exact errorsOk_of_same h rfl rfl rfl rfl

/-- TICK. -/
theorem errorsOk_tickWith (v) {s : State} (h : ErrorsOk s) : ErrorsOk (tickWith v s) := by
  have h1 : ErrorsOk (consumeFresh s) := by
    unfold consumeFresh; split
    · exact errorsOk_of_same (errorsOk_raiseIf _ _ h) rfl rfl rfl rfl
    · exact h
  have h2 : ErrorsOk (carrierDown (consumeFresh s)) := errorsOk_of_same h1 rfl rfl rfl rfl
  have h3 := errorsOk_raiseIf (anyArmed (carrierDown (consumeFresh s))) .timingOverrun h2
  have h4 : ErrorsOk (countOverlap (carrierDown (consumeFresh s))) := h3
  unfold tickWith
  generalize countOverlap (carrierDown (consumeFresh s)) = u at h4 ⊢
  exact errorsOk_of_same h4 (by simp) (by simp) (by simp) (by simp)

/-- A late mark. -/
theorem errorsOk_markLate (i) {s : State} (h : ErrorsOk s) : ErrorsOk (markLate i s) := by
  unfold markLate; split
  · exact errorsOk_raise _ (errorsOk_of_same h rfl rfl rfl rfl)
  · exact h

/-- A service. -/
theorem errorsOk_handler (i) {s : State} (h : ErrorsOk s) : ErrorsOk (handler i s) := by
  have hb : ErrorsOk (bitFire s) := errorsOk_of_same h rfl rfl rfl rfl
  fin_cases i
  · exact hb
  · exact hb
  · exact hb
  · exact errorsOk_tickWith _ h

/-- A request of phase 4. -/
theorem errorsOk_serve (i) {s : State} (h : ErrorsOk s) : ErrorsOk (serve i s) := by
  unfold serve; split
  · exact errorsOk_handler _ (errorsOk_of_same h rfl rfl rfl rfl)
  · exact h

/-- Phase 2. -/
theorem errorsOk_countSecondTick {s : State} (h : ErrorsOk s) : ErrorsOk (countSecondTick s) := by
  unfold countSecondTick; split
  · split
    · exact errorsOk_fire _ (errorsOk_of_same h rfl rfl rfl rfl)
    · exact errorsOk_of_same h rfl rfl rfl rfl
  · exact h

/-- Phase 3 for one timer. -/
theorem errorsOk_countBitTimer (k) {s : State} (h : ErrorsOk s) : ErrorsOk (countBitTimer k s) := by
  unfold countBitTimer; split
  · split
    · exact errorsOk_fire _ (errorsOk_of_same h rfl rfl rfl rfl)
    · exact errorsOk_of_same h rfl rfl rfl rfl
  · exact h

/-- Phases 1 to 3. -/
theorem errorsOk_countPhases {s : State} (h : ErrorsOk s) : ErrorsOk (countPhases s) :=
  errorsOk_countBitTimer 2 (errorsOk_countBitTimer 1 (errorsOk_countBitTimer 0 (errorsOk_countSecondTick (s := countTimebase s) (errorsOk_of_same h rfl rfl rfl rfl))))

/-! ### Timers and requests (10_state R21, R29, R30, R33) -/

/-- The two parts of the invariant that need each other. -/
structure TimersRequestsOk (s : State) : Prop where
  timers : TimersOk s
  requests : RequestsOk s

/-- A state with the same timers and requests. -/
theorem timersRequestsOk_of_same {s t : State} (h : TimersRequestsOk s) (h1 : t.stCnt = s.stCnt) (h2 : t.stRun = s.stRun) (h3 : t.btCnt = s.btCnt) (h4 : t.btArmed = s.btArmed) (h5 : t.pend = s.pend) (h6 : t.late = s.late) : TimersRequestsOk t := by
  obtain ⟨⟨a, b, c, d, e⟩, ⟨f, g, i⟩⟩ := h
  have p : ∀ i, pending t i = pending s i := fun i => by simp only [pending, h5]
  have q : ∀ i, isLate t i = isLate s i := fun i => by simp only [isLate, h6]
  exact ⟨⟨by rw [h1]; exact a, by rw [h2, h1]; exact b, by rw [h3]; exact c, by rw [h3, h4]; exact d, by rw [h4, h2]; exact e⟩,
    ⟨by simp only [p, q]; exact f, by simp only [p, h2]; exact g, by simp only [p, h4]; exact i⟩⟩

/-- Phase 1. -/
theorem timersRequestsOk_countTimebase {s : State} (h : TimersRequestsOk s) : TimersRequestsOk (countTimebase s) := timersRequestsOk_of_same h rfl rfl rfl rfl rfl rfl

/-- `Fire(i)` while the Second Tick runs, for a timer that is not armed. -/
theorem timersRequestsOk_fire {s : State} (h : TimersRequestsOk s) (i : Fin 4) (hr : s.stRun = true) (hk : ∀ k : Fin 3, k.castSucc = i → s.btArmed[k] = false) : TimersRequestsOk (fire i s) := by
  obtain ⟨⟨a, b, c, d, e⟩, ⟨f, g, j⟩⟩ := h
  refine ⟨⟨by simpa, by simpa, by simpa, by simpa, by simpa⟩, ⟨?_, ?_, ?_⟩⟩
  · intro x hx
    rw [pending_fire]
    simp only [isLate, fire_late] at hx
    simp [f x hx]
  · intros; simpa
  · intro k hk'
    rw [pending_fire]
    simp only [fire_btArmed] at hk'
    have : i ≠ k.castSucc := fun h => by rw [hk k h.symm] at hk'; cases hk'
    simp [j k hk', this]

/-- Phase 2. -/
theorem timersRequestsOk_countSecondTick {s : State} (h : TimersRequestsOk s) : TimersRequestsOk (countSecondTick s) := by
  have ha := h.timers.stCnt_lt
  cases hr : s.stRun with
  | false => rw [countSecondTick_idle s hr]; exact h
  | true =>
    by_cases hn : s.stCnt + 1 = stPeriod
    · rw [countSecondTick_fire s hr hn]
      apply timersRequestsOk_fire
      · obtain ⟨⟨a, b, c, d, e⟩, ⟨f, g, j⟩⟩ := h
        exact ⟨⟨by simp, by simp, c, d, e⟩, ⟨f, g, j⟩⟩
      · exact hr
      · intro k hk; exact absurd hk ((by decide : ∀ k : Fin 3, k.castSucc ≠ (3 : Fin 4)) k)
    · have h2 : s.stCnt.toNat + 1 ≠ 1000000 := fun h => hn (BitVec.eq_of_toNat_eq (by rw [counter_add_one_toNat ha, h]; rfl))
      rw [countSecondTick_count s hr hn]
      obtain ⟨⟨a, b, c, d, e⟩, ⟨f, g, j⟩⟩ := h
      exact ⟨⟨by rw [setStCnt_stCnt, counter_add_one_toNat ha]; omega, by simp [hr], c, d, e⟩, ⟨f, g, j⟩⟩

/-- Phase 3 for one timer. -/
theorem timersRequestsOk_countBitTimer {s : State} (h : TimersRequestsOk s) (k : Fin 3) : TimersRequestsOk (countBitTimer k s) := by
  cases hr : s.btArmed[k] with
  | false => rw [countBitTimer_idle s hr]; exact h
  | true =>
    have hlt := h.timers.btCnt_lt k hr
    have hal := btAlarm_le k
    have h1 := counter_add_one_toNat (x := s.btCnt[k]) (by omega)
    have hset : ∀ (j : Fin 3) (x : BitVec 20), (s.btCnt.set k x)[j] = if k = j then x else s.btCnt[j] := by
      intro j x; simp [Vector.getElem_set, Fin.ext_iff]
    have hset' : ∀ (j : Fin 3) (x : Bool), (s.btArmed.set k x)[j] = if k = j then x else s.btArmed[j] := by
      intro j x; simp [Vector.getElem_set, Fin.ext_iff]
    obtain ⟨⟨a, b, c, d, e⟩, ⟨f, g, j⟩⟩ := h
    by_cases hn : s.btCnt[k] + 1 = btAlarm k
    · rw [countBitTimer_fire s hr hn]
      apply timersRequestsOk_fire
      · refine ⟨⟨a, b, ?_, ?_, ?_⟩, ⟨f, g, ?_⟩⟩
        · intro i; show ((s.btCnt.set k (s.btCnt[k] + 1))[i]).toNat ≤ _; rw [hset]; split
          · subst_vars; rw [hn]
          · exact c i
        · intro i hi
          change (s.btArmed.set k false)[i] = true at hi
          show ((s.btCnt.set k (s.btCnt[k] + 1))[i]).toNat < _; rw [hset]; rw [hset'] at hi
          split at hi
          · cases hi
          · rename_i hne; rw [if_neg hne]; exact d i hi
        · intro i hi
          change (s.btArmed.set k false)[i] = true at hi
          rw [hset'] at hi; split at hi
          · cases hi
          · exact e i hi
        · intro i hi
          change (s.btArmed.set k false)[i] = true at hi
          rw [hset'] at hi; split at hi
          · cases hi
          · exact j i hi
      · exact e k hr
      · intro i hi
        have : i = k := by simpa using hi
        subst this
        show (s.btArmed.set i false)[i] = false
        rw [hset']; simp
    · rw [countBitTimer_count s hr hn]
      have h2 : s.btCnt[k].toNat + 1 ≠ (btAlarm k).toNat := fun h => hn (BitVec.eq_of_toNat_eq (by rw [h1, h]))
      refine ⟨⟨a, b, ?_, ?_, e⟩, ⟨f, g, j⟩⟩
      · intro i; show ((s.btCnt.set k (s.btCnt[k] + 1))[i]).toNat ≤ _; rw [hset]; split
        · subst_vars; omega
        · exact c i
      · intro i hi
        show ((s.btCnt.set k (s.btCnt[k] + 1))[i]).toNat < _; rw [hset]; split
        · subst_vars; omega
        · exact d i hi

/-- Phases 1 to 3. -/
theorem timersRequestsOk_countPhases {s : State} (h : TimersRequestsOk s) : TimersRequestsOk (countPhases s) := 
  timersRequestsOk_countBitTimer (timersRequestsOk_countBitTimer (timersRequestsOk_countBitTimer (timersRequestsOk_countSecondTick (timersRequestsOk_countTimebase h)) 0) 1) 2

/-- The arbiter takes a request. -/
theorem timersRequestsOk_acknowledge {s : State} (h : TimersRequestsOk s) (i) : TimersRequestsOk (acknowledge i s) := by
  obtain ⟨⟨a, b, c, d, e⟩, ⟨f, g, j⟩⟩ := h
  refine ⟨⟨a, b, c, d, e⟩, ⟨?_, ?_, ?_⟩⟩
  · intro x; rw [isLate_acknowledge, pending_acknowledge]; have := f x; simp; tauto
  · intro x; rw [pending_acknowledge]; have := g x; simp; tauto
  · intro x hx; rw [pending_acknowledge, j x hx]; rfl

/-- The arbiter marks a held request. -/
theorem timersRequestsOk_markLate {s : State} (h : TimersRequestsOk s) (i) : TimersRequestsOk (markLate i s) := by
  obtain ⟨⟨a, b, c, d, e⟩, ⟨f, g, j⟩⟩ := h
  refine ⟨⟨by simpa, by simpa, by simpa, by simpa, by simpa⟩, ⟨?_, ?_, ?_⟩⟩
  · intro x; rw [isLate_markLate, pending_of_pend (markLate_pend _ _)]; simp; rintro (h | ⟨h, rfl⟩)
    · exact f x h
    · exact h
  · intro x; rw [pending_of_pend (markLate_pend _ _)]; simpa using g x
  · intro x; rw [pending_of_pend (markLate_pend _ _)]; simpa using j x

/-- The service of a Bit Timer. -/
theorem timersRequestsOk_bitFire {s : State} (h : TimersRequestsOk s) : TimersRequestsOk (bitFire s) := timersRequestsOk_of_same h rfl rfl rfl rfl rfl rfl

/-- TICK, where the request of the timer it arms is not pending. -/
theorem timersRequestsOk_tickWith {s : State} (h : TimersRequestsOk s) (v) (hr : s.stRun = true) (hk : pending s (slotCode v).castSucc = false) : TimersRequestsOk (tickWith v s) := by
  have hset : ∀ (j : Fin 3) (x : BitVec 20), (s.btCnt.set (slotCode v) x)[j] = if slotCode v = j then x else s.btCnt[j] := by
      intro j x; simp [Vector.getElem_set, Fin.ext_iff]
  have hset' : ∀ (j : Fin 3) (x : Bool), (s.btArmed.set (slotCode v) x)[j] = if slotCode v = j then x else s.btArmed[j] := by
      intro j x; simp [Vector.getElem_set, Fin.ext_iff]
  obtain ⟨⟨a, b, c, d, e⟩, ⟨f, g, j⟩⟩ := h
  have p : ∀ i, pending (tickWith v s) i = pending s i := fun i => by simp only [pending, tickWith_pend]
  have q : ∀ i, isLate (tickWith v s) i = isLate s i := fun i => by simp only [isLate, tickWith_late]
  refine ⟨⟨by simpa, by simpa, ?_, ?_, ?_⟩, ⟨by simp only [p, q]; exact f, by simpa [p] using g, ?_⟩⟩
  · intro i; rw [tickWith_btCnt, hset]; split
    · simp
    · exact c i
  · intro i; rw [tickWith_btCnt, tickWith_btArmed, hset, hset']; split
    · intro; have := btAlarm_pos i; show 0 < _; omega
    · exact d i
  · intro i; simpa using fun _ => hr
  · intro i; rw [tickWith_btArmed, hset', p]; split
    · subst_vars; intro; exact hk
    · exact j i

/-- The service of one Bit Timer request. -/
theorem timersRequestsOk_serveLow {s : State} (h : TimersRequestsOk s) (i : Fin 4) (hi : i ≠ 3) : TimersRequestsOk (serve i s) := by
  unfold serve; split
  · fin_cases i
    · exact timersRequestsOk_bitFire (timersRequestsOk_acknowledge h _)
    · exact timersRequestsOk_bitFire (timersRequestsOk_acknowledge h _)
    · exact timersRequestsOk_bitFire (timersRequestsOk_acknowledge h _)
    · simp at hi
  · exact h

end Sys2Proof.Machine
end

