-- ==== Sys2Proof/Laws/PerInstr.lean ====
section
/-! SUPPORT. Statements made for every constructor of Instr. Family `MatchesTable`: the canonical word of a well-formed
operation matches its row of spec/opcode_table.json (30_encoding R83, R86, R87). -/

namespace Sys2Proof.Laws.MatchesTable

/-- The `match` value of an operation's row of spec/opcode_table.json. -/
def rowMatch : Instr → Nat
  | .nop => 0x0000000000
  | .encode _ => 0x1000000000
  | .start => 0x2000000000
  | .pack _ => 0x3000000000
  | .leap _ => 0x4000000000
  | .dstwin _ => 0x5000000000
  | .isdst _ _ => 0x6000000000
  | .bitfire0 => 0x1
  | .bitfire1 => 0x2
  | .bitfire2 => 0x4
  | .tick => 0x8
  | .setCarrierLow => 0x1
  | .setCarrierFull => 0x2

/-- The word on the row's port under the row's mask: a command's mask `0xFC00000000` keeps bits 39:34, the masks of the
two other formats keep every bit. -/
def masked : PortWord → Nat
  | .cmd w => w.toNat / 2 ^ 34 * 2 ^ 34
  | .request r => r.toNat
  | .carrierOp c => c.toNat

/-- The canonical word of a well-formed operation matches its row. -/
def Statement (i : Instr) : Prop := i.wf = true → masked (encode i) = rowMatch i

/-- An opcode and operands below bit 34 leave the opcode alone in bits 39:34. -/
theorem masked_commandWord {op x m : Nat} (h : op < 16) (hx : x < 2 ^ 34) (hm : op * 2 ^ 36 = m) :
    masked (.cmd (commandWord op x)) = m := by
  show (commandWord op x).toNat / 2 ^ 34 * 2 ^ 34 = m
  rw [commandWord_toNat h (Nat.lt_trans hx (by decide)), show op * 2 ^ 36 = 2 ^ 34 * (op * 4) by ring,
    Nat.mul_add_div (by decide), Nat.div_eq_of_lt hx, ← hm]
  ring

theorem nop : Statement .nop := fun _ => by
  simp only [Sys2Proof.encode, rowMatch]
  exact masked_commandWord (by omega) (by omega) (by omega)

theorem encode (t : TimeSample) : Statement (.encode t) := fun h => by
  simp only [Instr.wf, TimeSample.fits, Bool.and_eq_true, decide_eq_true_eq] at h
  simp only [Sys2Proof.encode, rowMatch]
  exact masked_commandWord (by omega) (by omega) (by omega)

theorem start : Statement .start := fun _ => by
  simp only [Sys2Proof.encode, rowMatch]
  exact masked_commandWord (by omega) (by omega) (by omega)

theorem pack (n : Nat) : Statement (.pack n) := fun h => by
  simp only [Instr.wf, decide_eq_true_eq] at h
  simp only [Sys2Proof.encode, rowMatch]
  exact masked_commandWord (by omega) (by omega) (by omega)

theorem leap (year : Nat) : Statement (.leap year) := fun h => by
  simp only [Instr.wf, decide_eq_true_eq] at h
  simp only [Sys2Proof.encode, rowMatch]
  exact masked_commandWord (by omega) (by omega) (by omega)

theorem dstwin (year : Nat) : Statement (.dstwin year) := fun h => by
  simp only [Instr.wf, decide_eq_true_eq] at h
  simp only [Sys2Proof.encode, rowMatch]
  exact masked_commandWord (by omega) (by omega) (by omega)

theorem isdst (year dayOfYear : Nat) : Statement (.isdst year dayOfYear) := fun h => by
  simp only [Instr.wf, Bool.and_eq_true, decide_eq_true_eq] at h
  simp only [Sys2Proof.encode, rowMatch]
  exact masked_commandWord (by omega) (by omega) (by omega)

theorem bitfire0 : Statement .bitfire0 := fun _ => rfl
theorem bitfire1 : Statement .bitfire1 := fun _ => rfl
theorem bitfire2 : Statement .bitfire2 := fun _ => rfl
theorem tick : Statement .tick := fun _ => rfl
theorem setCarrierLow : Statement .setCarrierLow := fun _ => rfl
theorem setCarrierFull : Statement .setCarrierFull := fun _ => rfl

end Sys2Proof.Laws.MatchesTable
end

