-- ==== Sys2Proof/Tests/Slice0.lean ====
section
/-! SUPPORT. Tests and witnesses. The expected results come from the spec: the worked words of 30_encoding R95, the
examples of the operation rules, and the vectors X1 to X11, T1 to T93 and programs P1, P4b, P7 of 95_test_vectors. A
`witness_` theorem shows values that meet the hypotheses of the obligation it names, clause by clause. -/

namespace Sys2Proof.Tests

open Sys2Proof.Machine

/-! ### Helpers -/

/-- The outcome is a next state that passes the check. -/
def answers (r : Result) (p : State → Bool) : Bool :=
  match r with
  | .next t => p t
  | .fault _ => false
  | .refused _ => false

/-- Only the registers a test looks at: result, flags, and whether anything the commands leave alone has moved. -/
def quiet (s t : State) : Bool :=
  decide (t.tb = s.tb) && decide (t.idx = s.idx) && decide (t.carrier = s.carrier) && decide (t.trace = s.trace)

/-- A small state with a value in RESULT. -/
def start : State := { State.reset with result := 0xABC#32 }

/-- A state about to tick: the front bank (bank 0) lists the slot `IDX` selects. -/
def aboutToTick (i : SlotIndex) (v : SlotValue) : State :=
  { State.reset with fb := [(i.val, v)], idx := i, fvalid := true, fresh := true, stRun := true, stCnt := 999999#20 }

/-- The sample of 42_frame_encoder R160's example. -/
def sample0 : ValidSample := ⟨{ year := 2024, dayOfYear := 60, hour := 9, minute := 0 }, by decide⟩

/-- The indices of the slots that hold ONE. -/
def ones (f : Frame) : List Nat := ((List.finRange 60).filter fun i => decide (f i = .one)).map fun i => i.val

/-! ### Ill-formed operations are refused by the well-formedness check (30_encoding R81) -/

theorem test_wf_year : (Instr.encode { year := 16384, dayOfYear := 1, hour := 0, minute := 0 }).wf = false := by decide
theorem test_wf_day : (Instr.encode { year := 1, dayOfYear := 512, hour := 0, minute := 0 }).wf = false := by decide
theorem test_wf_hour : (Instr.encode { year := 1, dayOfYear := 1, hour := 32, minute := 0 }).wf = false := by decide
theorem test_wf_minute : (Instr.encode { year := 1, dayOfYear := 1, hour := 0, minute := 64 }).wf = false := by decide
theorem test_wf_pack : (Instr.pack 1024).wf = false := by decide
theorem test_wf_leap : (Instr.leap 16384).wf = false := by decide
theorem test_wf_dstwin : (Instr.dstwin 16384).wf = false := by decide
theorem test_wf_isdst_year : (Instr.isdst 16384 1).wf = false := by decide
theorem test_wf_isdst_day : (Instr.isdst 1 512).wf = false := by decide
theorem test_wf_widest :
    (Instr.encode { year := 16383, dayOfYear := 511, hour := 31, minute := 63 }).wf = true := by decide

/-! ### Words written out from the field table of 30_encoding R81: OP, RSV, YEAR, DOY, HOUR, MIN or N -/

theorem test_decode_nop :
    decodeCmd 0b0000000000000000000000000000000000000000#40 = .ok .nop ∧
    decodeCmd 0x00000FFFFF#40 = .ok .nop := by decide

theorem test_decode_encode :
    decodeCmd (0b0001#4 ++ 0b00#2 ++ 0b00011111101000#14 ++ 0b000111100#9 ++ 0b01001#5 ++ 0b000000#6) =
      .ok (.encode { year := 2024, dayOfYear := 60, hour := 9, minute := 0 }) ∧
    decodeCmd (0b0001#4 ++ 0b00#2 ++ 0b10011100001111#14 ++ 0b101101110#9 ++ 0b10111#5 ++ 0b111011#6) =
      .ok (.encode { year := 9999, dayOfYear := 366, hour := 23, minute := 59 }) := by decide

theorem test_decode_start :
    decodeCmd (0b0010#4 ++ 0b00#2 ++ 0#34) = .ok .start ∧ decodeCmd 0x20000003FF#40 = .ok .start := by decide

theorem test_decode_pack :
    decodeCmd (0b0011#4 ++ 0b00#2 ++ 0#24 ++ 0b0101101110#10) = .ok (.pack 366) ∧
    decodeCmd (0b0011#4 ++ 0b00#2 ++ 0xFFFFFF#24 ++ 0b1111101000#10) = .ok (.pack 1000) := by decide

theorem test_decode_leap :
    decodeCmd (0b0100#4 ++ 0b00#2 ++ 0b00011111101000#14 ++ 0xFFFFF#20) = .ok (.leap 2024) := by decide

theorem test_decode_dstwin :
    decodeCmd (0b0101#4 ++ 0b00#2 ++ 0b00011111101000#14 ++ 0#20) = .ok (.dstwin 2024) := by decide

theorem test_decode_isdst :
    decodeCmd (0b0110#4 ++ 0b00#2 ++ 0b00011111101000#14 ++ 0b000111100#9 ++ 0b11111111111#11) =
      .ok (.isdst 2024 60) := by decide

/-- T72 to T75. -/
theorem test_decode_illegal :
    decodeCmd 0x7000000000#40 = .error .reservedOpcode ∧ decodeCmd 0xF000000000#40 = .error .reservedOpcode ∧
    decodeCmd 0x0400000000#40 = .error .reservedBits ∧ decodeCmd 0x1C7E81E240#40 = .error .reservedBits := by decide

/-- 30_encoding R86. -/
theorem test_decode_requests :
    decodeRequest 0b0001#4 = .ok .bitfire0 ∧ decodeRequest 0b0010#4 = .ok .bitfire1 ∧
    decodeRequest 0b0100#4 = .ok .bitfire2 ∧ decodeRequest 0b1000#4 = .ok .tick ∧
    decodeRequest 0b0000#4 = .error .requestNotIsolated ∧ decodeRequest 0b1100#4 = .error .requestNotIsolated := by
  decide

/-- 30_encoding R87. -/
theorem test_decode_carrier :
    decodeCarrierOp 0b01#2 = .ok .setCarrierLow ∧ decodeCarrierOp 0b10#2 = .ok .setCarrierFull ∧
    decodeCarrierOp 0b00#2 = .error .noCarrierOperation ∧ decodeCarrierOp 0b11#2 = .error .carrierCodeUnused := by
  decide

/-- Rows of spec/opcode_table.json as the host gives them. -/
theorem test_decode_table_words :
    decodeTableWord 40 0x107E81E240 = some (.encode { year := 2024, dayOfYear := 60, hour := 9, minute := 0 }) ∧
    decodeTableWord 40 0x7000000000 = none ∧ decodeTableWord 8 0x8 = some .tick ∧ decodeTableWord 4 0x4 = some .bitfire2 ∧
    decodeTableWord 2 0x1 = some .setCarrierLow ∧ decodeTableWord 2 0x2 = some .setCarrierFull ∧
    decodeTableWord 2 0x3 = none ∧ decodeTableWord 8 0x10 = none := by decide

/-! ### The query commands -/

/-- T71. -/
theorem test_nop : answers (commandStep 0x00000FFFFF#40 start) (fun t => decide (t = start)) = true := by decide

/-- T6. -/
theorem test_pack_109 : answers (exec (.pack 109) start) (fun t => decide (t.result = 0x109#32)) = true := by decide

/-- T9. -/
theorem test_pack_1000 : answers (exec (.pack 1000) start)
    (fun t => decide (t.result = 0xABC#32) && decide (t.err = 0b01000#5) && quiet start t) = true := by decide

/-- X5. -/
theorem test_leap : (answers (exec (.leap 1900) start) (fun t => decide (t.result = 0#32)) &&
    answers (exec (.leap 2000) start) (fun t => decide (t.result = 1#32))) = true := by decide

/-- T43. -/
theorem test_leap_0 : answers (exec (.leap 0) start)
    (fun t => decide (t.result = 0xABC#32) && decide (t.err = 0b01000#5)) = true := by decide

/-- T21, T28. -/
theorem test_dstwin : (answers (exec (.dstwin 2024) start) (fun t => decide (t.result = 0x01320044#32)) &&
    answers (exec (.dstwin 2025) start) (fun t => decide (t.result = 0x01310043#32))) = true := by decide

/-- T46. -/
theorem test_dstwin_10000 : answers (exec (.dstwin 10000) start)
    (fun t => decide (t.result = 0xABC#32) && decide (t.err = 0b01000#5)) = true := by decide

/-- T33, T34, T36, T37: the two edges of the window of 2024. -/
theorem test_isdst_edges : (answers (exec (.isdst 2024 67) start) (fun t => decide (t.result = 0#32)) &&
    answers (exec (.isdst 2024 68) start) (fun t => decide (t.result = 1#32)) &&
    answers (exec (.isdst 2024 305) start) (fun t => decide (t.result = 1#32)) &&
    answers (exec (.isdst 2024 306) start) (fun t => decide (t.result = 0#32))) = true := by decide

/-- T42, T45. -/
theorem test_isdst_day : (answers (exec (.isdst 2023 366) start) (fun t => decide (t.err = 0#5)) &&
    answers (exec (.isdst 2024 367) start) (fun t => decide (t.err = 0b01000#5))) = true := by decide

/-! ### ENCODE -/

/-- T12: `M10101001M 001000011M 001100110M 011000000M 000001001M 100100000M`. -/
theorem test_frame_T12 :
    ones (encodeFrame defaultParams ⟨{ year := 9999, dayOfYear := 366, hour := 23, minute := 59 }, by decide⟩) =
      [1, 3, 5, 8, 12, 17, 18, 22, 23, 26, 27, 31, 32, 45, 48, 50, 53] := by decide +kernel

/-- T11: `M01100111M 000100011M 001000000M 000000000M 000000010M 010100011M`. -/
theorem test_frame_T11 :
    ones (encodeFrame defaultParams ⟨{ year := 2025, dayOfYear := 200, hour := 13, minute := 37 }, by decide⟩) =
      [2, 3, 6, 7, 8, 13, 17, 18, 22, 47, 51, 53, 57, 58] := by decide +kernel

/-- The example of 42_frame_encoder R160, first ENCODE after reset: bank 1, slot 55 is the leap bit. -/
theorem test_encode : answers (exec (.encode sample0.sample) State.reset) (fun t =>
    decide (t.fsel = 1) && t.fvalid && t.fresh && decide (t.slot? 1 55 = some .one) &&
    decide (t.slot? 1 0 = some .marker) && decide (t.slot? 0 55 = none)) = true := by decide +kernel

/-- T66: one rejected command counts once. -/
theorem test_encode_T66 : answers (commandStep 0x107E800FFF#40 start) (fun t =>
    decide (t.err = 0b00001#5) && decide (t.invCnt = 1#32) && decide (t.fb = []) && decide (t.fsel = 0)) = true := by
  decide

/-! ### START, the carrier operations and the services -/

/-- T80, and T81 on a state with a committed frame. -/
theorem test_start : (answers (exec .start start) (fun t => decide (t.err = 0b10000#5) && !t.stRun) &&
    answers (exec .start { start with fvalid := true, stCnt := 7#20 }) (fun t =>
      t.stRun && decide (t.stCnt = 0#20) && decide (t.sched = .idle) && quiet start t)) = true := by decide

/-- T82. -/
theorem test_start_again : answers (exec .start { start with fvalid := true, stRun := true, stCnt := 500000#20 })
    (fun t => decide (t.stCnt = 500000#20) && decide (t.err = 0#5)) = true := by decide

/-- 43_slot_scheduler R174: the event is emitted although the carrier is low already. -/
theorem test_set_carrier_low : answers (exec .setCarrierLow { start with carrier := false }) (fun t =>
    !t.carrier && decide (t.trace = [{ event := .carrierLow, tb := 0#64 }]) && decide (t.sched = .idle)) = true := by
  decide

/-- 43_slot_scheduler R175. -/
theorem test_set_carrier_full : answers (exec .setCarrierFull { start with carrier := false, tb := 9#64 }) (fun t =>
    t.carrier && decide (t.trace = [{ event := .carrierFull, tb := 9#64 }])) = true := by decide

/-- T84: the tick of slot 0 in the millionth microsecond. -/
theorem test_tick_T84 : answers (usecStep false (aboutToTick 0 .marker)) (fun t =>
    decide (t.idx = 1) && decide (t.sched = .carrierLow) && !t.carrier && !t.fresh && decide (t.stCnt = 0#20) &&
    decide (t.btArmed = #v[false, false, true]) && decide (t.btCnt = #v[0, 0, 0]) && decide (t.pend = 0#4) &&
    decide (t.trace = [{ event := .carrierLow, tb := 1#64 }, { event := .diag .marker, tb := 1#64 }])) = true := by decide

/-- T90 and T91: the wrap with its events in order, and the stale frame at slot 0. -/
theorem test_tick_T90_T91 : (answers (exec .tick (aboutToTick 59 .marker)) (fun t =>
      decide (t.idx = 0) && t.fresh &&
      decide (t.trace.map (fun x => x.event) = [.carrierLow, .diag .marker, .minuteDone, .diagNewline])) &&
    answers (exec .tick { aboutToTick 0 .one with fresh := false }) (fun t =>
      decide (t.err = 0b00100#5) && decide (t.staleCnt = 1#32) && decide (t.btArmed = #v[false, true, false]))) = true := by
  decide

/-- T86: the marker timer reaches its alarm. -/
theorem test_bitfire_T86 : answers (usecStep false { start with
      carrier := false, sched := .carrierLow, btArmed := #v[false, false, true], btCnt := #v[0, 0, 799999] }) (fun t =>
    t.carrier && decide (t.sched = .carrierFull) && decide (t.btArmed = #v[false, false, false]) &&
    decide (t.btCnt = #v[0, 0, 800000]) && decide (t.pend = 0#4) &&
    decide (t.trace = [{ event := .carrierFull, tb := 1#64 }])) = true := by decide

/-- BITFIRE0 and BITFIRE1 do what BITFIRE2 does: `k` does not enter the effect (43_slot_scheduler R188). -/
theorem test_bitfire_k : (answers (exec .bitfire0 start) (fun t => t.carrier && decide (t.sched = .carrierFull)) &&
    answers (exec .bitfire1 start) (fun t => t.carrier && decide (t.sched = .carrierFull))) = true := by decide

/-- A restore that is due precedes the next slot's carrier-low (43_slot_scheduler R183, R188): `CarrierFull` then
`CarrierLow` with one time stamp. -/
theorem test_service_order : answers (usecStep false { aboutToTick 5 .zero with
      carrier := false, pend := 0b0100#4, late := 0b0100#4 }) (fun t =>
    decide (t.trace.map (fun x => x.event) = [.carrierFull, .carrierLow, .diag .zero]) && !t.carrier &&
    decide (t.late = 0#4)) = true := by decide

/-- A held request is counted late once (43_slot_scheduler R183). -/
theorem test_held_once : answers (usecStep true { start with pend := 0b1001#4, late := 0b0001#4 }) (fun t =>
    decide (t.late = 0b1001#4) && decide (t.ovrCnt = 1#32) && decide (t.err = 0b00010#5) && decide (t.idx = 0)) = true := by
  decide

/-- A fire that finds its request pending is lost and counted (43_slot_scheduler R182). -/
theorem test_lost_fire : answers (usecStep true { aboutToTick 3 .zero with pend := 0b1000#4, late := 0b1000#4 })
    (fun t => decide (t.ovrCnt = 1#32) && decide (t.pend = 0b1000#4) && decide (t.stCnt = 0#20)) = true := by decide

/-- TICK with a timer still armed counts an overrun and leaves that timer running (43_slot_scheduler R185). -/
theorem test_overlap : answers (exec .tick { aboutToTick 3 .zero with
      btArmed := #v[false, true, false], btCnt := #v[0, 44, 0] }) (fun t =>
    decide (t.ovrCnt = 1#32) && decide (t.btArmed = #v[true, true, false]) && decide (t.btCnt = #v[0, 44, 0])) = true := by
  decide

/-- The counters saturate (00_scope R9). -/
theorem test_saturation : (raise .timingOverrun { start with ovrCnt := 0xFFFFFFFF#32 }).ovrCnt = 0xFFFFFFFF#32 := by decide

/-! ### A placed word is what the next step runs -/

theorem test_placed_command : answers (step (start.withFetchWord 40 0x300000016E)) (fun t =>
    decide (t = { start with result := 0x366#32 })) = true := by decide

theorem test_placed_request : answers (step (State.reset.withFetchWord 8 0x1)) (fun t =>
    decide (t = { State.reset with
      tb := 1#64, sched := .carrierFull, trace := [{ event := .carrierFull, tb := 1#64 }] })) = true := by decide

/-- TICK right after reset reads a slot that has never been written: whatever it holds, the carrier goes low. -/
theorem test_placed_tick : ∃ t, step (State.reset.withFetchWord 8 0x8) = .next t ∧ t.carrier = false ∧ t.idx = 1 :=
  ⟨_, rfl, by simp, by rw [tickWith_idx]; rfl⟩

/-- A carrier operation is placed as the request whose service issues it (log 6). -/
theorem test_placed_carrier_op : answers (step (State.reset.withFetchWord 2 0x2)) (fun t =>
    decide (t = { State.reset with
      tb := 1#64, sched := .carrierFull, trace := [{ event := .carrierFull, tb := 1#64 }] })) = true := by decide

theorem test_status_port : (statusPort { start with err := 0b10100#5, idx := 59 }).idx = 59#6 := by decide

/-! ### Witnesses: the hypotheses of the obligations can be met -/

/-- Boundary operands of every format are well-formed, among them fields above their legal range. -/
theorem witness_DecodeOfEncodeIsTheOperation :
    (Instr.encode { year := 16383, dayOfYear := 511, hour := 31, minute := 63 }).wf = true ∧
    (Instr.pack 1023).wf = true ∧ (Instr.isdst 16383 511).wf = true ∧ Instr.tick.wf = true := by decide

theorem witness_EncodeOfDecodeClearsIgnoredBits : ∃ (w : CommandWord) (i : Instr), decodeCmd w = .ok i :=
  ⟨0x20000003FF#40, .start, by decide⟩

/-- One word for each clause, at the boundaries `RSV` 1 and 3, `OP` 7 and 15, and `OP` 0 to 6. -/
theorem witness_CommandDecoderFollowsTheOpcodeMap :
    (0x0400000000#40).toNat / 2 ^ 34 % 2 ^ 2 = 1 ∧ (0x1C7E81E240#40).toNat / 2 ^ 34 % 2 ^ 2 = 3 ∧
    (0x7000000000#40).toNat / 2 ^ 36 = 7 ∧ (0xF000000000#40).toNat / 2 ^ 36 = 15 ∧
    (∀ op : Fin 7, (BitVec.ofNat 40 (op.val * 2 ^ 36)).toNat / 2 ^ 34 % 2 ^ 2 = 0 ∧
      (BitVec.ofNat 40 (op.val * 2 ^ 36)).toNat / 2 ^ 36 = op.val) := by decide

theorem witness_RequestAndCarrierCodesDecode :
    0b0011#4 ∉ [0b0001#4, 0b0010#4, 0b0100#4, 0b1000#4] ∧ 0b0000#4 ∉ [0b0001#4, 0b0010#4, 0b0100#4, 0b1000#4] ∧
    0b11#2 ∉ [0b01#2, 0b10#2] := by decide

theorem witness_StepRunsTheDecodedOperation :
    decodeCmd 0x300000016E#40 = .ok (.pack 366) ∧ decodeCmd 0x7000000000#40 = .error .reservedOpcode ∧
    { start with inputs := [.cmd 0x300000016E#40] }.inputs = Input.cmd 0x300000016E#40 :: [] ∧
    { start with inputs := [.usec true] }.inputs = Input.usec true :: [] ∧
    { start with inputs := [.reset] }.inputs = Input.reset :: [] ∧ start.inputs = [] := by decide

/-- One line of each kind, and the words R93 and R95 give. -/
theorem witness_ScriptLinesRunTheirSteps :
    (Instr.wf (.pack 366) = true ∧ encode (.pack 366) = .cmd 0x300000016E#40) ∧
    scriptSteps [.command (.pack 366), .literal 0x7000000000#40, .reset, .wait 2, .waitHeld 1] =
      [.cmd 0x300000016E#40, .cmd 0x7000000000#40, .reset, .usec false, .usec false, .usec true] := by decide

/-- Commands under a layout and a window that are not the defaults: the DST days are those of another rule. -/
def otherParams : Params := { layout := defaultLayout, dstWindow := fun _ => (10, 20) }

theorem witness_StepsTakeTheOpenParameters :
    answers (stepWith otherParams { start with inputs := [.cmd 0x507E800000#40] })
      (fun t => decide (t.result = 0x0014000A#32)) = true ∧
    Instr.start ≠ .encode sample0.sample ∧ Instr.start ≠ .dstwin 1 ∧ Instr.start ≠ .isdst 1 1 := by decide

/-- Two states with equal registers that differ in the trace and in the steps to come. -/
theorem witness_RegistersAndInputDecideTheStep :
    { start with trace := [{ event := .minuteDone, tb := 1 }], inputs := [.reset] }.toRegisters = start.toRegisters ∧
    { start with trace := [{ event := .minuteDone, tb := 1 }], inputs := [.reset] } ≠ start ∧
    Input.usec false ≠ .reset := by decide

theorem witness_NopLeavesTheState : (0x03FFFFFFFF#40).toNat < 2 ^ 34 := by decide

/-- The operands where the clauses of PackWritesThePackedWord, LeapAnswersTheGregorianRule, DstwinAnswersTheWindow,
DefaultWindowIsBounded, IsdstTestsTheWindow and ParameterisedCommandsRunWithTheDefaults meet. -/
theorem witness_query_operands :
    (0 ≤ 999 ∧ 999 ≤ 999 ∧ 999 < 1000 ∧ 1023 < 1024) ∧ (1 ≤ 1 ∧ 1 ≤ 9999 ∧ 1 ≤ 9999 ∧ 9999 ≤ 9999 ∧ 0 < 1 ∧ 9999 < 10000) ∧
    (1 ≤ 366 ∧ 366 ≤ 366 ∧ 366 < 367) := by decide

theorem witness_IllegalCommandOnlySetsItsFlag :
    (0x0400000000#40).toNat / 2 ^ 34 % 2 ^ 2 ≠ 0 ∧ 6 < (0x7000000000#40).toNat / 2 ^ 36 ∧ 999 < 1000 ∧
    (0 < 1 ∧ 9999 < 10000) ∧ 366 < 367 := by decide

theorem witness_ParameterisedCommandsRunWithTheDefaults : 1 ≤ 9999 ∧ 9999 ≤ 9999 ∧ 1 ≤ 366 ∧ 366 ≤ 366 ∧ 23 ≤ 23 ∧ 59 ≤ 59 := by
  decide

/-- A valid sample exists, and a sample that fails in one field only; the ranges' ends are valid. -/
theorem witness_EncodePublishesTheFrame :
    sampleOk { year := 1, dayOfYear := 1, hour := 0, minute := 0 } = true ∧
    sampleOk { year := 9999, dayOfYear := 366, hour := 23, minute := 59 } = true ∧
    sampleOk { year := 2024, dayOfYear := 60, hour := 24, minute := 0 } = false ∧
    ¬ (1 ≤ 2024 ∧ 2024 ≤ 9999 ∧ 1 ≤ 60 ∧ 60 ≤ 366 ∧ 24 ≤ 23 ∧ 0 ≤ 59) ∧
    (∀ i : SlotIndex, 7 ≠ slotAddress (1 - (0 : Bank)) i) := by decide

theorem witness_EncodeRejectsAnInvalidSample : ¬ (1 ≤ 0 ∧ 0 ≤ 9999 ∧ 1 ≤ 1 ∧ 1 ≤ 366 ∧ 0 ≤ 23 ∧ 0 ≤ 59) := by decide

/-- A lawful layout other than the default one: the two DST slots exchanged. -/
def swappedDst (i : SlotIndex) : SlotContent := if i = 57 then .dst 1 else if i = 58 then .dst 0 else defaultLayout i

theorem swappedDst_once : ∀ x : SlotContent, isFieldBit x = true →
    ∃ i : SlotIndex, swappedDst i = x ∧ ∀ j : SlotIndex, swappedDst j = x → j = i := by
  intro x hx
  cases x with
  | marker => simp [isFieldBit] at hx
  | zero => simp [isFieldBit] at hx
  | minute b => revert b; decide +kernel
  | hour b => revert b; decide +kernel
  | day b => revert b; decide +kernel
  | year b => revert b; decide +kernel
  | leapYear => decide +kernel
  | leapSecond => decide +kernel
  | dst b => revert b; decide +kernel

theorem witness_MarkersAndZerosNeverVary : LayoutLawful swappedDst :=
  ⟨by decide +kernel, by decide +kernel, swappedDst_once⟩

theorem witness_StartArmsTheSecondTickOnce :
    start.fvalid = false ∧ { start with fvalid := true, stRun := true }.stRun = true ∧
    ({ start with fvalid := true }.fvalid = true ∧ { start with fvalid := true }.stRun = false) ∧
    (0x20000003FF#40).toNat / 2 ^ 34 = 8 ∧ nextInput { start with stRun := true } ≠ .reset := by decide

theorem witness_CarrierOperationsAreUnconditional :
    (∃ t, exec .bitfire0 start = .next t ∧ Instr.bitfire0 ∉ [Instr.setCarrierLow, Instr.tick]) ∧
    (∃ t, exec .tick (aboutToTick 0 .one) = .next t ∧
      Instr.tick ∉ [Instr.setCarrierFull, Instr.bitfire0, Instr.bitfire1, Instr.bitfire2]) :=
  ⟨⟨_, rfl, by decide⟩, ⟨_, rfl, by decide⟩⟩

theorem witness_TickTransmitsTheSlot :
    (aboutToTick 59 .marker).slot? (aboutToTick 59 .marker).fsel (aboutToTick 59 .marker).idx = some .marker := by decide

theorem witness_BitfireRestoresFullPower : Instr.bitfire2 ∈ [Instr.bitfire0, Instr.bitfire1, Instr.bitfire2] := by decide

/-- Two states that differ in the index and agree in the slot's value. -/
theorem witness_DurationIsAFunctionOfTheSymbol :
    (aboutToTick 3 .one).slotRead (aboutToTick 3 .one).fsel (aboutToTick 3 .one).idx =
      (aboutToTick 44 .one).slotRead (aboutToTick 44 .one).fsel (aboutToTick 44 .one).idx := by decide

/-- Each clause of the Second Tick: idle, counting, firing with the request free, firing with it pending. -/
theorem witness_SecondTickCountsAndReloads :
    start.stRun = false ∧ (aboutToTick 0 .one).stRun = true ∧
    { aboutToTick 0 .one with stCnt := 999998#20 }.stCnt + 1 ≠ 1000000#20 ∧
    ((aboutToTick 0 .one).stCnt + 1 = 1000000#20 ∧ (aboutToTick 0 .one).pend.getLsbD 3 = false) ∧
    { aboutToTick 0 .one with pend := 0b1000#4 }.pend.getLsbD 3 = true ∧ (aboutToTick 0 .one).stCnt.toNat ≤ 999999 := by
  decide

/-- The alarms, each one microsecond ahead. -/
def timersDue : State := { start with btArmed := #v[true, true, true], btCnt := #v[199999, 499999, 799999], stRun := true }

/-- Each clause of a Bit Timer, for the three timers. -/
theorem witness_BitTimerCountsAndFiresOnce :
    (∀ k : Fin 3, start.btArmed[k] = false) ∧ (∀ k : Fin 3, timersDue.btArmed[k] = true) ∧
    (timersDue.btCnt[(0 : Fin 3)] + 1 = 200000#20 ∧ timersDue.btCnt[(1 : Fin 3)] + 1 = 500000#20 ∧
      timersDue.btCnt[(2 : Fin 3)] + 1 = 800000#20) ∧
    { timersDue with btCnt := #v[199998, 0, 0] }.btCnt[(0 : Fin 3)] + 1 ≠ 200000#20 ∧
    (∀ k : Fin 3, timersDue.pend.getLsbD k.val = false ∧
      { timersDue with pend := 0b0111#4 }.pend.getLsbD k.val = true) := by decide

/-- Late requests that are pending, and pending ones that are not late. -/
theorem witness_ArbiterServicesEveryRequestInOrder :
    ∀ i : Fin 4, { start with pend := 0b1101#4, late := 0b0101#4 }.late.getLsbD i.val = true →
      { start with pend := 0b1101#4, late := 0b0101#4 }.pend.getLsbD i.val = true := by decide

theorem witness_SecondTickNeverDrifts :
    (aboutToTick 0 .one).stRun = true ∧ (aboutToTick 0 .one).stCnt.toNat < 1000000 ∧
    Input.reset ∉ { aboutToTick 0 .one with inputs := [.usec true, .cmd 0, .usec false] }.inputs := by decide

theorem witness_ResetPutsEveryRegisterAtItsValue :
    { timersDue with inputs := [.reset, .usec false] }.inputs = .reset :: [.usec false] := by decide

/-- The frame store after one ENCODE of `sample0`. -/
@[irreducible] def liveFb : Memory := writeBank [] 1 (encodeFrame defaultParams sample0)

theorem liveFb_wf : Memory.wf liveFb = true := by unfold liveFb; exact wf_writeBank _ _ wf_reset

theorem liveFb_read (i : SlotIndex) : Memory.read liveFb (slotAddress 1 i) = some (encodeFrame defaultParams sample0 i) := by
  unfold liveFb; exact read_writeBank_self _ _ _ i

/-- A running scheduler in the middle of a minute with a committed frame: bank 1 in front, the ZERO timer armed. -/
def live : State :=
  { tb := 5, fb := liveFb, fsel := 1, fvalid := true, fresh := false, idx := 7, sched := .carrierLow, carrier := false,
    stRun := true, stCnt := 5, btArmed := #v[true, false, false], btCnt := #v[5, 0, 0], pend := 0, late := 0, err := 0,
    invCnt := 0, ovrCnt := 0, staleCnt := 0, result := 0, trace := [], inputs := [], epoch := 0 }

/-- `live` with other timers, requests and step ahead meets the register invariant wherever they fit together. -/
theorem live_inv (t : State) (hfb : t.fb = liveFb) (hsel : t.fsel = 1) (hv : t.fvalid = true)
    (hc : t.sched = .carrierLow ↔ t.carrier = false) (ht : TimersOk t) (hr : RequestsOk t) (he : ErrorsOk t) :
    RegInv defaultParams t := by
  refine ⟨by rw [hfb]; exact liveFb_wf, fun _ => ⟨sample0, fun i => ?_⟩, fun _ => hv, fun _ => hv, hc, ht, hr, he⟩
  rw [State.slot?, hfb, hsel]; exact liveFb_read i

theorem live_timers : TimersOk live :=
  ⟨by decide, by decide, by decide, by decide, by decide⟩

theorem live_requests : RequestsOk live := ⟨by decide, by decide, by decide⟩

theorem live_errors : ErrorsOk live := ⟨by decide, by decide, by decide⟩

/-- A state that is not the reset state meets the invariant, and it steps. -/
theorem witness_EveryStepKeepsTheRegisterInvariant : RegInv defaultParams live ∧ ∃ t, step live = .next t :=
  ⟨live_inv live rfl rfl rfl (by decide) live_timers live_requests live_errors, stepWith_next defaultParams live⟩

/-- One microsecond before the tick of slot 7, its Bit Timer long done. -/
def liveDue : State :=
  { live with stCnt := 999999#20, btArmed := #v[false, false, false], sched := .carrierFull, carrier := true }

theorem liveDue_inv : RegInv defaultParams liveDue :=
  live_inv liveDue rfl rfl rfl (by decide) ⟨by decide, by decide, by decide, by decide, by decide⟩
    ⟨by decide, by decide, by decide⟩ ⟨by decide, by decide, by decide⟩

theorem liveDue_pending : pending (countPhases liveDue) 3 = true := by
  rw [pending_countPhases_tick]; decide

theorem witness_TickReadsOnlyWrittenSlots : RegInv defaultParams liveDue ∧ pending (countPhases liveDue) 3 = true :=
  ⟨liveDue_inv, liveDue_pending⟩

/-- Both clauses: a tick is serviced, and one is held. -/
theorem witness_IndexMovesOnlyWithATick :
    (nextInput liveDue ≠ .reset ∧ ∃ t, step liveDue = .next t) ∧
    (nextInput liveDue = .usec false ∧ pending (countPhases (dropInput liveDue)) 3 = true) ∧
    nextInput { liveDue with inputs := [.usec true] } = .usec true :=
  ⟨⟨by decide, stepWith_next defaultParams liveDue⟩, ⟨rfl, liveDue_pending⟩, rfl⟩

theorem witness_OnlyResetClearsFlagsAndCounters :
    nextInput { timersDue with err := 0b11111#5, inputs := [.cmd 0#40] } ≠ .reset ∧
    ∃ t, step { timersDue with err := 0b11111#5, inputs := [.cmd 0#40] } = .next t := ⟨by decide, _, rfl⟩

theorem witness_CommandsLeaveTheSchedulerAlone :
    live.stRun = true ∧ live.fvalid = true ∧ { live with fresh := true }.fresh = true := ⟨rfl, rfl, rfl⟩

/-- Two frame stores that differ in the back bank only. -/
theorem witness_BackBankIsInvisibleToTheScheduler :
    (∀ i : SlotIndex, Memory.read ([(3, .one), (60, .marker)] : Memory) (slotAddress 0 i) =
      Memory.read ([(3, .one)] : Memory) (slotAddress 0 i)) ∧
    ([(3, .one), (60, .marker)] : Memory) ≠ [(3, .one)] := by decide

/-- A tick of slot 0 with no fresh frame. -/
theorem witness_StaleFrameOnlyAtAnUncommittedSlotZero :
    nextInput { aboutToTick 0 .one with fresh := false } ≠ .reset ∧
    (nextInput { aboutToTick 0 .one with fresh := false } = .usec false ∧
      pending (countPhases (dropInput { aboutToTick 0 .one with fresh := false })) 3 = true ∧
      (aboutToTick 0 .one).idx = 0) ∧
    answers (step { aboutToTick 0 .one with fresh := false }) (fun t =>
      decide (t.staleCnt ≠ { aboutToTick 0 .one with fresh := false }.staleCnt)) = true := by decide

/-- A just-started scheduler at slot 0, with the frame of `sample0` in the front bank. -/
def justStarted : State :=
  { live with idx := 0, fresh := true, sched := .idle, carrier := true, stCnt := 0, btArmed := #v[false, false, false] }

theorem witness_UndisturbedRunKeepsTheTimeCode :
    justStarted.inputs = [] ∧ justStarted.stRun = true ∧ justStarted.stCnt = 0 ∧ justStarted.idx = 0 ∧
    justStarted.carrier = true ∧ (∀ k : Fin 3, justStarted.btArmed[k] = false) ∧ justStarted.pend = 0 ∧
    justStarted.late = 0 ∧
    ∀ i : SlotIndex, justStarted.slot? justStarted.fsel i = some (encodeFrame defaultParams sample0 i) :=
  ⟨rfl, rfl, rfl, rfl, rfl, by decide, rfl, rfl, fun i => liveFb_read i⟩

/-- `live` is on time: the ZERO timer and the Second Tick have counted together since the tick. -/
theorem live_onTime : OnTime live :=
  ⟨rfl, rfl, by unfold atMostOneArmed; decide, by decide, by decide⟩

theorem liveDue_onTime : OnTime liveDue :=
  ⟨rfl, rfl, by unfold atMostOneArmed; decide, by decide, by decide⟩

/-- `live` one microsecond before the alarm of its ZERO timer. -/
def liveRising : State := { live with stCnt := 199999#20, btCnt := #v[199999#20, 0, 0] }

theorem liveRising_onTime : RegInv defaultParams liveRising ∧ OnTime liveRising :=
  ⟨live_inv liveRising rfl rfl rfl (by decide) ⟨by decide, by decide, by decide, by decide, by decide⟩
    ⟨by decide, by decide, by decide⟩ ⟨by decide, by decide, by decide⟩,
   rfl, rfl, by unfold atMostOneArmed; decide, by decide, by decide⟩

/-- Each clause: a tick, a timer that counts, one at its alarm, and full power. -/
theorem witness_UnheldStepsKeepTheTimeCode :
    (RegInv defaultParams liveDue ∧ OnTime liveDue ∧ nextInput liveDue ≠ .usec true ∧ liveDue.stRun = true ∧
      liveDue.stCnt + 1 = 1000000#20 ∧ ∃ t, stepWith defaultParams liveDue = .next t) ∧
    (RegInv defaultParams live ∧ OnTime live ∧ nextInput live = .usec false ∧ live.stCnt + 1 ≠ 1000000#20 ∧
      live.btArmed[(0 : Fin 3)] = true ∧ live.stCnt + 1 ≠ btAlarm 0) ∧
    (liveRising.btArmed[(0 : Fin 3)] = true ∧ liveRising.stCnt + 1 = btAlarm 0) ∧
    (∀ k : Fin 3, { liveDue with stCnt := 999998#20 }.btArmed[k] = false) :=
  ⟨⟨liveDue_inv, liveDue_onTime, by decide, rfl, by decide, stepWith_next _ _⟩,
   ⟨live_inv live rfl rfl rfl (by decide) live_timers live_requests live_errors, live_onTime, rfl, by decide, rfl, by decide⟩,
   ⟨rfl, by decide⟩, by decide⟩

/-- A Second Tick held for 199,999 microseconds, about to be held for one more. -/
def liveHeld : State :=
  { live with stCnt := 199998#20, btArmed := #v[false, false, false], pend := 0b1000#4, inputs := [.usec true] }

theorem liveHeld_inv : RegInv defaultParams liveHeld :=
  live_inv liveHeld rfl rfl rfl (by decide) ⟨by decide, by decide, by decide, by decide, by decide⟩
    ⟨by decide, by decide, by decide⟩ ⟨by decide, by decide, by decide⟩

theorem liveHeld_disciplined : Disciplined liveHeld :=
  ⟨by unfold atMostOneArmed; decide, by decide, by decide, by unfold heldInBounds; decide⟩

/-- The discipline is met in a state in which a Second Tick waits, at the bound, and after its next step. -/
theorem witness_BoundedStarvationKeepsOneTimer :
    RegInv defaultParams liveHeld ∧ Disciplined liveHeld ∧ ∃ t, stepWith defaultParams liveHeld = .next t ∧ heldInBounds t := by
  refine ⟨liveHeld_inv, liveHeld_disciplined, usec true (dropInput liveHeld), usecStep_eq true _, fun _ => ?_⟩
  rw [usec_stCnt, countPhases_stCnt_toNat (by decide) (by decide)]
  decide

/-- The second part: the tick is serviced in an unheld step. -/
theorem witness_BoundedStarvation_service :
    nextInput { liveHeld with inputs := [.usec false] } = .usec false ∧
    pending (countPhases (dropInput { liveHeld with inputs := [.usec false] })) 3 = true :=
  ⟨rfl, by rw [pending_countPhases_tick]; decide⟩

theorem witness_CarrierPortCodes :
    Event.diag .one ≠ .carrierLow ∧ Event.diag .one ≠ .carrierFull ∧ Event.minuteDone ≠ .carrierLow := by decide

end Sys2Proof.Tests
end

/-! SUPPORT. The parameterised step functions, by the environment's next step, by what a command word decodes to and by
the operation; and the same functions at the default parameters. -/

namespace Sys2Proof.Machine

/-! ### The environment's next step (log 1) -/

section
variable {s : State} {rest : List Input} {i : Input}

theorem nextInput_of_cons (h : s.inputs = i :: rest) : nextInput s = i := by
  simp only [nextInput, h]

theorem dropInput_of_cons (h : s.inputs = i :: rest) : dropInput s = { s with inputs := rest } := by
  simp only [dropInput, h, List.tail_cons]

theorem nextInput_of_nil (h : s.inputs = []) : nextInput s = .usec false := by
  simp only [nextInput, h]

theorem dropInput_of_nil (h : s.inputs = []) : dropInput s = s := by
  rw [dropInput, h, List.tail_nil, ← h]

/-- With a step listed, that step is run on the state with the rest of the list. -/
theorem stepWith_of_cons (c : Params) (h : s.inputs = i :: rest) :
    stepWith c s = runInputWith c i { s with inputs := rest } := by
  rw [stepWith, nextInput_of_cons h, dropInput_of_cons h]

/-- With no step listed, an undisturbed microsecond is run on the state as it is. -/
theorem stepWith_of_nil (c : Params) (h : s.inputs = []) : stepWith c s = usecStep false s := by
  rw [stepWith, nextInput_of_nil h, dropInput_of_nil h, runInputWith]

end

/-! ### What a command word runs (44_command_port R220, R223) -/

theorem commandStepWith_of_ok (c : Params) {w : CommandWord} {i : Instr} (h : decodeCmd w = .ok i) (s : State) :
    commandStepWith c w s = execWith c i s := by
  simp only [commandStepWith, h]

theorem commandStepWith_of_error (c : Params) {w : CommandWord} {e : DecodeError} (h : decodeCmd w = .error e)
    (s : State) : commandStepWith c w s = .next (raise .illegalCommand s) := by
  simp only [commandStepWith, h]

/-- IllegalCommand has no counter: raising it sets its flag only. -/
theorem raise_illegalCommand (s : State) : raise .illegalCommand s = { s with err := s.err ||| 0b01000#5 } := rfl

/-! ### The operations that look at no parameter -/

theorem execWith_eq_exec (c : Params) (s : State) {i : Instr} (hencode : ∀ x, i ≠ .encode x)
    (hdstwin : ∀ y, i ≠ .dstwin y) (hisdst : ∀ y d, i ≠ .isdst y d) : execWith c i s = exec i s := by
  cases i with
  | encode x => exact absurd rfl (hencode x)
  | dstwin y => exact absurd rfl (hdstwin y)
  | isdst y d => exact absurd rfl (hisdst y d)
  | nop | start | pack _ | leap _ | bitfire0 | bitfire1 | bitfire2 | tick | setCarrierLow | setCarrierFull => rfl

/-! ### The default parameters (log 3, log 4) -/

/-- The machine under the default parameters is the one of the host's interface, by definition, and so are its runs. -/
theorem runStepsWith_default (n : Nat) (s : State) : runStepsWith defaultParams n s = runSteps n s := rfl

end Sys2Proof.Machine

namespace Sys2Proof.Proofs

open Sys2Proof.Machine

/-- Settles O7: a step runs what the environment lists next, the dispatch of `execWith` is by the operation, and the
default machine is the host's by definition. -/
theorem stepsTakeTheOpenParameters : Obligations.StepsTakeTheOpenParameters := by
  refine ⟨fun c s rest => ⟨fun w i hs hw => ?_, fun w e hs hw => ?_, fun hold hs => ?_, fun hs => ?_,
    stepWith_of_nil c⟩, fun c s => ⟨fun _ => rfl, fun _ => rfl, fun _ _ => rfl, fun _ => execWith_eq_exec c s⟩,
    execWith_default, fun _ => rfl, runStepsWith_default⟩
  · exact (stepWith_of_cons c hs).trans (commandStepWith_of_ok c hw _)
  · rw [stepWith_of_cons c hs, runInputWith, commandStepWith_of_error c hw, raise_illegalCommand]
  · exact stepWith_of_cons c hs
  · exact stepWith_of_cons c hs

end Sys2Proof.Proofs

/-! SUPPORT. The register invariant of 10_state R21 as a whole: it looks at the registers only, it holds after `Reset`,
and commands and microseconds keep it. Laws/Invariant.lean has its parts through each shared operation. -/

namespace Sys2Proof.Machine

/-! ### What the invariant looks at -/

theorem RegInv.timersRequests {c : Params} {s : State} (h : RegInv c s) : TimersRequestsOk s := ⟨h.timers, h.requests⟩

/-- The invariant is one of the registers: the trace, the steps to come and the number of resets are not in it. -/
theorem regInv_of_toRegisters_eq {c : Params} {s t : State} (h : RegInv c s) (heq : t.toRegisters = s.toRegisters) :
    RegInv c t := by
  obtain ⟨r, trace, inputs, epoch⟩ := s
  obtain ⟨r', trace', inputs', epoch'⟩ := t
  obtain rfl : r' = r := heq
  obtain ⟨htimers, hrequests⟩ := timersRequestsOk_of_same (t := ⟨r', trace', inputs', epoch'⟩) h.timersRequests
    rfl rfl rfl rfl rfl rfl
  exact ⟨h.mem, h.front, h.running_valid, h.fresh_valid, h.carrier_sched, htimers, hrequests,
    errorsOk_of_same h.errors rfl rfl rfl rfl⟩

/-- A change that leaves the frame store, its selector, `FVALID` and `ST_RUN` alone keeps the invariant if it keeps the
rest of it. -/
theorem regInv_of_frontKept {c : Params} {s t : State} (h : RegInv c s) (hfb : t.fb = s.fb) (hfsel : t.fsel = s.fsel)
    (hfvalid : t.fvalid = s.fvalid) (hrun : t.stRun = s.stRun) (hfresh : t.fresh = true → s.fresh = true)
    (hcarrier : t.sched = .carrierLow ↔ t.carrier = false) (htimers : TimersRequestsOk t) (herrors : ErrorsOk t) :
    RegInv c t where
  mem := hfb ▸ h.mem
  front hv := by
    obtain ⟨v, hslots⟩ := h.front (hfvalid ▸ hv)
    exact ⟨v, fun i => by rw [slot?_of_fb_eq hfb, hfsel]; exact hslots i⟩
  running_valid hr := by rw [hfvalid]; exact h.running_valid (hrun ▸ hr)
  fresh_valid hf := by rw [hfvalid]; exact h.fresh_valid (hfresh hf)
  carrier_sched := hcarrier
  timers := htimers.timers
  requests := htimers.requests
  errors := herrors

/-! ### Reset (10_state R46) -/

/-- The reset state meets the invariant. -/
theorem regInv_reset (c : Params) : RegInv c State.reset where
  mem := wf_reset
  front hv := by cases hv
  running_valid hr := by cases hr
  fresh_valid hf := by cases hf
  carrier_sched := by decide
  timers := ⟨by decide, by decide, by decide, by decide, by decide⟩
  requests := ⟨by decide, by decide, by decide⟩
  errors := ⟨by decide, by decide, by decide⟩

/-- The step `Reset` leaves the registers of the reset state, whatever the state before it. -/
theorem resetStep_toRegisters (s : State) : (resetStep s).toRegisters = State.reset.toRegisters := rfl

theorem regInv_resetStep (c : Params) (s : State) : RegInv c (resetStep s) :=
  regInv_of_toRegisters_eq (regInv_reset c) (resetStep_toRegisters s)

/-! ### Commands -/

/-- Recording an error keeps the invariant. -/
theorem regInv_raise {c : Params} {s : State} (x : ErrorClass) (h : RegInv c s) : RegInv c (raise x s) :=
  regInv_of_frontKept h rfl rfl rfl rfl id h.carrier_sched
    (timersRequestsOk_of_same h.timersRequests rfl rfl rfl rfl rfl rfl) (errorsOk_raise x h.errors)

/-- Writing the answer of a query keeps the invariant. -/
theorem regInv_answer {c : Params} {s : State} (r : BitVec 32) (h : RegInv c s) : RegInv c (answer r s) :=
  regInv_of_frontKept h rfl rfl rfl rfl id h.carrier_sched
    (timersRequestsOk_of_same h.timersRequests rfl rfl rfl rfl rfl rfl)
    (errorsOk_of_same h.errors rfl rfl rfl rfl)

/-- Arming the Second Tick keeps the invariant where a frame is committed (10_state R26). -/
theorem regInv_armSecondTick {c : Params} {s : State} (hv : s.fvalid = true) (h : RegInv c s) :
    RegInv c (armSecondTick s) where
  mem := h.mem
  front := h.front
  running_valid _ := hv
  fresh_valid := h.fresh_valid
  carrier_sched := h.carrier_sched
  timers := ⟨by simp, fun _ => rfl, h.timers.btCnt_le, h.timers.btCnt_lt, fun _ _ => rfl⟩
  requests := ⟨h.requests.late_pend, fun _ _ => rfl, h.requests.armed_not_pending⟩
  errors := errorsOk_of_same h.errors rfl rfl rfl rfl

/-- Publishing the frame of a valid sample keeps the invariant: it becomes the front bank's (42_frame_encoder R160). -/
theorem regInv_publish {c : Params} {s : State} (v : ValidSample) (h : RegInv c s) :
    RegInv c (publish (encodeFrame c v) s) :=
  have htimers : TimersRequestsOk (publish (encodeFrame c v) s) := timersRequestsOk_of_same h.timersRequests
    (publish_stCnt ..) (publish_stRun ..) (publish_btCnt ..) (publish_btArmed ..) (publish_pend ..) (publish_late ..)
  { mem := by rw [publish_fb]; exact wf_writeBank _ _ h.mem
    front := fun _ => ⟨v, fun i => by rw [publish_fsel]; exact publish_slot?_back _ s i⟩
    running_valid := fun _ => publish_fvalid ..
    fresh_valid := fun _ => publish_fvalid ..
    carrier_sched := by rw [publish_sched, publish_carrier]; exact h.carrier_sched
    timers := htimers.timers
    requests := htimers.requests
    errors := errorsOk_of_same h.errors (publish_err ..) (publish_invCnt ..) (publish_ovrCnt ..) (publish_staleCnt ..) }

/-- Every command keeps the invariant. -/
theorem regInv_commandEffect {c : Params} {s t : State} (h : RegInv c s) (he : CommandEffect c s t) : RegInv c t := by
  cases he with
  | same => exact h
  | illegal => exact regInv_raise _ h
  | noFrame _ => exact regInv_raise _ h
  | invalid => exact regInv_raise _ h
  | armed hv _ => exact regInv_armSecondTick hv h
  | answered r => exact regInv_answer r h
  | published v => exact regInv_publish v h

/-! ### A microsecond -/

/-- A service never sets `FRESH` (43_slot_scheduler R184 line 2). -/
theorem fresh_of_handler_fresh (i : Fin 4) {s : State} (h : (handler i s).fresh = true) : s.fresh = true := by
  fin_cases i
  · exact h
  · exact h
  · exact h
  · by_contra hf
    simp [handler, hf] at h

theorem fresh_of_serve_fresh (i : Fin 4) {s : State} (h : (serve i s).fresh = true) : s.fresh = true := by
  unfold serve at h
  split at h
  · exact fresh_of_handler_fresh (s := acknowledge i s) i h
  · exact h

theorem fresh_of_usec_fresh (hold : Bool) {s : State} (h : (usec hold s).fresh = true) : s.fresh = true := by
  cases hold with
  | true => simpa [usec] using h
  | false =>
    rw [← countPhases_fresh]
    exact fresh_of_serve_fresh 0 (fresh_of_serve_fresh 1 (fresh_of_serve_fresh 2 (fresh_of_serve_fresh 3 h)))

/-- Every service leaves `SCHED` and `CARRIER` in step, whatever they were (10_state R28). -/
theorem handler_carrier_sched (i : Fin 4) (s : State) :
    (handler i s).sched = .carrierLow ↔ (handler i s).carrier = false := by
  fin_cases i <;> simp [handler]

theorem serve_carrier_sched (i : Fin 4) {s : State} (h : s.sched = .carrierLow ↔ s.carrier = false) :
    (serve i s).sched = .carrierLow ↔ (serve i s).carrier = false := by
  unfold serve
  split
  · exact handler_carrier_sched i _
  · exact h

theorem usec_carrier_sched (hold : Bool) {s : State} (h : s.sched = .carrierLow ↔ s.carrier = false) :
    (usec hold s).sched = .carrierLow ↔ (usec hold s).carrier = false := by
  have hc : (countPhases s).sched = .carrierLow ↔ (countPhases s).carrier = false := by simpa using h
  cases hold with
  | true => simpa [usec] using h
  | false =>
    exact serve_carrier_sched 3 (serve_carrier_sched 2 (serve_carrier_sched 1 (serve_carrier_sched 0 hc)))

/-- The service of the Second Tick keeps timers and requests where no Bit Timer's request is pending. -/
theorem timersRequestsOk_serveTick {s : State} (h : TimersRequestsOk s)
    (hbits : ∀ k : Fin 3, pending s k.castSucc = false) : TimersRequestsOk (serve 3 s) := by
  cases hp : pending s 3 with
  | false => rw [serve_of_not_pending hp]; exact h
  | true =>
    rw [serve_of_pending hp]
    refine timersRequestsOk_tickWith (timersRequestsOk_acknowledge h 3) _ (h.requests.pend_running 3 hp) ?_
    rw [pending_acknowledge, hbits, Bool.false_and]

/-- Phase 4 services the Bit Timers first, so TICK finds none of their requests pending (43_slot_scheduler R183). -/
theorem timersRequestsOk_serveAll {s : State} (h : TimersRequestsOk s) : TimersRequestsOk (serveAll s) := by
  have hlow : TimersRequestsOk (serve 2 (serve 1 (serve 0 s))) :=
    timersRequestsOk_serveLow (timersRequestsOk_serveLow (timersRequestsOk_serveLow h 0 (by decide)) 1 (by decide))
      2 (by decide)
  refine timersRequestsOk_serveTick hlow fun k => ?_
  fin_cases k <;> simp [pending_serve]

theorem timersRequestsOk_usec (hold : Bool) {s : State} (h : TimersRequestsOk s) : TimersRequestsOk (usec hold s) := by
  have hc := timersRequestsOk_countPhases h
  cases hold with
  | true =>
    exact timersRequestsOk_markLate (timersRequestsOk_markLate (timersRequestsOk_markLate
      (timersRequestsOk_markLate hc 0) 1) 2) 3
  | false => exact timersRequestsOk_serveAll hc

theorem errorsOk_usec (hold : Bool) {s : State} (h : ErrorsOk s) : ErrorsOk (usec hold s) := by
  have hc := errorsOk_countPhases h
  cases hold with
  | true => exact errorsOk_markLate 3 (errorsOk_markLate 2 (errorsOk_markLate 1 (errorsOk_markLate 0 hc)))
  | false => exact errorsOk_serve 3 (errorsOk_serve 2 (errorsOk_serve 1 (errorsOk_serve 0 hc)))

/-- A microsecond keeps the invariant. -/
theorem regInv_usec {c : Params} {s : State} (hold : Bool) (h : RegInv c s) : RegInv c (usec hold s) :=
  regInv_of_frontKept h (usec_fb ..) (usec_fsel ..) (usec_fvalid ..) (usec_stRun ..) (fresh_of_usec_fresh hold)
    (usec_carrier_sched hold h.carrier_sched) (timersRequestsOk_usec hold h.timersRequests)
    (errorsOk_usec hold h.errors)

/-! ### The step -/

/-- Every step keeps the invariant, by the kind of the environment's next step. -/
theorem regInv_stepWith {c : Params} {s t : State} (h : RegInv c s) (ht : stepWith c s = .next t) : RegInv c t := by
  have hd : RegInv c (dropInput s) := regInv_of_toRegisters_eq h rfl
  obtain ⟨-, hs⟩ | ⟨_, u, -, hs, he⟩ | ⟨hold, -, hs⟩ := stepWith_cases c s
  · cases hs.symm.trans ht
    exact regInv_resetStep c _
  · cases hs.symm.trans ht
    exact regInv_commandEffect hd he
  · cases hs.symm.trans ht
    exact regInv_usec hold hd

end Sys2Proof.Machine

namespace Sys2Proof.Proofs

open Sys2Proof.Machine

/-- Settles O44: each of the three kinds of step keeps the invariant; `step` is the step under the defaults. -/
theorem everyStepKeepsTheRegisterInvariant : Obligations.EveryStepKeepsTheRegisterInvariant :=
  ⟨fun _ _ _ => regInv_stepWith, fun _ _ => regInv_stepWith⟩

/-- Settles O43: `Reset` leaves the registers of the reset state, and those meet the invariant. -/
theorem resetMeetsTheRegisterInvariant : Obligations.ResetMeetsTheRegisterInvariant :=
  fun c => ⟨regInv_reset c, regInv_resetStep c⟩

/-- Settles O42: the step listed is `Reset`, and its state is written out in the model. -/
theorem resetPutsEveryRegisterAtItsValue : Obligations.ResetPutsEveryRegisterAtItsValue := by
  intro s rest hs
  refine ⟨resetStep { s with inputs := rest }, stepWith_of_cons defaultParams hs, rfl, rfl, rfl, rfl, rfl, rfl, rfl,
    rfl, rfl, ?_, rfl, rfl, rfl, rfl, rfl, rfl, rfl, rfl, fun _ _ => rfl⟩
  show ∀ k : Fin 3, State.reset.btArmed[k] = false ∧ State.reset.btCnt[k] = 0
  decide

/-- Settles O45: a pending Second Tick says that the Second Tick runs, so `FVALID` is set, and the front bank holds a
frame, which the counting phases leave alone. -/
theorem tickReadsOnlyWrittenSlots : Obligations.TickReadsOnlyWrittenSlots := by
  intro c s h hp
  have hrun : (countPhases s).stRun = true :=
    (timersRequestsOk_countPhases h.timersRequests).requests.pend_running 3 hp
  rw [countPhases_stRun] at hrun
  obtain ⟨v, hslots⟩ := h.front (h.running_valid hrun)
  exact ⟨v, by rw [slot?_of_fb_eq (countPhases_fb s), countPhases_fsel, countPhases_idx]; exact hslots s.idx⟩

end Sys2Proof.Proofs

/-! SUPPORT. What a step that is not `Reset` never takes away (10_state R25, R29, R34, R35), what moves `IDX`
(10_state R23), and how the Second Tick counts through any run (10_state R29). -/

namespace Sys2Proof.Machine

/-! ### Flags, counters, latched bits and the trace -/

/-- What `t` has kept of `s`: every error flag, every counter's value at least, the running Second Tick, `FVALID`, and
the events of the trace. -/
structure RecordsKept (s t : State) : Prop where
  err : s.err &&& t.err = s.err
  invCnt : s.invCnt.toNat ≤ t.invCnt.toNat
  ovrCnt : s.ovrCnt.toNat ≤ t.ovrCnt.toNat
  staleCnt : s.staleCnt.toNat ≤ t.staleCnt.toNat
  stRun : s.stRun = true → t.stRun = true
  fvalid : s.fvalid = true → t.fvalid = true
  trace : s.trace <+: t.trace

theorem RecordsKept.refl (s : State) : RecordsKept s s :=
  ⟨BitVec.and_self, le_rfl, le_rfl, le_rfl, id, id, List.prefix_rfl⟩

theorem RecordsKept.trans {s t u : State} (h : RecordsKept s t) (h' : RecordsKept t u) : RecordsKept s u where
  err := err_sub_trans h.err h'.err
  invCnt := h.invCnt.trans h'.invCnt
  ovrCnt := h.ovrCnt.trans h'.ovrCnt
  staleCnt := h.staleCnt.trans h'.staleCnt
  stRun hr := h'.stRun (h.stRun hr)
  fvalid hv := h'.fvalid (h.fvalid hv)
  trace := h.trace.trans h'.trace

/-- The records themselves, the trace apart. -/
def records (s : State) : BitVec 5 × BitVec 32 × BitVec 32 × BitVec 32 × Bool × Bool :=
  (s.err, s.invCnt, s.ovrCnt, s.staleCnt, s.stRun, s.fvalid)

/-- A change that touches none of the records but may add to the trace. -/
theorem recordsKept_of_same {s t : State} (h : records t = records s) (htrace : s.trace <+: t.trace) :
    RecordsKept s t := by
  simp only [records, Prod.mk.injEq] at h
  obtain ⟨herr, hinv, hovr, hstale, hrun, hvalid⟩ := h
  refine ⟨?_, hinv ▸ le_rfl, hovr ▸ le_rfl, hstale ▸ le_rfl, hrun ▸ id, hvalid ▸ id, htrace⟩
  rw [herr, BitVec.and_self]

/-- The same with an operation after the change. -/
theorem RecordsKept.after {s s' t : State} (h : RecordsKept s' t) (hs : records s' = records s)
    (htrace : s'.trace = s.trace) : RecordsKept s t :=
  (recordsKept_of_same hs (htrace ▸ List.prefix_rfl)).trans h

/-- A counter that may have been bumped has not fallen. -/
theorem le_ite_satSucc (p : Prop) [Decidable p] (x : BitVec 32) : x.toNat ≤ (if p then satSucc x else x).toNat := by
  split
  · exact le_satSucc x
  · exact le_rfl

theorem recordsKept_raise (x : ErrorClass) (s : State) : RecordsKept s (raise x s) where
  err := err_sub_or ..
  invCnt := le_ite_satSucc ..
  ovrCnt := le_ite_satSucc ..
  staleCnt := le_ite_satSucc ..
  stRun := id
  fvalid := id
  trace := List.prefix_rfl

theorem recordsKept_fire (i : Fin 4) (s : State) : RecordsKept s (fire i s) := by
  cases h : pending s i with
  | true => rw [fire_of_pending s h]; exact recordsKept_raise _ s
  | false => rw [fire_of_not_pending s h]; exact recordsKept_of_same rfl List.prefix_rfl

theorem recordsKept_markLate (i : Fin 4) (s : State) : RecordsKept s (markLate i s) := by
  unfold markLate
  split
  · exact (recordsKept_raise _ _).after rfl rfl
  · exact .refl s

theorem recordsKept_holdAll (s : State) : RecordsKept s (holdAll s) :=
  (((recordsKept_markLate 0 s).trans (recordsKept_markLate 1 _)).trans (recordsKept_markLate 2 _)).trans
    (recordsKept_markLate 3 _)

theorem recordsKept_tickWith (v : SlotValue) (s : State) : RecordsKept s (tickWith v s) where
  err := by rw [tickWith_err]; exact err_sub_trans (err_sub_or ..) (err_sub_or ..)
  invCnt := by rw [tickWith_invCnt]
  ovrCnt := by rw [tickWith_ovrCnt]; exact le_ite_satSucc ..
  staleCnt := by rw [tickWith_staleCnt]; exact le_ite_satSucc ..
  stRun := by rw [tickWith_stRun]; exact id
  fvalid := by rw [tickWith_fvalid]; exact id
  trace := prefix_trace_tickWith v s

theorem recordsKept_handler (i : Fin 4) (s : State) : RecordsKept s (handler i s) := by
  have hbit : RecordsKept s (bitFire s) := recordsKept_of_same rfl (List.prefix_append ..)
  fin_cases i
  · exact hbit
  · exact hbit
  · exact hbit
  · exact recordsKept_tickWith _ s

theorem recordsKept_serve (i : Fin 4) (s : State) : RecordsKept s (serve i s) := by
  unfold serve
  split
  · exact (recordsKept_handler i (acknowledge i s)).after rfl rfl
  · exact .refl s

theorem recordsKept_serveAll (s : State) : RecordsKept s (serveAll s) :=
  (((recordsKept_serve 0 s).trans (recordsKept_serve 1 _)).trans (recordsKept_serve 2 _)).trans (recordsKept_serve 3 _)

theorem recordsKept_countSecondTick (s : State) : RecordsKept s (countSecondTick s) := by
  unfold countSecondTick
  split
  · split
    · exact (recordsKept_fire 3 (setStCnt 0 s)).after rfl rfl
    · exact recordsKept_of_same rfl List.prefix_rfl
  · exact .refl s

theorem recordsKept_countBitTimer (k : Fin 3) (s : State) : RecordsKept s (countBitTimer k s) := by
  unfold countBitTimer
  split
  · split
    · exact (recordsKept_fire k.castSucc (disarmBitTimer k (bumpBitTimer k s))).after rfl rfl
    · exact recordsKept_of_same rfl List.prefix_rfl
  · exact .refl s

theorem recordsKept_countPhases (s : State) : RecordsKept s (countPhases s) :=
  ((((recordsKept_countSecondTick (countTimebase s)).trans (recordsKept_countBitTimer 0 _)).trans
    (recordsKept_countBitTimer 1 _)).trans (recordsKept_countBitTimer 2 _)).after rfl rfl

theorem recordsKept_usec (hold : Bool) (s : State) : RecordsKept s (usec hold s) := by
  cases hold with
  | true => exact (recordsKept_countPhases s).trans (recordsKept_holdAll _)
  | false => exact (recordsKept_countPhases s).trans (recordsKept_serveAll _)

theorem recordsKept_commandEffect {c : Params} {s t : State} (h : CommandEffect c s t) : RecordsKept s t := by
  cases h with
  | same => exact .refl s
  | illegal => exact recordsKept_raise _ s
  | noFrame _ => exact recordsKept_raise _ s
  | invalid => exact recordsKept_raise _ s
  | armed _ _ => exact ⟨BitVec.and_self, le_rfl, le_rfl, le_rfl, fun _ => rfl, id, List.prefix_rfl⟩
  | answered r => exact recordsKept_of_same rfl List.prefix_rfl
  | published v =>
    refine ⟨?_, ?_, ?_, ?_, ?_, fun _ => publish_fvalid .., ?_⟩ <;> simp

/-! ### `IDX` -/

theorem CommandEffect.idx_eq {c : Params} {s t : State} (h : CommandEffect c s t) : t.idx = s.idx := by
  cases h <;> simp

/-- The service of a Bit Timer leaves `IDX` (43_slot_scheduler R188). -/
theorem serve_idx_of_bit {i : Fin 4} (hi : i ≠ 3) (s : State) : (serve i s).idx = s.idx := by
  unfold serve
  split
  · fin_cases i
    · rfl
    · rfl
    · rfl
    · exact absurd rfl hi
  · rfl

/-- The service of the Second Tick moves `IDX` by one (43_slot_scheduler R186). -/
theorem serve_idx_of_tick (s : State) : (serve 3 s).idx = if pending s 3 = true then s.idx + 1 else s.idx := by
  unfold serve
  split
  · simp [handler]
  · rfl

theorem serveAll_idx (s : State) : (serveAll s).idx = if pending s 3 = true then s.idx + 1 else s.idx := by
  have hbits : (serve 2 (serve 1 (serve 0 s))).idx = s.idx := by
    rw [serve_idx_of_bit (by decide), serve_idx_of_bit (by decide), serve_idx_of_bit (by decide)]
  have hpend : pending (serve 2 (serve 1 (serve 0 s))) 3 = pending s 3 := by simp [pending_serve]
  rw [serveAll, serve_idx_of_tick, hbits, hpend]

/-! ### The Second Tick through a run -/

theorem CommandEffect.tb_eq {c : Params} {s t : State} (h : CommandEffect c s t) : t.tb = s.tb := by
  cases h <;> simp

theorem CommandEffect.inputs_eq {c : Params} {s t : State} (h : CommandEffect c s t) : t.inputs = s.inputs := by
  cases h <;> simp

/-- A command leaves a running Second Tick running and its counter alone: START arms it only where it stands still
(43_slot_scheduler R172). -/
theorem CommandEffect.secondTick_eq_of_running {c : Params} {s t : State} (h : CommandEffect c s t)
    (hr : s.stRun = true) : t.stRun = true ∧ t.stCnt = s.stCnt := by
  cases h with
  | armed _ hidle => cases hr.symm.trans hidle
  | same | illegal | noFrame _ | invalid | answered _ | published _ => simp [hr]

/-- The Second Tick of `t` is that of the running `s` after `n` microseconds, and so is the timebase. -/
structure TickedOn (s t : State) (n : Nat) : Prop where
  stRun : t.stRun = true
  stCnt : t.stCnt.toNat = (s.stCnt.toNat + n) % 1000000
  tb : t.tb = s.tb + BitVec.ofNat 64 n

theorem TickedOn.trans {s t u : State} {m n : Nat} (h : TickedOn s t m) (h' : TickedOn t u n) :
    TickedOn s u (m + n) where
  stRun := h'.stRun
  stCnt := by rw [h'.stCnt, h.stCnt]; omega
  tb := by rw [h'.tb, h.tb, BitVec.add_assoc, BitVec.ofNat_add]

theorem TickedOn.stCnt_lt {s t : State} {n : Nat} (h : TickedOn s t n) : t.stCnt.toNat < 1000000 := by
  rw [h.stCnt]; exact Nat.mod_lt _ (by decide)

theorem usecCount_cons (i : Input) (l : List Input) : usecCount (i :: l) = usecCount [i] + usecCount l := by
  rw [← List.singleton_append]
  simp only [usecCount, List.filter_append, List.length_append]

theorem usecCount_cmd (w : CommandWord) : usecCount [.cmd w] = 0 := rfl

theorem usecCount_usec (hold : Bool) : usecCount [.usec hold] = 1 := by cases hold <;> rfl

/-- One listed step that is not `Reset` is taken off the list, and the Second Tick counts it if it is a microsecond. -/
theorem tickedOn_stepWith (c : Params) {s : State} {i : Input} {rest : List Input} (hin : s.inputs = i :: rest)
    (hi : i ≠ .reset) (hr : s.stRun = true) (hlt : s.stCnt.toNat < 1000000) :
    ∃ t, stepWith c s = .next t ∧ t.inputs = rest ∧ TickedOn s t (usecCount [i]) := by
  have hrest : (dropInput s).inputs = rest := by rw [dropInput_inputs, hin, List.tail_cons]
  have hnext : nextInput s = i := nextInput_of_cons hin
  obtain ⟨h, -⟩ | ⟨w, t, h, ht, he⟩ | ⟨hold, h, ht⟩ := stepWith_cases c s
  · exact absurd (hnext.symm.trans h) hi
  · obtain ⟨hrun, hcnt⟩ := he.secondTick_eq_of_running hr
    obtain rfl : i = .cmd w := hnext.symm.trans h
    refine ⟨t, ht, he.inputs_eq.trans hrest, hrun, ?_, ?_⟩
    · rw [hcnt, usecCount_cmd, dropInput_stCnt, Nat.add_zero, Nat.mod_eq_of_lt hlt]
    · rw [he.tb_eq, usecCount_cmd, dropInput_tb, BitVec.add_zero]
  · obtain rfl : i = .usec hold := hnext.symm.trans h
    refine ⟨_, ht, (usec_inputs ..).trans hrest, (usec_stRun ..).trans hr, ?_, ?_⟩
    · rw [usec_stCnt, countPhases_stCnt_toNat (s := dropInput s) hr hlt, usecCount_usec, dropInput_stCnt]
    · rw [usec_tb, usecCount_usec, dropInput_tb]; rfl

/-- The listed steps one after another, by induction over the list. -/
theorem tickedOn_runStepsWith (c : Params) (l : List Input) (s : State) (hin : s.inputs = l) (hl : Input.reset ∉ l)
    (hr : s.stRun = true) (hlt : s.stCnt.toNat < 1000000) :
    ∃ t, runStepsWith c l.length s = .next t ∧ t.inputs = [] ∧ TickedOn s t (usecCount l) := by
  induction l generalizing s with
  | nil => exact ⟨s, runStepsWith_zero s, hin, hr, (Nat.mod_eq_of_lt hlt).symm, (BitVec.add_zero _).symm⟩
  | cons i rest ih =>
    obtain ⟨hi, hrest⟩ := List.ne_and_not_mem_of_not_mem_cons hl
    obtain ⟨t, ht, htin, hst⟩ := tickedOn_stepWith c hin (Ne.symm hi) hr hlt
    obtain ⟨u, hu, huin, htu⟩ := ih t htin hrest hst.stRun hst.stCnt_lt
    refine ⟨u, ?_, huin, ?_⟩
    · rw [List.length_cons, runStepsWith_succ _ ht, hu]
    · rw [usecCount_cons]; exact hst.trans htu

end Sys2Proof.Machine

namespace Sys2Proof.Proofs

open Sys2Proof.Machine

/-- Settles O47: a command and a microsecond keep the records, operation by operation. -/
theorem onlyResetClearsFlagsAndCounters : Obligations.OnlyResetClearsFlagsAndCounters := by
  intro c s t hreset ht
  have hkept : RecordsKept (dropInput s) t := by
    obtain ⟨h, -⟩ | ⟨_, u, -, hs, he⟩ | ⟨hold, -, hs⟩ := stepWith_cases c s
    · exact absurd h hreset
    · cases hs.symm.trans ht
      exact recordsKept_commandEffect he
    · cases hs.symm.trans ht
      exact recordsKept_usec hold _
  obtain ⟨herr, hinv, hovr, hstale, hrun, hvalid, htrace⟩ := hkept
  exact ⟨herr, hinv, hovr, hstale, hrun, hvalid, htrace⟩

/-- Settles O48: commands and held microseconds leave `IDX`; phase 4 moves it with the service of request 3, which the
services before it leave pending. -/
theorem indexMovesOnlyWithATick : Obligations.IndexMovesOnlyWithATick := by
  intro c s t hreset ht
  obtain ⟨h, -⟩ | ⟨w, u, h, hs, he⟩ | ⟨hold, h, hs⟩ := stepWith_cases c s
  · exact absurd h hreset
  · cases hs.symm.trans ht
    exact ⟨fun ⟨h', _⟩ => (by cases h.symm.trans h'), fun _ => he.idx_eq⟩
  · cases hs.symm.trans ht
    cases hold with
    | true => exact ⟨fun ⟨h', _⟩ => (by cases h.symm.trans h'), fun _ => by simp [usec]⟩
    | false =>
      have hidx : (usec false (dropInput s)).idx =
          if pending (countPhases (dropInput s)) 3 = true then s.idx + 1 else s.idx := by
        show (serveAll _).idx = _
        rw [serveAll_idx, countPhases_idx, dropInput_idx]
      refine ⟨fun ⟨_, hp⟩ => ?_, fun hno => ?_⟩
      · rw [hidx, if_pos hp, Fin.val_add]; rfl
      · rw [hidx, if_neg fun hp => hno ⟨h, hp⟩]

/-- Settles O41: the counter of a running Second Tick counts the microseconds of the list and nothing else. -/
theorem secondTickNeverDrifts : Obligations.SecondTickNeverDrifts := by
  intro c s hr hlt hl
  obtain ⟨t, ht, hin, hticked⟩ := tickedOn_runStepsWith c s.inputs s rfl hl hr hlt
  exact ⟨t, ht, hticked.stRun, hin, hticked.stCnt, hticked.tb⟩

end Sys2Proof.Proofs

/-! SUPPORT. What decides a step and what it only records (10_state R20, R27, R34, R36). An operation is followed on two
states at once, alike but for their traces, the steps to come, and `SCHED`, `ERR` and `RESULT`. -/

namespace Sys2Proof.Machine

/-! ### Two runs of one operation -/

/-- The state with everything cleared that no operation reads to decide anything. -/
def decisive (s : State) : State := { s with sched := .idle, err := 0, result := 0, trace := [], inputs := [] }

/-- `SCHED`, `ERR` and `RESULT`. -/
abbrev StatusRegisters := Sched × BitVec 5 × BitVec 32

/-- The status registers of 10_state R27, R34 and R36. -/
def status (s : State) : StatusRegisters := (s.sched, s.err, s.result)

/-- `s` and `t`, reached from `s₀` and `t₀`, are alike: what decides a step is equal, the status registers are equal if
they were, the steps to come are those of the beginning, and the same events have been appended. -/
structure Alike (s₀ t₀ s t : State) : Prop where
  decisive_eq : decisive s = decisive t
  status_eq : status s₀ = status t₀ → status s = status t
  inputs_left : s.inputs = s₀.inputs
  inputs_right : t.inputs = t₀.inputs
  events : ∃ events, s.trace = s₀.trace ++ events ∧ t.trace = t₀.trace ++ events

theorem Alike.start {s t : State} (h : decisive s = decisive t) : Alike s t s t :=
  ⟨h, id, rfl, rfl, [], (List.append_nil _).symm, (List.append_nil _).symm⟩

/-- What is read of the deciding part alone is the same on both sides. -/
theorem Alike.read {s₀ t₀ s t : State} (h : Alike s₀ t₀ s t) {α : Type} {p : State → α}
    (hp : ∀ u, p u = p (decisive u) := by intro; rfl) : p s = p t := by
  rw [hp s, hp t, h.decisive_eq]

/-- Equal deciding parts and equal status registers are equal registers. -/
theorem toRegisters_eq_of_decisive_eq {s t : State} (hd : decisive s = decisive t) (hs : status s = status t) :
    s.toRegisters = t.toRegisters := by
  obtain ⟨⟨⟩, trace, inputs, epoch⟩ := s
  obtain ⟨⟨⟩, trace', inputs', epoch'⟩ := t
  simp only [decisive, status, State.mk.injEq, Registers.mk.injEq, Prod.mk.injEq] at hd hs ⊢
  tauto

/-- Equal deciding parts, with the trace and the steps to come equal, differ in the status registers only. -/
theorem eq_with_status_of_decisive_eq {s t : State} (hd : decisive s = decisive t) (htrace : s.trace = t.trace)
    (hinputs : s.inputs = t.inputs) : t = { s with sched := t.sched, err := t.err, result := t.result } := by
  obtain ⟨⟨⟩, trace, inputs, epoch⟩ := s
  obtain ⟨⟨⟩, trace', inputs', epoch'⟩ := t
  simp only [decisive, State.mk.injEq, Registers.mk.injEq] at hd htrace hinputs ⊢
  simp only [hd, htrace, hinputs, and_self]

/-- The operation does alike to states that are alike. -/
def KeepsAlike (f : State → State) : Prop := ∀ s₀ t₀ s t : State, Alike s₀ t₀ s t → Alike s₀ t₀ (f s) (f t)

/-! ### How such operations are made -/

theorem keepsAlike_id : KeepsAlike fun s => s := fun _ _ _ _ h => h

theorem KeepsAlike.comp {f g : State → State} (hf : KeepsAlike f) (hg : KeepsAlike g) : KeepsAlike fun s => f (g s) :=
  fun _ _ _ _ h => hf _ _ _ _ (hg _ _ _ _ h)

/-- A branch on what the deciding part says. -/
theorem keepsAlike_ite {p : State → Prop} [DecidablePred p] {f g : State → State} (hf : KeepsAlike f)
    (hg : KeepsAlike g) (hp : ∀ s, p s = p (decisive s) := by intro; rfl) :
    KeepsAlike fun s => if p s then f s else g s := by
  intro s₀ t₀ s t h
  have hst : p s = p t := h.read hp
  by_cases hs : p s
  · simp only [if_pos hs, if_pos (hst ▸ hs : p t)]
    exact hf _ _ _ _ h
  · simp only [if_neg hs, if_neg (hst ▸ hs : ¬ p t)]
    exact hg _ _ _ _ h

/-- An operation that takes a value from the deciding part. -/
theorem keepsAlike_read {α : Type} {p : State → α} {f : α → State → State} (hf : ∀ a, KeepsAlike (f a))
    (hp : ∀ s, p s = p (decisive s) := by intro; rfl) : KeepsAlike fun s => f (p s) s := by
  intro s₀ t₀ s t h
  have hst : p s = p t := h.read hp
  simp only [hst]
  exact hf _ _ _ _ _ h

/-- A register write: its effect on the deciding part is decided by the deciding part, that on the status registers by
the status registers, and it leaves the trace and the steps to come. -/
theorem keepsAlike_write {f : State → State} (φ : StatusRegisters → StatusRegisters := id)
    (hdecisive : ∀ s, decisive (f s) = decisive (f (decisive s)) := by intro; rfl)
    (hstatus : ∀ s, status (f s) = φ (status s) := by intro; rfl)
    (hinputs : ∀ s, (f s).inputs = s.inputs := by intro; rfl)
    (htrace : ∀ s, (f s).trace = s.trace := by intro; rfl) : KeepsAlike f := by
  intro s₀ t₀ s t h
  refine ⟨?_, fun h₀ => ?_, (hinputs s).trans h.inputs_left, (hinputs t).trans h.inputs_right, ?_⟩
  · rw [hdecisive s, hdecisive t, h.decisive_eq]
  · rw [hstatus, hstatus, h.status_eq h₀]
  · rw [htrace, htrace]; exact h.events

/-- The stamp of an event is `TB`, which is among what decides. -/
theorem keepsAlike_emit (e : Event) : KeepsAlike (emit e) := by
  intro s₀ t₀ s t h
  obtain ⟨events, hs, ht⟩ := h.events
  have htb : s.tb = t.tb := h.read (p := fun u => u.tb)
  refine ⟨h.decisive_eq, h.status_eq, h.inputs_left, h.inputs_right, events ++ [{ event := e, tb := s.tb }], ?_, ?_⟩
  · rw [emit_trace, hs, List.append_assoc]
  · rw [emit_trace, ht, ← htb, List.append_assoc]

/-! ### The shared operations -/

theorem keepsAlike_raise (x : ErrorClass) : KeepsAlike (raise x) :=
  keepsAlike_write (fun ⟨sched, err, result⟩ => (sched, err ||| errBit x, result))

theorem keepsAlike_setSched (x : Sched) : KeepsAlike (setSched x) :=
  keepsAlike_write (fun ⟨_, err, result⟩ => (x, err, result))

theorem keepsAlike_answer (r : BitVec 32) : KeepsAlike (answer r) :=
  keepsAlike_write (fun ⟨sched, err, _⟩ => (sched, err, r))

theorem keepsAlike_publish (f : Frame) : KeepsAlike (publish f) :=
  keepsAlike_write (hdecisive := fun _ => by simp only [decisive, publish])
    (hstatus := fun _ => by simp only [status, publish, id]) (hinputs := fun s => publish_inputs s f)
    (htrace := fun s => publish_trace s f)

theorem keepsAlike_armSecondTick : KeepsAlike armSecondTick := keepsAlike_write

theorem keepsAlike_armBitTimer (k : Fin 3) : KeepsAlike (armBitTimer k) := keepsAlike_write

theorem keepsAlike_setStCnt (n : BitVec 20) : KeepsAlike (setStCnt n) := keepsAlike_write

theorem keepsAlike_bumpBitTimer (k : Fin 3) : KeepsAlike (bumpBitTimer k) := keepsAlike_write

theorem keepsAlike_disarmBitTimer (k : Fin 3) : KeepsAlike (disarmBitTimer k) := keepsAlike_write

theorem keepsAlike_acknowledge (i : Fin 4) : KeepsAlike (acknowledge i) := keepsAlike_write

theorem keepsAlike_advanceIdx : KeepsAlike advanceIdx := keepsAlike_write

theorem keepsAlike_countTimebase : KeepsAlike countTimebase := keepsAlike_write

/-- `CARRIER` is written before the event of the carrier operation is emitted (43_slot_scheduler R174). -/
theorem keepsAlike_carrierDown : KeepsAlike carrierDown :=
  (keepsAlike_emit .carrierLow).comp (g := fun s => { s with carrier := false }) keepsAlike_write

theorem keepsAlike_carrierUp : KeepsAlike carrierUp :=
  (keepsAlike_emit .carrierFull).comp (g := fun s => { s with carrier := true }) keepsAlike_write

theorem keepsAlike_fire (i : Fin 4) : KeepsAlike (fire i) :=
  keepsAlike_ite (p := fun s => pending s i = true) (keepsAlike_raise _) keepsAlike_write

theorem keepsAlike_markLate (i : Fin 4) : KeepsAlike (markLate i) :=
  keepsAlike_ite (p := fun s => (pending s i && !isLate s i) = true)
    ((keepsAlike_raise _).comp (g := fun s => { s with late := s.late ||| requestBit i }) keepsAlike_write)
    keepsAlike_id

/-! ### TICK and the services -/

theorem keepsAlike_consumeFresh : KeepsAlike consumeFresh :=
  keepsAlike_ite (p := fun s => s.idx = 0)
    (KeepsAlike.comp (f := fun s => { s with fresh := false }) keepsAlike_write
      (keepsAlike_ite (p := fun s => (!s.fresh) = true) (keepsAlike_raise _) keepsAlike_id))
    keepsAlike_id

theorem keepsAlike_countOverlap : KeepsAlike countOverlap :=
  keepsAlike_ite (p := fun s => anyArmed s = true) (keepsAlike_raise _) keepsAlike_id

theorem keepsAlike_endOfMinute : KeepsAlike endOfMinute :=
  keepsAlike_ite (p := fun s => s.idx = 0) ((keepsAlike_emit _).comp (keepsAlike_emit _)) keepsAlike_id

theorem keepsAlike_tickWith (v : SlotValue) : KeepsAlike (tickWith v) :=
  keepsAlike_endOfMinute.comp <| keepsAlike_advanceIdx.comp <| (keepsAlike_emit _).comp <|
    (keepsAlike_setSched _).comp <| (keepsAlike_armBitTimer _).comp <| keepsAlike_countOverlap.comp <|
    keepsAlike_carrierDown.comp keepsAlike_consumeFresh

theorem keepsAlike_bitFire : KeepsAlike bitFire := (keepsAlike_setSched _).comp keepsAlike_carrierUp

/-- The slot TICK reads is decided by `FSEL`, `IDX`, the frame store and the number of resets. -/
theorem keepsAlike_handler (i : Fin 4) : KeepsAlike (handler i) := by
  fin_cases i
  · exact keepsAlike_bitFire
  · exact keepsAlike_bitFire
  · exact keepsAlike_bitFire
  · exact keepsAlike_read (p := fun s => s.slotRead s.fsel s.idx) keepsAlike_tickWith

theorem keepsAlike_serve (i : Fin 4) : KeepsAlike (serve i) :=
  keepsAlike_ite (p := fun s => pending s i = true)
    ((keepsAlike_handler i).comp (keepsAlike_acknowledge i)) keepsAlike_id

/-! ### A microsecond -/

theorem keepsAlike_countSecondTick : KeepsAlike countSecondTick :=
  keepsAlike_ite (p := fun s => s.stRun = true)
    (keepsAlike_ite (p := fun s => s.stCnt + 1 = stPeriod)
      ((keepsAlike_fire 3).comp (keepsAlike_setStCnt 0))
      (keepsAlike_read (p := fun s => s.stCnt + 1) keepsAlike_setStCnt))
    keepsAlike_id

theorem keepsAlike_countBitTimer (k : Fin 3) : KeepsAlike (countBitTimer k) :=
  keepsAlike_ite (p := fun s => s.btArmed[k] = true)
    (keepsAlike_ite (p := fun s => s.btCnt[k] + 1 = btAlarm k)
      ((keepsAlike_fire _).comp ((keepsAlike_disarmBitTimer k).comp (keepsAlike_bumpBitTimer k)))
      (keepsAlike_bumpBitTimer k))
    keepsAlike_id

theorem keepsAlike_countPhases : KeepsAlike countPhases :=
  (keepsAlike_countBitTimer 2).comp <| (keepsAlike_countBitTimer 1).comp <| (keepsAlike_countBitTimer 0).comp <|
    keepsAlike_countSecondTick.comp keepsAlike_countTimebase

theorem keepsAlike_usec (hold : Bool) : KeepsAlike (usec hold) := by
  cases hold with
  | true =>
    exact (keepsAlike_markLate 3).comp <| (keepsAlike_markLate 2).comp <| (keepsAlike_markLate 1).comp <|
      (keepsAlike_markLate 0).comp keepsAlike_countPhases
  | false =>
    exact (keepsAlike_serve 3).comp <| (keepsAlike_serve 2).comp <| (keepsAlike_serve 1).comp <|
      (keepsAlike_serve 0).comp keepsAlike_countPhases

/-! ### A command -/

/-- START as a function. -/
def startOp (s : State) : State :=
  if s.fvalid = false then raise .startNoFrame s else if s.stRun = true then s else armSecondTick s

theorem execStart_eq (s : State) : execStart s = .next (startOp s) := by
  unfold execStart startOp
  split
  · rfl
  · split <;> rfl

theorem keepsAlike_startOp : KeepsAlike startOp :=
  keepsAlike_ite (p := fun s => s.fvalid = false) (keepsAlike_raise _)
    (keepsAlike_ite (p := fun s => s.stRun = true) keepsAlike_id keepsAlike_armSecondTick)

/-- Each command is one such operation. Whether its operand is in range is no matter of the state. -/
theorem execWith_keepsAlike (c : Params) {i : Instr} (hi : isCommand i = true) :
    ∃ f, KeepsAlike f ∧ ∀ s, execWith c i s = .next (f s) := by
  cases i with
  | nop => exact ⟨_, keepsAlike_id, fun _ => rfl⟩
  | encode t =>
    by_cases h : sampleOk t = true
    · exact ⟨_, keepsAlike_publish (encodeFrame c ⟨t, h⟩), fun _ => dif_pos h⟩
    · exact ⟨_, keepsAlike_raise .invalidTimeSample, fun _ => dif_neg h⟩
  | start => exact ⟨_, keepsAlike_startOp, execStart_eq⟩
  | pack n =>
    by_cases h : n < 1000
    · exact ⟨_, keepsAlike_answer _, fun _ => dif_pos h⟩
    · exact ⟨_, keepsAlike_raise .illegalCommand, fun _ => dif_neg h⟩
  | leap y =>
    by_cases h : yearOk y = true
    · exact ⟨_, keepsAlike_answer _, fun _ => if_pos h⟩
    · exact ⟨_, keepsAlike_raise .illegalCommand, fun _ => if_neg h⟩
  | dstwin y =>
    by_cases h : yearOk y = true
    · exact ⟨_, keepsAlike_answer _, fun _ => if_pos h⟩
    · exact ⟨_, keepsAlike_raise .illegalCommand, fun _ => if_neg h⟩
  | isdst y d =>
    by_cases h : (yearOk y && dayOk d) = true
    · exact ⟨_, keepsAlike_answer _, fun _ => if_pos h⟩
    · exact ⟨_, keepsAlike_raise .illegalCommand, fun _ => if_neg h⟩
  | bitfire0 | bitfire1 | bitfire2 | tick | setCarrierLow | setCarrierFull => cases hi

theorem commandStepWith_keepsAlike (c : Params) (w : CommandWord) :
    ∃ f, KeepsAlike f ∧ ∀ s, commandStepWith c w s = .next (f s) := by
  cases h : decodeCmd w with
  | error e => exact ⟨_, keepsAlike_raise .illegalCommand, commandStepWith_of_error c h⟩
  | ok i =>
    obtain ⟨f, hf, heq⟩ := execWith_keepsAlike c (decodeCmd_isCommand h)
    exact ⟨f, hf, fun s => (commandStepWith_of_ok c h s).trans (heq s)⟩

/-- Every step but `Reset` is one such operation. -/
theorem runInputWith_keepsAlike (c : Params) {i : Input} (hi : i ≠ .reset) :
    ∃ f, KeepsAlike f ∧ ∀ s, runInputWith c i s = .next (f s) := by
  cases i with
  | reset => exact absurd rfl hi
  | cmd w => exact commandStepWith_keepsAlike c w
  | usec hold => exact ⟨_, keepsAlike_usec hold, usecStep_eq hold⟩

theorem stepWith_of_reset (c : Params) {s : State} (h : nextInput s = .reset) :
    stepWith c s = .next (resetStep (dropInput s)) := by
  rw [stepWith, h, runInputWith]

theorem stepWith_keepsAlike (c : Params) {s t : State} (h : nextInput s ≠ .reset) (hst : nextInput t = nextInput s) :
    ∃ f, KeepsAlike f ∧ stepWith c s = .next (f (dropInput s)) ∧ stepWith c t = .next (f (dropInput t)) := by
  obtain ⟨f, hf, heq⟩ := runInputWith_keepsAlike c h
  exact ⟨f, hf, heq _, by rw [stepWith, hst]; exact heq _⟩

end Sys2Proof.Machine

namespace Sys2Proof.Proofs

open Sys2Proof.Machine

/-- Settles O8: `Reset` leaves the registers of the reset state; every other step keeps the two states alike, and their
status registers are equal at the start. -/
theorem registersAndInputDecideTheStep : Obligations.RegistersAndInputDecideTheStep := by
  intro c i s t hregs hepoch
  by_cases hi : i = .reset
  · subst hi
    exact ⟨resetStep s, resetStep t, rfl, rfl, rfl, congrArg (· + 1) hepoch, rfl, rfl, fun h => absurd rfl h⟩
  · obtain ⟨f, hf, heq⟩ := runInputWith_keepsAlike c hi
    have hstart : decisive s = decisive t := by simp only [decisive, hregs, hepoch]
    have hstatus : status s = status t := by simp only [status, hregs]
    have h : Alike s t (f s) (f t) := hf _ _ _ _ (.start hstart)
    exact ⟨f s, f t, heq s, heq t, toRegisters_eq_of_decisive_eq h.decisive_eq (h.status_eq hstatus),
      h.read (p := fun u => u.epoch), h.inputs_left, h.inputs_right, fun _ => h.events⟩

/-- Settles O51: `Reset` does not look at the status registers; under every other step the state and the state with
other status registers stay alike. -/
theorem statusRegistersDecideNothing : Obligations.StatusRegistersDecideNothing := by
  intro c s x e r
  by_cases hi : nextInput s = .reset
  · exact ⟨_, _, stepWith_of_reset c hi, stepWith_of_reset c hi, rfl⟩
  · obtain ⟨f, hf, hs, ht⟩ := stepWith_keepsAlike c (t := { s with sched := x, err := e, result := r }) hi rfl
    have h := hf _ _ _ _ (.start (s := dropInput s) (t := dropInput { s with sched := x, err := e, result := r }) rfl)
    obtain ⟨events, htrace, htrace'⟩ := h.events
    exact ⟨_, _, hs, ht, eq_with_status_of_decisive_eq h.decisive_eq (htrace.trans htrace'.symm)
      (h.inputs_left.trans h.inputs_right.symm)⟩

end Sys2Proof.Proofs

/-! SUPPORT. The frame store seen from the steps (20_memory): every operation and every step completes, a microsecond
neither writes the store nor reads its back bank, and what TICK transmits and counts of it. -/

namespace Sys2Proof.Machine

/-! ### Completion (20_memory R71) -/

/-- Every operation answers a next state, under any parameters: a command by its effect, a service and a carrier
operation at once. -/
theorem execWith_next (c : Params) (i : Instr) (s : State) : ∃ t, execWith c i s = .next t := by
  cases hi : isCommand i with
  | true =>
    obtain ⟨t, ht, -⟩ := execWith_command c hi s
    exact ⟨t, ht⟩
  | false =>
    cases i with
    | bitfire0 | bitfire1 | bitfire2 | tick | setCarrierLow | setCarrierFull => exact ⟨_, rfl⟩
    | nop | encode _ | start | pack _ | leap _ | dstwin _ | isdst _ _ => cases hi

/-! ### Operations that do not look at the frame store (20_memory R65) -/

/-- The state with another frame store. -/
def withStore (m : Memory) (s : State) : State := { s with fb := m }

/-- The operation neither reads nor writes the frame store: changing the store before it or after it is the same. -/
def IgnoresStore (f : State → State) : Prop := ∀ (m : Memory) (s : State), f (withStore m s) = withStore m (f s)

theorem ignoresStore_id : IgnoresStore fun s => s := fun _ _ => rfl

theorem IgnoresStore.comp {f g : State → State} (hf : IgnoresStore f) (hg : IgnoresStore g) :
    IgnoresStore fun s => f (g s) := fun m s => (congrArg f (hg m s)).trans (hf m (g s))

/-- A branch on what is not in the frame store. -/
theorem ignoresStore_ite {p : State → Prop} [DecidablePred p] {f g : State → State} (hf : IgnoresStore f)
    (hg : IgnoresStore g) (hp : ∀ m s, p (withStore m s) = p s := by intros; rfl) :
    IgnoresStore fun s => if p s then f s else g s := fun m s => by
  by_cases h : p s
  · simp only [hp, if_pos h]
    exact hf m s
  · simp only [hp, if_neg h]
    exact hg m s

/-! ### The counting phases and a held microsecond -/

theorem ignoresStore_raise (x : ErrorClass) : IgnoresStore (raise x) := fun _ _ => rfl

theorem ignoresStore_emit (e : Event) : IgnoresStore (emit e) := fun _ _ => rfl

theorem ignoresStore_fire (i : Fin 4) : IgnoresStore (fire i) :=
  ignoresStore_ite (p := fun s => pending s i = true) (ignoresStore_raise _) fun _ _ => rfl

theorem ignoresStore_markLate (i : Fin 4) : IgnoresStore (markLate i) :=
  ignoresStore_ite (p := fun s => (pending s i && !isLate s i) = true) (fun _ _ => rfl) ignoresStore_id

theorem ignoresStore_countSecondTick : IgnoresStore countSecondTick :=
  ignoresStore_ite (p := fun s => s.stRun = true)
    (ignoresStore_ite (p := fun s => s.stCnt + 1 = stPeriod)
      ((ignoresStore_fire 3).comp (g := setStCnt 0) fun _ _ => rfl) fun _ _ => rfl)
    ignoresStore_id

theorem ignoresStore_countBitTimer (k : Fin 3) : IgnoresStore (countBitTimer k) :=
  ignoresStore_ite (p := fun s => s.btArmed[k] = true)
    (ignoresStore_ite (p := fun s => s.btCnt[k] + 1 = btAlarm k)
      ((ignoresStore_fire _).comp (g := fun s => disarmBitTimer k (bumpBitTimer k s)) fun _ _ => rfl) fun _ _ => rfl)
    ignoresStore_id

theorem ignoresStore_countPhases : IgnoresStore countPhases :=
  (ignoresStore_countBitTimer 2).comp <| (ignoresStore_countBitTimer 1).comp <| (ignoresStore_countBitTimer 0).comp <|
    ignoresStore_countSecondTick.comp (g := countTimebase) fun _ _ => rfl

theorem ignoresStore_holdAll : IgnoresStore holdAll :=
  (ignoresStore_markLate 3).comp <| (ignoresStore_markLate 2).comp <| (ignoresStore_markLate 1).comp <|
    ignoresStore_markLate 0

/-! ### The services -/

theorem ignoresStore_consumeFresh : IgnoresStore consumeFresh :=
  ignoresStore_ite (p := fun s => s.idx = 0)
    (IgnoresStore.comp (f := fun s => { s with fresh := false }) (fun _ _ => rfl)
      (ignoresStore_ite (p := fun s => (!s.fresh) = true) (ignoresStore_raise _) ignoresStore_id))
    ignoresStore_id

theorem ignoresStore_countOverlap : IgnoresStore countOverlap :=
  ignoresStore_ite (p := fun s => anyArmed s = true) (ignoresStore_raise _) ignoresStore_id

theorem ignoresStore_endOfMinute : IgnoresStore endOfMinute :=
  ignoresStore_ite (p := fun s => s.idx = 0) ((ignoresStore_emit _).comp (ignoresStore_emit _)) ignoresStore_id

/-- TICK looks at the frame store for the value it transmits and for nothing else (43_slot_scheduler R184). -/
theorem ignoresStore_tickWith (v : SlotValue) : IgnoresStore (tickWith v) :=
  ignoresStore_endOfMinute.comp <|
    IgnoresStore.comp (f := fun s => advanceIdx (emit (.diag v) (setSched .carrierLow (armBitTimer (slotCode v) s))))
      (fun _ _ => rfl) <|
    ignoresStore_countOverlap.comp <| IgnoresStore.comp (f := carrierDown) (fun _ _ => rfl) ignoresStore_consumeFresh

/-- The handler of a Bit Timer's request is `BitFire` (43_slot_scheduler R188). -/
theorem handler_of_bit {i : Fin 4} (hi : i ≠ 3) : handler i = bitFire := by
  fin_cases i
  · rfl
  · rfl
  · rfl
  · exact absurd rfl hi

/-- The services of the three Bit Timers, which come before that of the Second Tick (43_slot_scheduler R183). -/
def serveBits (s : State) : State := serve 2 (serve 1 (serve 0 s))

theorem serveAll_eq_serve_serveBits (s : State) : serveAll s = serve 3 (serveBits s) := rfl

theorem serveBits_fb (s : State) : (serveBits s).fb = s.fb := by simp [serveBits]

theorem serveBits_fsel (s : State) : (serveBits s).fsel = s.fsel := by simp [serveBits]

theorem ignoresStore_serve_of_bit {i : Fin 4} (hi : i ≠ 3) : IgnoresStore (serve i) :=
  ignoresStore_ite (p := fun s => pending s i = true)
    (IgnoresStore.comp (g := acknowledge i) (handler_of_bit hi ▸ fun _ _ => rfl) fun _ _ => rfl) ignoresStore_id

theorem ignoresStore_serveBits : IgnoresStore serveBits :=
  (ignoresStore_serve_of_bit (by decide)).comp <| (ignoresStore_serve_of_bit (by decide)).comp <|
    ignoresStore_serve_of_bit (by decide)

/-- The store `m` has the front bank of the state. -/
def SameFront (m : Memory) (s : State) : Prop := ∀ i : SlotIndex, (withStore m s).slot? s.fsel i = s.slot? s.fsel i

theorem SameFront.of_eq {m : Memory} {s t : State} (h : SameFront m s) (hfb : t.fb = s.fb) (hfsel : t.fsel = s.fsel) :
    SameFront m t := fun i => by
  rw [hfsel, slot?_of_fb_eq hfb]
  exact h i

/-- The service of the Second Tick reads a slot of the front bank (20_memory R65). -/
theorem serve_tick_withStore {m : Memory} {s : State} (h : SameFront m s) :
    serve 3 (withStore m s) = withStore m (serve 3 s) := by
  cases hp : pending s 3 with
  | false => rw [serve_of_not_pending hp, serve_of_not_pending (s := withStore m s) hp]
  | true =>
    have hread : (withStore m s).slotRead s.fsel s.idx = s.slotRead s.fsel s.idx := by
      simp only [State.slotRead, h s.idx]
      rfl
    rw [serve_of_pending hp, serve_of_pending (s := withStore m s) hp]
    show tickWith ((withStore m s).slotRead s.fsel s.idx) (withStore m (acknowledge 3 s)) = _
    rw [hread]
    exact ignoresStore_tickWith _ m (acknowledge 3 s)

theorem serveAll_withStore {m : Memory} {s : State} (h : SameFront m s) :
    serveAll (withStore m s) = withStore m (serveAll s) := by
  rw [serveAll_eq_serve_serveBits, ignoresStore_serveBits m s, serve_tick_withStore
    (h.of_eq (serveBits_fb s) (serveBits_fsel s)), serveAll_eq_serve_serveBits]

/-- A microsecond is the same whatever the back bank holds (20_memory R65, R68). -/
theorem usec_withStore (hold : Bool) {m : Memory} {s : State} (h : SameFront m s) :
    usec hold (withStore m s) = withStore m (usec hold s) := by
  cases hold with
  | true => exact (ignoresStore_holdAll.comp ignoresStore_countPhases) m s
  | false =>
    show serveAll (countPhases (withStore m s)) = _
    rw [ignoresStore_countPhases m s, serveAll_withStore (h.of_eq (countPhases_fb s) (countPhases_fsel s))]
    rfl

/-! ### What TICK transmits and counts (43_slot_scheduler R184) -/

/-- The events of TICK: carrier low, the symbol, and after slot 59 the end of the minute. -/
theorem tickWith_trace (v : SlotValue) (s : State) : (tickWith v s).trace =
    s.trace ++ [{ event := .carrierLow, tb := s.tb }, { event := .diag v, tb := s.tb }] ++
      (if s.idx + 1 = 0 then [{ event := .minuteDone, tb := s.tb }, { event := .diagNewline, tb := s.tb }]
       else []) := by
  by_cases h : s.idx + 1 = 0
  · simp [tickWith, endOfMinute, h]
  · simp [tickWith, endOfMinute, h]

/-- After a publish the front bank reads as the frame published (20_memory R67 item 2). -/
theorem publish_slotRead_front (f : Frame) (s : State) (i : SlotIndex) :
    (publish f s).slotRead (publish f s).fsel i = f i :=
  slotRead_of_slot? (by rw [publish_fsel]; exact publish_slot?_back f s i)

theorem CommandEffect.staleCnt_eq {c : Params} {s t : State} (h : CommandEffect c s t) : t.staleCnt = s.staleCnt := by
  cases h <;> simp

/-- `IDX` and `FRESH`, which line 2 of TICK looks at, and its count `STALE_CNT` (43_slot_scheduler R184). -/
def staleInputs (s : State) : SlotIndex × Bool × BitVec 32 := (s.idx, s.fresh, s.staleCnt)

theorem serve_staleInputs_of_bit {i : Fin 4} (hi : i ≠ 3) (s : State) : staleInputs (serve i s) = staleInputs s := by
  unfold serve
  split
  · rw [handler_of_bit hi]; rfl
  · rfl

theorem serveBits_staleInputs (s : State) : staleInputs (serveBits s) = staleInputs s := by
  rw [serveBits, serve_staleInputs_of_bit (by decide), serve_staleInputs_of_bit (by decide),
    serve_staleInputs_of_bit (by decide)]

theorem pending_serveBits_tick (s : State) : pending (serveBits s) 3 = pending s 3 := by
  simp [serveBits, pending_serve]

/-- The service of the Second Tick counts by line 2 of TICK; taking the request changes nothing it looks at. -/
theorem serve_tick_staleCnt (s : State) : (serve 3 s).staleCnt =
    if pending s 3 = true ∧ s.idx = 0 ∧ s.fresh = false then satSucc s.staleCnt else s.staleCnt := by
  cases hp : pending s 3 with
  | false => simp [serve_of_not_pending hp]
  | true =>
    rw [serve_of_pending hp, if_congr (and_iff_right rfl) rfl rfl]
    exact tickWith_staleCnt _ (acknowledge 3 s)

/-- Phase 4 counts a stale frame where it services a TICK of slot 0 with no fresh frame: the services before it leave
what its line 2 looks at. -/
theorem serveAll_staleCnt (s : State) : (serveAll s).staleCnt =
    if pending s 3 = true ∧ s.idx = 0 ∧ s.fresh = false then satSucc s.staleCnt else s.staleCnt := by
  have h := serveBits_staleInputs s
  simp only [staleInputs, Prod.mk.injEq] at h
  obtain ⟨hidx, hfresh, hstale⟩ := h
  rw [serveAll_eq_serve_serveBits, serve_tick_staleCnt, pending_serveBits_tick, hidx, hfresh, hstale]

/-- A held microsecond services no TICK. -/
theorem usec_held_staleCnt (s : State) : (usec true s).staleCnt = s.staleCnt := by simp [usec]

/-- Exactly such a TICK is counted in a microsecond that is not held. -/
theorem usec_unheld_staleCnt (s : State) : (usec false s).staleCnt =
    if pending (countPhases s) 3 = true ∧ s.idx = 0 ∧ s.fresh = false then satSucc s.staleCnt else s.staleCnt := by
  show (serveAll (countPhases s)).staleCnt = _
  rw [serveAll_staleCnt, countPhases_idx, countPhases_fresh, countPhases_staleCnt]

end Sys2Proof.Machine

namespace Sys2Proof.Proofs

open Sys2Proof.Machine

/-- Settles O9: an operation by its kind, a step by the environment's next step; `exec` and `step` are the functions of
the default parameters. -/
theorem everyStepCompletes : Obligations.EveryStepCompletes :=
  ⟨fun i s => execWith_default i s ▸ execWith_next defaultParams i s, stepWith_next defaultParams,
    fun c s => ⟨fun i => execWith_next c i s, stepWith_next c s⟩⟩

/-- Settles O49: the microsecond as a function leaves the store and the registers named, and counts `TB`. -/
theorem microsecondsNeverWriteTheFrameStore : Obligations.MicrosecondsNeverWriteTheFrameStore := fun s hold =>
  ⟨usec hold s, usecStep_eq hold s, fun a => by rw [usec_fb], usec_fsel .., usec_fvalid .., usec_stRun ..,
    usec_invCnt .., usec_result .., usec_tb ..⟩

/-- Settles O50: only the service of the Second Tick reads the store, and it reads the front bank. -/
theorem backBankIsInvisibleToTheScheduler : Obligations.BackBankIsInvisibleToTheScheduler := by
  intro s m hold hfront
  have h : SameFront m s := hfront
  exact ⟨usec hold s, usecStep_eq hold s,
    (usecStep_eq hold (withStore m s)).trans (congrArg Host.Outcome.next (usec_withStore hold h))⟩

/-- Settles O52: the publish makes the new frame the front bank's, and the TICK transmits the front bank's slot at
`IDX`. -/
theorem commitIsVisibleAtTheNextTick : Obligations.CommitIsVisibleAtTheNextTick := by
  intro c v s
  refine ⟨publish (encodeFrame c v) s, _, execEncodeWith_valid c v s, rfl, ?_⟩
  rw [publish_slotRead_front, tickWith_trace, publish_trace, publish_tb, publish_idx]
  exact List.take_left' (List.length_append ..)

/-- Settles O53: commands and held microseconds count no stale frame, and a microsecond that is not held counts one
exactly where it services a TICK of slot 0 with `FRESH` = 0; that TICK moves `IDX` on and leaves `FRESH` at 0. -/
theorem staleFrameOnlyAtAnUncommittedSlotZero : Obligations.StaleFrameOnlyAtAnUncommittedSlotZero := by
  intro c s t hreset ht readsSlotZero
  obtain ⟨h, -⟩ | ⟨w, u, h, hs, he⟩ | ⟨hold, h, hs⟩ := stepWith_cases c s
  · exact absurd h hreset
  · cases hs.symm.trans ht
    exact ⟨fun hne => absurd he.staleCnt_eq hne, fun ⟨h', _⟩ => by cases h.symm.trans h'⟩
  · cases hs.symm.trans ht
    cases hold with
    | true => exact ⟨fun hne => absurd (usec_held_staleCnt _) hne, fun ⟨h', _⟩ => by cases h.symm.trans h'⟩
    | false =>
      have hstale := usec_unheld_staleCnt (dropInput s)
      refine ⟨fun hne => ?_, fun ⟨_, hp, hidx⟩ hfresh => ?_⟩
      · by_cases hcount : pending (countPhases (dropInput s)) 3 = true ∧ s.idx = 0 ∧ s.fresh = false
        · obtain ⟨hp, hidx, hfresh⟩ := hcount
          refine ⟨⟨h, hp, hidx⟩, hfresh, ?_, ?_⟩
          · exact Bool.eq_false_iff.mpr fun hf =>
              Bool.eq_false_iff.mp hfresh (fresh_of_usec_fresh false (s := dropInput s) hf)
          · show (serveAll (countPhases (dropInput s))).idx = 1
            rw [serveAll_idx, if_pos hp, countPhases_idx, dropInput_idx, hidx]
            rfl
        · exact absurd (hstale.trans (if_neg hcount)) hne
      · rw [hstale, if_pos ⟨hp, hidx, hfresh⟩]
        exact satSucc_toNat s.staleCnt

end Sys2Proof.Proofs

/-! SUPPORT. The command word field by field (30_encoding R81, R82): its operands as naturals, the rows of the opcode
map (R83), and the word an operation is encoded as; the request and carrier codes; and what a script's lines run. -/

namespace Sys2Proof

/-! ### The operand fields (30_encoding R82) -/

section
variable (w : CommandWord)

theorem yearField_eq : yearField w = w.toNat / 2 ^ 20 % 2 ^ 14 := rfl

theorem dayField_eq : dayField w = w.toNat / 2 ^ 11 % 2 ^ 9 := rfl

theorem hourField_eq : hourField w = w.toNat / 2 ^ 6 % 2 ^ 5 := rfl

theorem minuteField_eq : minuteField w = w.toNat % 2 ^ 6 := by
  rw [minuteField, field, Nat.pow_zero, Nat.div_one]

theorem packField_eq : packField w = w.toNat % 2 ^ 10 := by
  rw [packField, field, Nat.pow_zero, Nat.div_one]

theorem yearField_lt : yearField w < 2 ^ 14 := Nat.mod_lt _ (by decide)

theorem dayField_lt : dayField w < 2 ^ 9 := Nat.mod_lt _ (by decide)

theorem hourField_lt : hourField w < 2 ^ 5 := Nat.mod_lt _ (by decide)

theorem minuteField_lt : minuteField w < 2 ^ 6 := Nat.mod_lt _ (by decide)

theorem packField_lt : packField w < 2 ^ 10 := Nat.mod_lt _ (by decide)

end

/-- A sample fits its fields when each of its operands does (30_encoding R81). -/
theorem TimeSample.fits_iff (t : TimeSample) :
    t.fits = true ↔ t.year < 2 ^ 14 ∧ t.dayOfYear < 2 ^ 9 ∧ t.hour < 2 ^ 5 ∧ t.minute < 2 ^ 6 := by
  simp only [TimeSample.fits, Bool.and_eq_true, decide_eq_true_eq, and_assoc]

/-! ### The opcode map (30_encoding R83) -/

/-- A word with `RSV` = 0 runs the row its `OP` selects. -/
theorem decodeCmd_of_rsv_zero {w : CommandWord} {op : Nat} (hrsv : w.toNat / 2 ^ 34 % 2 ^ 2 = 0)
    (hop : w.toNat / 2 ^ 36 = op) : decodeCmd w = decodeOpcode op w := by
  have hfield : field w 39 36 = op := by
    have hw := w.isLt
    show w.toNat / 2 ^ 36 % 2 ^ 4 = op
    omega
  exact (if_pos hrsv).trans (by rw [hfield])

theorem decodeCmd_of_rsv_ne_zero {w : CommandWord} (hrsv : w.toNat / 2 ^ 34 % 2 ^ 2 ≠ 0) :
    decodeCmd w = .error .reservedBits := if_neg hrsv

theorem decodeOpcode_of_reserved (w : CommandWord) {op : Nat} (h : 6 < op) :
    decodeOpcode op w = .error .reservedOpcode := by
  obtain ⟨k, rfl⟩ := Nat.exists_eq_add_of_le' h
  rfl

/-- The rows of the opcode map: what `OP` selects, with the operands of the word. -/
inductive OpcodeRow (w : CommandWord) : Nat → Instr → Prop where
  | nop : OpcodeRow w 0 .nop
  | encode : OpcodeRow w 1 (.encode (sampleField w))
  | start : OpcodeRow w 2 .start
  | pack : OpcodeRow w 3 (.pack (packField w))
  | leap : OpcodeRow w 4 (.leap (yearField w))
  | dstwin : OpcodeRow w 5 (.dstwin (yearField w))
  | isdst : OpcodeRow w 6 (.isdst (yearField w) (dayField w))

theorem opcodeRow_of_decodeOpcode {w : CommandWord} {i : Instr} :
    ∀ {op : Nat}, decodeOpcode op w = .ok i → OpcodeRow w op i
  | 0, rfl => .nop
  | 1, rfl => .encode
  | 2, rfl => .start
  | 3, rfl => .pack
  | 4, rfl => .leap
  | 5, rfl => .dstwin
  | 6, rfl => .isdst
  | op + 7, h => by cases (decodeOpcode_of_reserved w (by omega)).symm.trans h

/-- One inversion for the command decoder: a word that decodes has `RSV` = 0 and is a row of the opcode map. -/
theorem opcodeRow_of_decodeCmd {w : CommandWord} {i : Instr} (h : decodeCmd w = .ok i) :
    w.toNat / 2 ^ 34 % 2 ^ 2 = 0 ∧ OpcodeRow w (w.toNat / 2 ^ 36) i := by
  by_cases hrsv : w.toNat / 2 ^ 34 % 2 ^ 2 = 0
  · exact ⟨hrsv, opcodeRow_of_decodeOpcode ((decodeCmd_of_rsv_zero hrsv rfl).symm.trans h)⟩
  · cases (decodeCmd_of_rsv_ne_zero hrsv).symm.trans h

theorem OpcodeRow.wf {w : CommandWord} {op : Nat} {i : Instr} (h : OpcodeRow w op i) : i.wf = true := by
  cases h with
  | nop | start => rfl
  | encode =>
    exact (TimeSample.fits_iff _).mpr ⟨yearField_lt w, dayField_lt w, hourField_lt w, minuteField_lt w⟩
  | pack => exact decide_eq_true (packField_lt w)
  | leap | dstwin => exact decide_eq_true (yearField_lt w)
  | isdst => exact Bool.and_eq_true_iff.mpr ⟨decide_eq_true (yearField_lt w), decide_eq_true (dayField_lt w)⟩

/-! ### Decoding a canonical word (30_encoding R93) -/

section
variable {op x : Nat} (hop : op < 16) (hx : x < 2 ^ 34)
include hop hx

/-- Operands below bit 34 leave `RSV` at 0, so the opcode's own row is selected. -/
theorem decode_commandWord : decode (.cmd (commandWord op x)) = decodeOpcode op (commandWord op x) := by
  apply decodeCmd_of_rsv_zero <;> rw [commandWord_toNat hop (by omega)] <;> omega

theorem yearField_commandWord : yearField (commandWord op x) = x / 2 ^ 20 := by
  rw [yearField_eq, commandWord_toNat hop (by omega)]; omega

theorem dayField_commandWord : dayField (commandWord op x) = x / 2 ^ 11 % 2 ^ 9 := by
  rw [dayField_eq, commandWord_toNat hop (by omega)]; omega

theorem hourField_commandWord : hourField (commandWord op x) = x / 2 ^ 6 % 2 ^ 5 := by
  rw [hourField_eq, commandWord_toNat hop (by omega)]; omega

theorem minuteField_commandWord : minuteField (commandWord op x) = x % 2 ^ 6 := by
  rw [minuteField_eq, commandWord_toNat hop (by omega)]; omega

theorem packField_commandWord : packField (commandWord op x) = x % 2 ^ 10 := by
  rw [packField_eq, commandWord_toNat hop (by omega)]; omega

end

/-- The operand part of ENCODE stays below `RSV`. -/
theorem TimeSample.operands_lt {t : TimeSample} (h : t.fits = true) :
    t.year * 2 ^ 20 + t.dayOfYear * 2 ^ 11 + t.hour * 2 ^ 6 + t.minute < 2 ^ 34 := by
  obtain ⟨hyear, hday, hhour, hminute⟩ := t.fits_iff.mp h
  omega

/-- The sample of ENCODE is read back from its four fields. -/
theorem sampleField_commandWord {op : Nat} {t : TimeSample} (hop : op < 16) (h : t.fits = true) :
    sampleField (commandWord op (t.year * 2 ^ 20 + t.dayOfYear * 2 ^ 11 + t.hour * 2 ^ 6 + t.minute)) = t := by
  have hx := TimeSample.operands_lt h
  obtain ⟨hyear, hday, hhour, hminute⟩ := t.fits_iff.mp h
  rw [sampleField, yearField_commandWord hop hx, dayField_commandWord hop hx, hourField_commandWord hop hx,
    minuteField_commandWord hop hx]
  refine (TimeSample.mk.injEq _ _ _ _ t.year t.dayOfYear t.hour t.minute).mpr ⟨?_, ?_, ?_, ?_⟩ <;> omega

/-- The canonical word of a well-formed operation decodes to it, port by port. -/
theorem decode_encode {i : Instr} (h : i.wf = true) : decode (encode i) = .ok i := by
  cases i with
  | nop | start => exact decode_commandWord (by decide) (by decide)
  | encode t =>
    have hx := TimeSample.operands_lt h
    rw [encode, decode_commandWord (by decide) hx, decodeOpcode, sampleField_commandWord (by decide) h]
  | pack n =>
    have hn : n < 2 ^ 10 := of_decide_eq_true h
    have hfield : packField (commandWord 3 n) = n :=
      (packField_commandWord (by decide) (by omega)).trans (Nat.mod_eq_of_lt hn)
    rw [encode, decode_commandWord (by decide) (by omega), decodeOpcode, hfield]
  | leap y | dstwin y =>
    have hy : y < 2 ^ 14 := of_decide_eq_true h
    rw [encode, decode_commandWord (by decide) (by omega), decodeOpcode, yearField_commandWord (by decide) (by omega),
      Nat.mul_div_cancel _ (by decide)]
  | isdst y d =>
    obtain ⟨hy, hd⟩ : y < 2 ^ 14 ∧ d < 2 ^ 9 := by
      simpa only [Instr.wf, Bool.and_eq_true, decide_eq_true_eq] using h
    have hx : y * 2 ^ 20 + d * 2 ^ 11 < 2 ^ 34 := by omega
    have hyear : (y * 2 ^ 20 + d * 2 ^ 11) / 2 ^ 20 = y := by omega
    have hday : (y * 2 ^ 20 + d * 2 ^ 11) / 2 ^ 11 % 2 ^ 9 = d := by omega
    rw [encode, decode_commandWord (by decide) hx, decodeOpcode, yearField_commandWord (by decide) hx,
      dayField_commandWord (by decide) hx, hyear, hday]
  | bitfire0 | bitfire1 | bitfire2 | tick | setCarrierLow | setCarrierFull => rfl

/-! ### The bits a command ignores (30_encoding R81) -/

/-- A mask that clears the bits from `lo` up to below `hi` leaves the number above them and the number below them. -/
theorem and_eq_ofNat_of_clear {m : CommandWord} {lo hi : Nat} (w : CommandWord) (hlo : lo ≤ hi)
    (hm : ∀ j : Fin 40, m.getLsbD j = (decide (j.val < lo) || decide (hi ≤ j.val))) :
    w &&& m = BitVec.ofNat 40 (2 ^ hi * (w.toNat / 2 ^ hi) + w.toNat % 2 ^ lo) := by
  have hlow : w.toNat % 2 ^ lo < 2 ^ hi :=
    Nat.lt_of_lt_of_le (Nat.mod_lt _ (Nat.two_pow_pos lo)) (Nat.pow_le_pow_right (by decide) hlo)
  apply BitVec.eq_of_getLsbD_eq
  intro j hj
  rw [BitVec.getLsbD_and, hm ⟨j, hj⟩, BitVec.getLsbD_ofNat, Nat.testBit_two_pow_mul_add _ hlow,
    Nat.testBit_mod_two_pow, Nat.testBit_div_two_pow]
  by_cases hhi : j < hi
  · simp [hj, hhi, Nat.not_le.mpr hhi, Bool.and_comm, BitVec.getLsbD]
  · have hle : hi ≤ j := Nat.not_lt.mp hhi
    simp [hj, hhi, hle, BitVec.getLsbD]

/-- Packing the operands of a word's own row gives the word back with its ignored bits cleared, if the row's mask clears
one run of bits and the packed number is the word without them. -/
theorem cmd_commandWord_eq_and {op x lo hi : Nat} {w m : CommandWord} (hop : w.toNat / 2 ^ 36 = op) (hlo : lo ≤ hi)
    (hm : ∀ j : Fin 40, m.getLsbD j = (decide (j.val < lo) || decide (hi ≤ j.val)))
    (hx : w.toNat / 2 ^ 36 * 2 ^ 36 + x = 2 ^ hi * (w.toNat / 2 ^ hi) + w.toNat % 2 ^ lo) :
    PortWord.cmd (commandWord op x) = .cmd (w &&& m) := by
  rw [and_eq_ofNat_of_clear w hlo hm, ← hx, commandWord, hop]

/-- An operation read from its row is encoded as the word with its ignored bits cleared. -/
theorem OpcodeRow.encode_eq {w : CommandWord} {op : Nat} {i : Instr} (h : OpcodeRow w op i)
    (hrsv : w.toNat / 2 ^ 34 % 2 ^ 2 = 0) (hop : w.toNat / 2 ^ 36 = op) :
    Sys2Proof.encode i = .cmd (w &&& usedBits op) := by
  cases h with
  | nop | start => exact cmd_commandWord_eq_and hop (lo := 0) (hi := 34) (by decide) (by decide) (by omega)
  | encode =>
    refine cmd_commandWord_eq_and hop (lo := 0) (hi := 0) (by decide) (by decide) ?_
    simp only [sampleField, yearField_eq, dayField_eq, hourField_eq, minuteField_eq]
    omega
  | pack =>
    refine cmd_commandWord_eq_and hop (lo := 10) (hi := 34) (by decide) (by decide) ?_
    rw [packField_eq]
    omega
  | leap | dstwin =>
    refine cmd_commandWord_eq_and hop (lo := 0) (hi := 20) (by decide) (by decide) ?_
    rw [yearField_eq]
    omega
  | isdst =>
    refine cmd_commandWord_eq_and hop (lo := 0) (hi := 11) (by decide) (by decide) ?_
    rw [yearField_eq, dayField_eq]
    omega

/-! ### Requests and carrier codes (30_encoding R86, R87) -/

theorem decodeRequest_of_not_isolated {r : RequestWord} (h : r ∉ [0b0001#4, 0b0010#4, 0b0100#4, 0b1000#4]) :
    decodeRequest r = .error .requestNotIsolated := by
  simp only [List.mem_cons, List.not_mem_nil, or_false, not_or] at h
  obtain ⟨h0, h1, h2, h3⟩ := h
  rw [decodeRequest, if_neg h0, if_neg h1, if_neg h2, if_neg h3]

/-- The two codes that are no carrier operation. -/
theorem decodeCarrierOp_of_not_mem {c : CarrierWord} (h : c ∉ [0b01#2, 0b10#2]) :
    decodeCarrierOp c = .error (if c = 0b00#2 then .noCarrierOperation else .carrierCodeUnused) := by
  simp only [List.mem_cons, List.not_mem_nil, or_false, not_or] at h
  obtain ⟨hlow, hfull⟩ := h
  rw [decodeCarrierOp, if_neg hlow, if_neg hfull, apply_ite Except.error]

end Sys2Proof

namespace Sys2Proof.Machine

/-! ### The carrier port (30_encoding R87) -/

theorem carrierOpWires_of_ne {e : Event} (hlow : e ≠ .carrierLow) (hfull : e ≠ .carrierFull) :
    carrierOpWires (pulseOf e) = 0b00#2 := by
  cases e with
  | carrierLow => exact absurd rfl hlow
  | carrierFull => exact absurd rfl hfull
  | diag _ | diagNewline | minuteDone =>
    show BitVec.ofBool false ++ BitVec.ofBool false = 0b00#2
    decide

/-! ### Scripts (30_encoding R93, R94) -/

theorem scriptSteps_command {i : Instr} {w : CommandWord} (h : encode i = .cmd w) (ls : List ScriptLine) :
    scriptSteps (.command i :: ls) = .cmd w :: scriptSteps ls := by
  simp only [scriptSteps, lineSteps, h, List.singleton_append]

/-- A wait of either kind is its microseconds, then the rest of the script. -/
theorem scriptSteps_wait (n : Nat) (hold : Bool) (ls : List ScriptLine) :
    scriptSteps ((if hold then ScriptLine.waitHeld n else ScriptLine.wait n) :: ls) =
      List.replicate n (.usec hold) ++ scriptSteps ls := by
  cases hold <;> rfl

/-- The registers of the frame store, of the Second Tick's run bit and of the host's answers, which a microsecond leaves
alone. -/
def untouchedByUsec (s : State) : Memory × Bank × Bool × Bool × BitVec 32 × BitVec 32 :=
  (s.fb, s.fsel, s.fvalid, s.stRun, s.invCnt, s.result)

theorem usec_untouched (hold : Bool) (s : State) : untouchedByUsec (usec hold s) = untouchedByUsec s := by
  simp only [untouchedByUsec, usec_fb, usec_fsel, usec_fvalid, usec_stRun, usec_invCnt, usec_result]

/-- Microseconds listed one after another are all run: `TB` counts them and the untouched registers stay. -/
theorem runStepsWith_replicate_usec (c : Params) (hold : Bool) (n : Nat) {s : State} {rest : List Input}
    (h : s.inputs = List.replicate n (.usec hold) ++ rest) :
    ∃ t, runStepsWith c n s = .next t ∧ t.inputs = rest ∧ t.tb = s.tb + BitVec.ofNat 64 n ∧
      untouchedByUsec t = untouchedByUsec s := by
  induction n generalizing s with
  | zero => exact ⟨s, rfl, h, (BitVec.add_zero _).symm, rfl⟩
  | succ n ih =>
    let s₁ : State := { s with inputs := List.replicate n (.usec hold) ++ rest }
    have hstep : stepWith c s = .next (usec hold s₁) := (stepWith_of_cons c h).trans (usecStep_eq hold s₁)
    obtain ⟨t, ht, hin, htb, hkept⟩ := ih (usec_inputs s₁ hold)
    refine ⟨t, (runStepsWith_succ n hstep).trans ht, hin, ?_, hkept.trans (usec_untouched hold s₁)⟩
    rw [htb, usec_tb, BitVec.add_assoc, Nat.add_comm n 1, BitVec.ofNat_add]
    rfl

end Sys2Proof.Machine

namespace Sys2Proof.Proofs

open Sys2Proof.Machine

/-- Settles O1: each port's canonical word decodes to its operation; a command's fields are read back by division. -/
theorem decodeOfEncodeIsTheOperation : Obligations.DecodeOfEncodeIsTheOperation := fun _ => decode_encode

/-- Settles O2: a word that decodes is a row of the opcode map, whose operands fit and whose mask clears one run of
bits. -/
theorem encodeOfDecodeClearsIgnoredBits : Obligations.EncodeOfDecodeClearsIgnoredBits := by
  intro w i h
  obtain ⟨hrsv, hrow⟩ := opcodeRow_of_decodeCmd h
  exact ⟨hrow.wf, hrow.encode_eq hrsv rfl⟩

/-- Settles O3: the two checks of R83, then the row of the opcode map with its fields written out. -/
theorem commandDecoderFollowsTheOpcodeMap : Obligations.CommandDecoderFollowsTheOpcodeMap := by
  intro w
  refine ⟨fun hbad => ?_, decodeCmd_of_rsv_zero, fun hrsv hop => ?_, decodeCmd_of_rsv_zero, fun hrsv hop => ?_,
    decodeCmd_of_rsv_zero, decodeCmd_of_rsv_zero, decodeCmd_of_rsv_zero⟩
  · by_cases hrsv : w.toNat / 2 ^ 34 % 2 ^ 2 = 0
    · have hop : 6 < w.toNat / 2 ^ 36 := hbad.resolve_left (absurd hrsv)
      exact ⟨_, (decodeCmd_of_rsv_zero hrsv rfl).trans (decodeOpcode_of_reserved w hop)⟩
    · exact ⟨_, decodeCmd_of_rsv_ne_zero hrsv⟩
  · rw [decodeCmd_of_rsv_zero hrsv hop, decodeOpcode, sampleField, minuteField_eq]
    rfl
  · rw [decodeCmd_of_rsv_zero hrsv hop, decodeOpcode, packField_eq]

/-- Settles O10: a line's steps are the front of the environment's list, a command's word decodes to the command, and
the microseconds of a wait are run one after another. -/
theorem scriptLinesRunTheirSteps : Obligations.ScriptLinesRunTheirSteps := by
  intro s ls
  refine ⟨fun i hwf ⟨w, hw⟩ hs => ?_, fun w => stepWith_of_cons defaultParams, stepWith_of_cons defaultParams,
    fun n => ⟨rfl, rfl⟩, fun n => stepWith_of_cons defaultParams, fun n => stepWith_of_cons defaultParams,
    fun n hold hs => ?_⟩
  · have hdecode : decodeCmd w = .ok i := by
      have h := decode_encode hwf
      rwa [hw] at h
    rw [scriptSteps_command hw] at hs
    exact ((stepWith_of_cons defaultParams hs).trans (commandStepWith_of_ok defaultParams hdecode _)).trans
      (execWith_default i _)
  · rw [scriptSteps_wait] at hs
    obtain ⟨t, ht, hin, htb, hkept⟩ := runStepsWith_replicate_usec defaultParams hold n hs
    simp only [untouchedByUsec, Prod.mk.injEq] at hkept
    exact ⟨t, ht, hin, htb, hkept⟩

/-- Settles O4: each worked word is decoded by running the decoder on it. -/
theorem workedEncodingsDecode : Obligations.WorkedEncodingsDecode :=
  ⟨by decide, by decide, by decide, by decide, by decide, by decide, by decide, by decide,
    ⟨.reservedOpcode, by decide⟩, ⟨.reservedBits, by decide⟩⟩

/-- Settles O5: the isolated requests are the arbiter's four services, and each table's other words are refused. -/
theorem requestAndCarrierCodesDecode : Obligations.RequestAndCarrierCodesDecode :=
  ⟨⟨decodeRequest_requestBit 0, decodeRequest_requestBit 1, decodeRequest_requestBit 2, decodeRequest_requestBit 3⟩,
    fun _ h => ⟨_, decodeRequest_of_not_isolated h⟩, ⟨rfl, rfl⟩, fun _ h => ⟨_, decodeCarrierOp_of_not_mem h⟩⟩

/-- Settles O57: only the two carrier events drive the carrier wires, one wire each. -/
theorem carrierPortCodes : Obligations.CarrierPortCodes := by
  refine ⟨rfl, rfl, fun _ => carrierOpWires_of_ne, fun e => ?_, rfl, rfl, rfl⟩
  cases e with
  | carrierLow | carrierFull => decide
  | diag _ | diagNewline | minuteDone =>
    rw [carrierOpWires_of_ne (by nofun) (by nofun)]
    decide

end Sys2Proof.Proofs

/-! SUPPORT. The packed word nibble by nibble, and the two outcomes of PACK (40_bcd_packer R110, R112). -/

namespace Sys2Proof.Machine

/-! ### The packed word (40_bcd_packer R110) -/

section
variable (n : Fin 1000)

/-- The three digits fit in 12 bits, so nothing is lost in the word. -/
theorem packBcd_toNat : (packBcd n).toNat = n.val / 100 * 256 + (n.val - 100 * (n.val / 100)) / 10 * 16 + n.val % 10 :=
  Nat.mod_eq_of_lt (by omega)

/-- The nibble at bit `k` of the packed word, by division. -/
theorem packBcd_nibble (k : Nat) : ((packBcd n).extractLsb' k 4).toNat = (packBcd n).toNat / 2 ^ k % 2 ^ 4 := by
  rw [BitVec.extractLsb'_toNat, Nat.shiftRight_eq_div_pow]

/-- Digits below 16 do not overlap in the word: each nibble holds one of them, the top one none. -/
theorem packBcd_nibbles :
    (packBcd n).extractLsb' 12 4 = 0#4 ∧ ((packBcd n).extractLsb' 8 4).toNat = n.val / 100 ∧
    ((packBcd n).extractLsb' 4 4).toNat = (n.val - 100 * (n.val / 100)) / 10 ∧
    ((packBcd n).extractLsb' 0 4).toNat = n.val % 10 := by
  have hhundreds : n.val / 100 < 16 := by omega
  have htens : (n.val - 100 * (n.val / 100)) / 10 < 16 := by omega
  have hones : n.val % 10 < 16 := by omega
  have hword := packBcd_toNat n
  generalize n.val / 100 = hundreds, (n.val - 100 * (n.val / 100)) / 10 = tens, n.val % 10 = ones at *
  refine ⟨BitVec.eq_of_toNat_eq ?_, ?_, ?_, ?_⟩ <;> rw [packBcd_nibble, hword]
  · rw [BitVec.toNat_zero]; omega
  all_goals omega

end

/-! ### PACK (40_bcd_packer R112) -/

theorem execPack_of_lt {n : Nat} (h : n < 1000) (s : State) :
    execPack n s = .next (answer ((packBcd ⟨n, h⟩).setWidth 32) s) := dif_pos h

theorem execPack_of_not_lt {n : Nat} (h : ¬ n < 1000) (s : State) :
    execPack n s = .next (raise .illegalCommand s) := dif_neg h

/-- The canonical word of PACK is its opcode with the operand in the low bits (30_encoding R81, R93). -/
theorem decodeCmd_commandWord_pack {n : Nat} (h : n < 2 ^ 10) : decodeCmd (commandWord 3 n) = .ok (.pack n) :=
  decode_encode (i := .pack n) (decide_eq_true h)

end Sys2Proof.Machine

namespace Sys2Proof.Proofs

open Sys2Proof.Machine

/-- Settles O12: PACK's two branches, the packed word read as a number, and the canonical word of PACK. -/
theorem packWritesThePackedWord : Obligations.PackWritesThePackedWord := by
  refine fun n s => ⟨fun hle => ?_, fun hgt => ?_, decodeCmd_commandWord_pack⟩
  · have h : n < 1000 := by omega
    have hword : (packBcd ⟨n, h⟩).setWidth 32 =
        BitVec.ofNat 32 (n / 100 * 256 + (n - 100 * (n / 100)) / 10 * 16 + n % 10) := by
      rw [← BitVec.ofNat_toNat, packBcd_toNat]
    exact (execPack_of_lt h s).trans (by rw [hword, answer])
  · rw [← raise_illegalCommand]
    exact execPack_of_not_lt (by omega) s

/-- Settles O13: each nibble is the packed word divided down to its place. -/
theorem packedDigitsStandInTheirNibbles : Obligations.PackedDigitsStandInTheirNibbles := fun n =>
  have ⟨hunused, hhundreds, htens, hones⟩ := packBcd_nibbles n
  ⟨hunused, hhundreds, htens, hones, packBcd_toNat n⟩

/-- Settles O14: the nibbles are the decimal digits of `n`, of which `n` is the sum by place. -/
theorem packingIsInvertible : Obligations.PackingIsInvertible := by
  intro n
  obtain ⟨-, hhundreds, htens, hones⟩ := packBcd_nibbles n
  simp only [hhundreds, htens, hones]
  omega

end Sys2Proof.Proofs

/-! SUPPORT. The outcomes of LEAP, DSTWIN and ISDST and their words (41_calendar R121, R126, R128), the default window
as numbers (R123 to R125), and ENCODE of a valid sample (42_frame_encoder R160). -/

namespace Sys2Proof.Machine

/-! ### The rules of the calendar (41_calendar R120, R123, R125, R127) -/

theorem isDst_iff (c : Params) (y d : Nat) :
    isDst c y d = true ↔ (c.dstWindow y).1 ≤ d ∧ d < (c.dstWindow y).2 := by
  simp only [isDst, Bool.and_eq_true, decide_eq_true_eq]

theorem febLen_eq (y : Nat) : febLen y = if y % 4 = 0 ∧ (y % 100 ≠ 0 ∨ y % 400 = 0) then 29 else 28 :=
  if_congr (isLeapYear_iff y) rfl rfl

theorem febLen_eq_or (y : Nat) : febLen y = 28 ∨ febLen y = 29 := (ite_eq_or_eq _ 29 28).symm

/-- The two base days are 245 = 35 * 7 days apart, so they leave one remainder modulo 7 and the window has one length in
every year. -/
theorem defaultDstWindow_length (y : Nat) : (defaultDstWindow y).2 = (defaultDstWindow y).1 + 238 := by
  simp only [defaultDstWindow]
  omega

/-- The start is 8 to 14 days after the base day, which is 59 or 60 as February has 28 or 29 days. -/
theorem defaultDstWindow_start (y : Nat) : 67 ≤ (defaultDstWindow y).1 ∧ (defaultDstWindow y).1 ≤ 74 := by
  have hfeb := febLen_eq_or y
  simp only [defaultDstWindow]
  omega

/-! ### The word of a window (30_encoding R90) -/

/-- A field of a 32-bit word, by division. -/
theorem extractLsb'_ofNat_toNat {x : Nat} (hx : x < 2 ^ 32) (lo len : Nat) :
    ((BitVec.ofNat 32 x).extractLsb' lo len).toNat = x / 2 ^ lo % 2 ^ len := by
  rw [BitVec.extractLsb'_toNat, BitVec.toNat_ofNat, Nat.mod_eq_of_lt hx, Nat.shiftRight_eq_div_pow]

/-- A start and an end of 9 bits stand in their fields of RESULT, with zeros between and above. -/
theorem windowWord_fields {start finish : Nat} (hstart : start < 2 ^ 9) (hfinish : finish < 2 ^ 9) :
    ((BitVec.ofNat 32 (finish * 2 ^ 16 + start)).extractLsb' 0 9).toNat = start ∧
    (BitVec.ofNat 32 (finish * 2 ^ 16 + start)).extractLsb' 9 7 = 0#7 ∧
    ((BitVec.ofNat 32 (finish * 2 ^ 16 + start)).extractLsb' 16 9).toNat = finish ∧
    (BitVec.ofNat 32 (finish * 2 ^ 16 + start)).extractLsb' 25 7 = 0#7 := by
  have hfits : finish * 2 ^ 16 + start < 2 ^ 32 := by omega
  refine ⟨?_, BitVec.eq_of_toNat_eq ?_, ?_, BitVec.eq_of_toNat_eq ?_⟩ <;> rw [extractLsb'_ofNat_toNat hfits]
  · omega
  · rw [BitVec.toNat_zero]; omega
  · omega
  · rw [BitVec.toNat_zero]; omega

/-! ### LEAP, DSTWIN and ISDST: an answer, or a refusal (41_calendar R121, R126, R128) -/

section
variable {y d : Nat} (c : Params) (s : State)

theorem not_yearOk (h : y < 1 ∨ 9999 < y) : ¬ yearOk y = true := by
  rw [yearOk_iff]; omega

/-- The two range checks of ISDST as a proposition. -/
theorem yearOk_and_dayOk_iff : (yearOk y && dayOk d) = true ↔ (1 ≤ y ∧ y ≤ 9999) ∧ 1 ≤ d ∧ d ≤ 366 := by
  rw [Bool.and_eq_true, yearOk_iff, dayOk_iff]

theorem execLeap_of_yearOk (h : yearOk y = true) : execLeap y s =
    .next (answer (if y % 4 = 0 ∧ (y % 100 ≠ 0 ∨ y % 400 = 0) then 1#32 else 0#32) s) := by
  rw [execLeap, if_pos h, if_congr (isLeapYear_iff y) rfl rfl]

theorem execLeap_of_not_yearOk (h : ¬ yearOk y = true) : execLeap y s = .next (raise .illegalCommand s) := if_neg h

theorem execDstwinWith_of_yearOk (h : yearOk y = true) : execDstwinWith c y s =
    .next (answer (BitVec.ofNat 32 ((c.dstWindow y).2 * 2 ^ 16 + (c.dstWindow y).1)) s) := if_pos h

theorem execDstwinWith_of_not_yearOk (h : ¬ yearOk y = true) :
    execDstwinWith c y s = .next (raise .illegalCommand s) := if_neg h

theorem execIsdstWith_of_ok (h : (yearOk y && dayOk d) = true) : execIsdstWith c y d s =
    .next (answer (if (c.dstWindow y).1 ≤ d ∧ d < (c.dstWindow y).2 then 1#32 else 0#32) s) := by
  rw [execIsdstWith, if_pos h, if_congr (isDst_iff c y d) rfl rfl]

theorem execIsdstWith_of_not_ok (h : ¬ (yearOk y && dayOk d) = true) :
    execIsdstWith c y d s = .next (raise .illegalCommand s) := if_neg h

/-! ### Their canonical words (30_encoding R81, R93) -/

theorem decodeCmd_commandWord_leap (h : y < 2 ^ 14) : decodeCmd (commandWord 4 (y * 2 ^ 20)) = .ok (.leap y) :=
  decode_encode (i := .leap y) (decide_eq_true h)

theorem decodeCmd_commandWord_dstwin (h : y < 2 ^ 14) : decodeCmd (commandWord 5 (y * 2 ^ 20)) = .ok (.dstwin y) :=
  decode_encode (i := .dstwin y) (decide_eq_true h)

theorem decodeCmd_commandWord_isdst (hy : y < 2 ^ 14) (hd : d < 2 ^ 9) :
    decodeCmd (commandWord 6 (y * 2 ^ 20 + d * 2 ^ 11)) = .ok (.isdst y d) :=
  decode_encode (i := .isdst y d) (Bool.and_eq_true_iff.mpr ⟨decide_eq_true hy, decide_eq_true hd⟩)

end

/-! ### ENCODE of a valid sample (42_frame_encoder R160) -/

/-- A publish is its frame store and the three bits; every other field is kept. -/
theorem publish_eq (f : Frame) (s : State) :
    publish f s = { s with fb := (publish f s).fb, fsel := 1 - s.fsel, fvalid := true, fresh := true } := by
  simp only [publish]

/-- A publish leaves every address outside the back bank of before. -/
theorem publish_read_of_ne (f : Frame) {s : State} {a : Nat} (h : ∀ i : SlotIndex, a ≠ slotAddress (1 - s.fsel) i) :
    Memory.read (publish f s).fb a = Memory.read s.fb a := by
  rw [publish_fb]
  exact read_writeSlots_of_ne s.fb (1 - s.fsel) f 60 h

/-- The whole outcome: the new front bank holds the frame, and only the store's back bank and its three bits changed. -/
theorem execEncodeWith_publishes (c : Params) (v : ValidSample) (s : State) : ∃ t,
    execEncodeWith c v.sample s = .next t ∧
    t = { s with fb := t.fb, fsel := 1 - s.fsel, fvalid := true, fresh := true } ∧
    (∀ i : SlotIndex, t.slot? t.fsel i = some (encodeFrame c v i)) ∧
    (∀ a : Nat, (∀ i : SlotIndex, a ≠ slotAddress (1 - s.fsel) i) → Memory.read t.fb a = Memory.read s.fb a) :=
  ⟨publish (encodeFrame c v) s, execEncodeWith_valid c v s, publish_eq _ s,
    fun i => by rw [publish_fsel]; exact publish_slot?_back _ s i, fun _ => publish_read_of_ne _⟩

end Sys2Proof.Machine

namespace Sys2Proof.Proofs

open Sys2Proof.Machine

/-- Settles O17: the start is 8 to 14 days after a base day of 59 or 60, the end 238 days later, and both fit in the
9 bits of their fields. -/
theorem defaultWindowIsBounded : Obligations.DefaultWindowIsBounded := by
  intro y
  obtain ⟨hlo, hhi⟩ : 67 ≤ (defaultParams.dstWindow y).1 ∧ (defaultParams.dstWindow y).1 ≤ 74 :=
    defaultDstWindow_start y
  have hlength : (defaultParams.dstWindow y).2 = (defaultParams.dstWindow y).1 + 238 := defaultDstWindow_length y
  refine ⟨hlo, hhi, by omega, by omega, hlength, fun s h1 h2 => ?_⟩
  exact ⟨_, execDstwinWith_of_yearOk defaultParams s ((yearOk_iff y).mpr ⟨h1, h2⟩),
    windowWord_fields (by omega) (by omega)⟩

/-- Settles O15: LEAP's two branches, the leap-year rule, and the canonical word of LEAP. -/
theorem leapAnswersTheGregorianRule : Obligations.LeapAnswersTheGregorianRule :=
  ⟨isLeapYear_iff, fun y s => ⟨fun h1 h2 => execLeap_of_yearOk s ((yearOk_iff y).mpr ⟨h1, h2⟩),
    fun h => execLeap_of_not_yearOk s (not_yearOk h), decodeCmd_commandWord_leap⟩⟩

/-- Settles O16: DSTWIN's two branches under any window, and the canonical word of DSTWIN. -/
theorem dstwinAnswersTheWindow : Obligations.DstwinAnswersTheWindow :=
  ⟨fun c y s => ⟨fun h1 h2 => execDstwinWith_of_yearOk c s ((yearOk_iff y).mpr ⟨h1, h2⟩),
    fun h => execDstwinWith_of_not_yearOk c s (not_yearOk h)⟩, fun _ => decodeCmd_commandWord_dstwin⟩

/-- Settles O18: ISDST's two branches under any window, and the canonical word of ISDST. -/
theorem isdstTestsTheWindow : Obligations.IsdstTestsTheWindow := by
  refine ⟨fun c y d s => ⟨fun hy1 hy2 hd1 hd2 => ?_, fun h => ?_⟩, fun y d hy hd => ?_⟩
  · exact execIsdstWith_of_ok c s (yearOk_and_dayOk_iff.mpr ⟨⟨hy1, hy2⟩, hd1, hd2⟩)
  · exact execIsdstWith_of_not_ok c s (by rw [yearOk_and_dayOk_iff]; omega)
  · rw [Nat.add_assoc]
    exact decodeCmd_commandWord_isdst hy hd

/-- Settles O22: exec's three arms are the parameterised commands at the defaults, whose window is the formula with the
length of February written out. -/
theorem parameterisedCommandsRunWithTheDefaults : Obligations.ParameterisedCommandsRunWithTheDefaults := by
  intro y feb a start finish
  have hwindow : defaultParams.dstWindow y = (start, finish) := by
    have hfeb : febLen y = feb := febLen_eq y
    show defaultDstWindow y = (start, finish)
    rw [defaultDstWindow, hfeb]
    rfl
  refine ⟨hwindow, fun hy1 hy2 d h m s hd1 hd2 hh hm => ⟨?_, ?_, ?_⟩⟩
  · have hdstwin := execDstwinWith_of_yearOk defaultParams s ((yearOk_iff y).mpr ⟨hy1, hy2⟩)
    rwa [hwindow] at hdstwin
  · have hisdst := execIsdstWith_of_ok defaultParams s (yearOk_and_dayOk_iff.mpr ⟨⟨hy1, hy2⟩, hd1, hd2⟩)
    rwa [hwindow] at hisdst
  · let v : ValidSample := ⟨_, (sampleOk_iff y d h m).mpr ⟨hy1, hy2, hd1, hd2, hh, hm⟩⟩
    obtain ⟨t, hencode, hpublished⟩ := execEncodeWith_publishes defaultParams v s
    exact ⟨v, t, rfl, hencode, hpublished⟩

end Sys2Proof.Proofs

/-! SUPPORT. The frame encoder (42_frame_encoder): ENCODE's two branches and its word (R160, R161), what each class of
the layout puts in its slot (R141, R142), the default layout (R143, R146), and the fields read back from their bits
(R147, R148). -/

namespace Sys2Proof.Machine

/-! ### ENCODE (42_frame_encoder R160, R161) -/

theorem execEncodeWith_invalid (c : Params) {t : TimeSample} (h : ¬ sampleOk t = true) (s : State) :
    execEncodeWith c t s = .next (raise .invalidTimeSample s) := dif_neg h

/-- InvalidTimeSample sets its flag and counts, and does nothing else (60_exceptions R231). -/
theorem raise_invalidTimeSample (s : State) : raise .invalidTimeSample s = { s with
    invCnt := BitVec.ofNat 32 (min (2 ^ 32 - 1) (s.invCnt.toNat + 1))
    err := s.err ||| 0b00001#5 } := by
  rw [← satSucc_eq_ofNat]
  rfl

/-- The canonical word of ENCODE decodes to it (30_encoding R81, R93). -/
theorem decodeCmd_commandWord_encode {t : TimeSample} (h : t.fits = true) :
    decodeCmd (commandWord 1 (t.year * 2 ^ 20 + t.dayOfYear * 2 ^ 11 + t.hour * 2 ^ 6 + t.minute)) =
      .ok (.encode t) :=
  decode_encode (i := .encode t) h

/-- The word of ENCODE as R160 writes it is the canonical one. -/
theorem encodeWord_eq_commandWord (y d h m : Nat) :
    BitVec.ofNat 40 (0x1000000000 + y * 2 ^ 20 + d * 2 ^ 11 + h * 2 ^ 6 + m) =
      commandWord 1 (y * 2 ^ 20 + d * 2 ^ 11 + h * 2 ^ 6 + m) := congrArg (BitVec.ofNat 40) (by omega)

/-- There are two banks: one and the other. -/
theorem bank_eq_or_eq_backBank (b c : Bank) : b = c ∨ b = 1 - c := by revert b c; decide

/-- Publishing a frame twice puts it in both banks: the second publish writes the bank the first one left in front. -/
theorem publish_publish_slot? (f : Frame) (s : State) (b : Bank) (i : SlotIndex) :
    (publish f (publish f s)).slot? b i = some (f i) := by
  obtain rfl | rfl := bank_eq_or_eq_backBank b (publish f s).fsel
  · rw [publish_slot?_front, publish_fsel, publish_slot?_back]
  · exact publish_slot?_back f (publish f s) i

/-! ### What a class of the layout puts in its slot (42_frame_encoder R141, R142) -/

/-- The digits of `n` as one number, a nibble each (40_bcd_packer R110). -/
def packedDigits (n : Nat) : Nat := n / 100 * 256 + (n - 100 * (n / 100)) / 10 * 16 + n % 10

section
variable (c : Params) (v : ValidSample)

theorem slotContent_minute (b : Fin 7) :
    slotContent c v (.minute b) = slotOfBit ((packedDigits v.sample.minute).testBit b.val) :=
  congrArg slotOfBit (packBcd_getLsbD _ (by omega))

theorem slotContent_hour (b : Fin 6) :
    slotContent c v (.hour b) = slotOfBit ((packedDigits v.sample.hour).testBit b.val) :=
  congrArg slotOfBit (packBcd_getLsbD _ (by omega))

theorem slotContent_day (b : Fin 10) :
    slotContent c v (.day b) = slotOfBit ((packedDigits v.sample.dayOfYear).testBit b.val) :=
  congrArg slotOfBit (packBcd_getLsbD _ (by omega))

theorem slotContent_year (b : Fin 8) :
    slotContent c v (.year b) = slotOfBit ((packedDigits (v.sample.year % 100)).testBit b.val) :=
  congrArg slotOfBit (packBcd_getLsbD _ (by omega))

theorem slotContent_leapYear : slotContent c v .leapYear =
    if v.sample.year % 4 = 0 ∧ (v.sample.year % 100 ≠ 0 ∨ v.sample.year % 400 = 0) then .one else .zero :=
  if_congr (isLeapYear_iff _) rfl rfl

theorem slotContent_dst (copy : Fin 2) : slotContent c v (.dst copy) =
    if (c.dstWindow v.sample.year).1 ≤ v.sample.dayOfYear ∧ v.sample.dayOfYear < (c.dstWindow v.sample.year).2
    then .one else .zero :=
  if_congr (isDst_iff ..) rfl rfl

end

/-- A data bit is never sent as MARKER. -/
theorem slotOfBit_ne_marker (b : Bool) : slotOfBit b ≠ .marker := by cases b <;> decide

/-- Only a marker entry of the layout sends MARKER. -/
theorem slotContent_eq_marker_iff (c : Params) (v : ValidSample) (x : SlotContent) :
    slotContent c v x = .marker ↔ x = .marker := by
  cases x with
  | marker => exact iff_of_true rfl rfl
  | zero | leapSecond => exact iff_of_false nofun nofun
  | minute _ | hour _ | day _ | year _ | leapYear | dst _ => exact iff_of_false (slotOfBit_ne_marker _) nofun

/-! ### The default layout (42_frame_encoder R143, R146) -/

/-- The frame of the default layout is its table with each class replaced by what the class sends. -/
theorem encodeFrame_default (v : ValidSample) (i : SlotIndex) : encodeFrame defaultParams v i =
    (layoutTable.map (slotContent defaultParams v)).getD i.val .zero :=
  (List.getD_map layoutTable .zero (slotContent defaultParams v)).symm

/-- Where the table has a class. -/
def tableIndex (x : SlotContent) : SlotIndex := Fin.ofNat 60 (layoutTable.idxOf x)

/-- Every field bit is in the table. -/
theorem defaultLayout_tableIndex {x : SlotContent} (h : isFieldBit x = true) : defaultLayout (tableIndex x) = x := by
  cases x with
  | marker | zero => cases h
  | leapYear | leapSecond => decide
  | minute b | hour b | day b | year b | dst b => revert b; decide

/-- No field bit is in the table twice: the index of an entry's class is the entry's own. -/
theorem tableIndex_defaultLayout :
    ∀ j : SlotIndex, isFieldBit (defaultLayout j) = true → tableIndex (defaultLayout j) = j := by decide

theorem layoutLawful_defaultLayout : LayoutLawful defaultLayout where
  marker_iff := by decide
  zero_iff := by decide
  once x hx := ⟨tableIndex x, defaultLayout_tableIndex hx, fun j hj => by
    subst hj
    exact (tableIndex_defaultLayout j hx).symm⟩

/-! ### Reading the fields back (42_frame_encoder R147 item 5, R148) -/

/-- The bit a slot of class `x` carries, as a number: 1 for ONE. -/
def carriedBit (v : ValidSample) (x : SlotContent) : Nat := if slotContent defaultParams v x = .one then 1 else 0

theorem carriedBit_of_slotOfBit {v : ValidSample} {x : SlotContent} {b : Bool}
    (h : slotContent defaultParams v x = slotOfBit b) : carriedBit v x = b.toNat := by
  rw [carriedBit, h]
  cases b <;> rfl

/-- Bit `k` of the packed number, as a number. -/
def packedBit (n : Fin 1000) (k : Nat) : Nat := ((packBcd n).getLsbD k).toNat

/-- A nibble of the packed number is the weighted sum of its four bits. -/
theorem packBcd_nibble_eq_weighted_bits (n : Fin 1000) (k : Nat) : ((packBcd n).extractLsb' k 4).toNat =
    8 * packedBit n (k + 3) + 4 * packedBit n (k + 2) + 2 * packedBit n (k + 1) + packedBit n k := by
  simp only [packBcd_nibble, packedBit, BitVec.getLsbD, Nat.toNat_testBit, Nat.pow_add, ← Nat.div_div_eq_div_mul]
  omega

/-- The three digits of a number below 1000, each from the bits of its nibble. -/
theorem digits_eq_weighted_bits {n : Nat} (h : n < 1000) :
    let b := packedBit ⟨n, h⟩
    n / 100 = 8 * b 11 + 4 * b 10 + 2 * b 9 + b 8 ∧
    (n - 100 * (n / 100)) / 10 = 8 * b 7 + 4 * b 6 + 2 * b 5 + b 4 ∧
    n % 10 = 8 * b 3 + 4 * b 2 + 2 * b 1 + b 0 := by
  obtain ⟨-, hhundreds, htens, hones⟩ := packBcd_nibbles ⟨n, h⟩
  rw [packBcd_nibble_eq_weighted_bits] at hhundreds htens hones
  exact ⟨hhundreds.symm, htens.symm, hones.symm⟩

section
variable (v : ValidSample)

theorem ValidSample.ranges : v.sample.dayOfYear ≤ 366 ∧ v.sample.hour ≤ 23 ∧ v.sample.minute ≤ 59 := by
  obtain ⟨-, -, -, hday, hhour, hminute⟩ := (sampleOk_iff ..).mp v.ok
  exact ⟨hday, hhour, hminute⟩

theorem carriedBit_minute (k : Fin 7) :
    carriedBit v (.minute k) = packedBit ⟨v.sample.minute, v.minute_lt⟩ k := carriedBit_of_slotOfBit rfl

theorem carriedBit_hour (k : Fin 6) :
    carriedBit v (.hour k) = packedBit ⟨v.sample.hour, v.hour_lt⟩ k := carriedBit_of_slotOfBit rfl

theorem carriedBit_day (k : Fin 10) :
    carriedBit v (.day k) = packedBit ⟨v.sample.dayOfYear, v.dayOfYear_lt⟩ k := carriedBit_of_slotOfBit rfl

theorem carriedBit_year (k : Fin 8) :
    carriedBit v (.year k) = packedBit ⟨v.sample.year % 100, by omega⟩ k := carriedBit_of_slotOfBit rfl

theorem minute_eq_weighted_bits :
    let b := fun k => carriedBit v (.minute k)
    40 * b 6 + 20 * b 5 + 10 * b 4 + 8 * b 3 + 4 * b 2 + 2 * b 1 + b 0 = v.sample.minute := by
  obtain ⟨-, -, hle⟩ := v.ranges
  obtain ⟨-, htens, hones⟩ := digits_eq_weighted_bits v.minute_lt
  simp only [carriedBit_minute, Fin.isValue, Fin.coe_ofNat_eq_mod, Nat.reduceMod]
  omega

theorem hour_eq_weighted_bits :
    let b := fun k => carriedBit v (.hour k)
    20 * b 5 + 10 * b 4 + 8 * b 3 + 4 * b 2 + 2 * b 1 + b 0 = v.sample.hour := by
  obtain ⟨-, hle, -⟩ := v.ranges
  obtain ⟨-, htens, hones⟩ := digits_eq_weighted_bits v.hour_lt
  simp only [carriedBit_hour, Fin.isValue, Fin.coe_ofNat_eq_mod, Nat.reduceMod]
  omega

theorem dayOfYear_eq_weighted_bits :
    let b := fun k => carriedBit v (.day k)
    200 * b 9 + 100 * b 8 + 80 * b 7 + 40 * b 6 + 20 * b 5 + 10 * b 4 + 8 * b 3 + 4 * b 2 + 2 * b 1 + b 0 =
      v.sample.dayOfYear := by
  obtain ⟨hle, -, -⟩ := v.ranges
  obtain ⟨hhundreds, htens, hones⟩ := digits_eq_weighted_bits v.dayOfYear_lt
  simp only [carriedBit_day, Fin.isValue, Fin.coe_ofNat_eq_mod, Nat.reduceMod]
  omega

theorem year_eq_weighted_bits :
    let b := fun k => carriedBit v (.year k)
    80 * b 7 + 40 * b 6 + 20 * b 5 + 10 * b 4 + 8 * b 3 + 4 * b 2 + 2 * b 1 + b 0 = v.sample.year % 100 := by
  obtain ⟨hhundreds, htens, hones⟩ := digits_eq_weighted_bits (n := v.sample.year % 100) (by omega)
  simp only [carriedBit_year, Fin.isValue, Fin.coe_ofNat_eq_mod, Nat.reduceMod]
  omega

end

end Sys2Proof.Machine

namespace Sys2Proof.Proofs

open Sys2Proof.Machine

/-- Settles O20: the publish of a valid sample's frame, the range check on the fields, and the canonical word of
ENCODE. -/
theorem encodePublishesTheFrame : Obligations.EncodePublishesTheFrame := by
  refine ⟨execEncodeWith_publishes, fun c y d h m s => ⟨fun hok => ?_, fun hbad => ?_⟩, fun y d h m hy hd hh hm => ?_⟩
  · exact ⟨⟨_, (sampleOk_iff y d h m).mpr hok⟩, rfl⟩
  · exact execEncodeWith_invalid c (mt (sampleOk_iff y d h m).mp hbad) s
  · rw [encodeWord_eq_commandWord]
    exact decodeCmd_commandWord_encode (t := ⟨y, d, h, m⟩) ((TimeSample.fits_iff _).mpr ⟨hy, hd, hh, hm⟩)

/-- Settles O23: both ENCODEs publish the sample's frame, and the selector is toggled twice. -/
theorem encodeTwiceFillsBothBanks : Obligations.EncodeTwiceFillsBothBanks := fun c v s =>
  ⟨_, _, execEncodeWith_valid c v s, execEncodeWith_valid c v _,
    by rw [publish_fsel, publish_fsel, backBank_backBank], publish_publish_slot? (encodeFrame c v) s⟩

/-- Settles O25: the table of the layout, entry by entry, with the packed bits written out. -/
theorem frameFollowsTheDefaultLayout : Obligations.FrameFollowsTheDefaultLayout := by
  intro v bcd sv m h d y ly ds z mk i
  refine (encodeFrame_default v i).trans (congrArg (List.getD · i.val z) ?_)
  simp only [layoutTable, layoutGroup0, layoutGroup1, layoutGroup2, layoutGroup3, layoutGroup4, layoutGroup5,
    List.map_append, List.map_cons, List.map_nil, slotContent_minute, slotContent_hour, slotContent_day,
    slotContent_year]
  rfl

/-- Settles O28: a slot's bit is that of its class in the table, and each field is the weighted sum of its bits. -/
theorem sampleReadsBackFromTheFrame : Obligations.SampleReadsBackFromTheFrame := fun v =>
  ⟨minute_eq_weighted_bits v, hour_eq_weighted_bits v, dayOfYear_eq_weighted_bits v, year_eq_weighted_bits v⟩

/-- Settles O21: the refusing branch of ENCODE under the default parameters. -/
theorem encodeRejectsAnInvalidSample : Obligations.EncodeRejectsAnInvalidSample := by
  intro y d h m s hbad
  rw [← raise_invalidTimeSample]
  exact execEncodeWith_invalid defaultParams (mt (sampleOk_iff y d h m).mp hbad) s

/-- Settles O24: by the class of the layout's entry. -/
theorem slotsCarryTheirField : Obligations.SlotsCarryTheirField := by
  intro c v i bcd sv
  show slotContent c v (c.layout i) = _
  cases c.layout i with
  | marker | zero | leapSecond => rfl
  | minute b => exact slotContent_minute c v b
  | hour b => exact slotContent_hour c v b
  | day b => exact slotContent_day c v b
  | year b => exact slotContent_year c v b
  | leapYear => exact slotContent_leapYear c v
  | dst copy => exact slotContent_dst c v copy

/-- Settles O26: MARKER is sent by marker entries only, and the lawful layout says where its markers and its
always-zero slots are. -/
theorem markersAndZerosNeverVary : Obligations.MarkersAndZerosNeverVary := by
  intro c v i hlawful
  refine ⟨(slotContent_eq_marker_iff c v _).trans (hlawful.marker_iff i), fun hzero => ?_⟩
  rw [encodeFrame, (hlawful.zero_iff i).mpr hzero, slotContent]

/-- Settles O27: the table is searched for each class; the leap-second entry sends ZERO and the two DST entries one
bit. -/
theorem defaultLayoutIsLawful : Obligations.DefaultLayoutIsLawful :=
  ⟨layoutLawful_defaultLayout, fun _ _ => ⟨rfl, rfl⟩⟩

end Sys2Proof.Proofs

/-! SUPPORT. The unheld microsecond of a scheduler that is on time (43_slot_scheduler R190): at most one timer fires in
it, and its request is serviced at once, so the step is one of five plain operations. -/

namespace Sys2Proof.Machine

/-! ### Phase 3 with at most one Bit Timer armed -/

theorem countBitTimers_of_idle {s : State} (h : ∀ k : Fin 3, s.btArmed[k] = false) : countBitTimers s = s := by
  rw [countBitTimers, countBitTimer_idle s (h 0), countBitTimer_idle s (h 1), countBitTimer_idle s (h 2)]

/-- Idle timers do nothing, before or after the armed one has counted. -/
theorem countBitTimers_of_only_armed {s : State} {k : Fin 3} (h : ∀ j, j ≠ k → s.btArmed[j] = false) :
    countBitTimers s = countBitTimer k s := by
  have hbefore : ∀ j, j ≠ k → countBitTimer j s = s := fun j hj => countBitTimer_idle s (h j hj)
  have hafter : ∀ j, j ≠ k → countBitTimer j (countBitTimer k s) = countBitTimer k s := fun j hj =>
    countBitTimer_idle _ (by rw [countBitTimer_armed, if_neg hj, h j hj])
  match k, hbefore, hafter with
  | 0, _, hafter => rw [countBitTimers, hafter 1 (by decide), hafter 2 (by decide)]
  | 1, hbefore, hafter => rw [countBitTimers, hbefore 0 (by decide), hafter 2 (by decide)]
  | 2, hbefore, _ => rw [countBitTimers, hbefore 0 (by decide), hbefore 1 (by decide)]

/-! ### Phase 4 with at most one request pending -/

theorem serveAll_of_none_pending {s : State} (h : ∀ i, pending s i = false) : serveAll s = s := by
  rw [serveAll, serve_of_not_pending (h 0), serve_of_not_pending (h 1), serve_of_not_pending (h 2),
    serve_of_not_pending (h 3)]

/-- Requests that are not pending are passed over, before or after the pending one is serviced. -/
theorem serveAll_of_only_pending {s : State} {i : Fin 4} (h : ∀ j, j ≠ i → pending s j = false) :
    serveAll s = serve i s := by
  have hbefore : ∀ j, j ≠ i → serve j s = s := fun j hj => serve_of_not_pending (h j hj)
  have hafter : ∀ j, j ≠ i → serve j (serve i s) = serve i s := fun j hj =>
    serve_of_not_pending (by rw [pending_serve, h j hj, Bool.false_and])
  match i, hbefore, hafter with
  | 0, _, hafter => rw [serveAll, hafter 1 (by decide), hafter 2 (by decide), hafter 3 (by decide)]
  | 1, hbefore, hafter => rw [serveAll, hbefore 0 (by decide), hafter 2 (by decide), hafter 3 (by decide)]
  | 2, hbefore, hafter => rw [serveAll, hbefore 0 (by decide), hbefore 1 (by decide), hafter 3 (by decide)]
  | 3, hbefore, _ => rw [serveAll, hbefore 0 (by decide), hbefore 1 (by decide), hbefore 2 (by decide)]

/-- The request of a Bit Timer is not that of the Second Tick. -/
theorem castSucc_ne_tick (k : Fin 3) : k.castSucc ≠ (3 : Fin 4) := by revert k; decide

theorem pending_of_pend_eq_zero {s : State} (h : s.pend = 0) (i : Fin 4) : pending s i = false := by
  simp [pending, h]

/-- A fire with no request waiting is serviced on the state as it was before the fire. -/
theorem serveAll_fire {s : State} (hpend : s.pend = 0) (hlate : s.late = 0) (i : Fin 4) :
    serveAll (fire i s) = handler i s := by
  have hnone : ∀ j, pending s j = false := pending_of_pend_eq_zero hpend
  have hback : acknowledge i (fire i s) = s := by
    rw [fire_of_not_pending s (hnone i)]
    obtain ⟨⟨⟩, trace, inputs, epoch⟩ := s
    simp only at hpend hlate
    simp [acknowledge, hpend, hlate]
  have honly : ∀ j, j ≠ i → pending (fire i s) j = false := fun j hj => by
    rw [pending_fire, hnone, Bool.false_or, decide_eq_false hj.symm]
  rw [serveAll_of_only_pending honly, serve_of_pending (by simp [pending_fire]), hback]

/-! ### A scheduler on time -/

/-- On time, and what the register invariant adds: `ST_CNT` is in its range, and an armed Bit Timer has not reached its
alarm, while the Second Tick that it counts with is running (10_state R29, R30). -/
structure Scheduled (s : State) : Prop where
  onTime : OnTime s
  stCnt_lt : s.stCnt.toNat < 1000000
  armed_running : ∀ k : Fin 3, s.btArmed[k] = true → s.stRun = true
  before_alarm : ∀ k : Fin 3, s.btArmed[k] = true → s.stCnt.toNat < (btAlarm k).toNat

theorem OnTime.scheduled {c : Params} {s : State} (h : OnTime s) (hinv : RegInv c s) : Scheduled s where
  onTime := h
  stCnt_lt := hinv.timers.stCnt_lt
  armed_running := hinv.timers.armed_running
  before_alarm k hk := h.in_step k hk ▸ hinv.timers.btCnt_lt k hk

theorem onTime_of_same {s t : State} (h : OnTime s) (hcnt : t.stCnt = s.stCnt) (hbit : t.btCnt = s.btCnt)
    (harmed : t.btArmed = s.btArmed) (hpend : t.pend = s.pend) (hlate : t.late = s.late)
    (hcarrier : t.carrier = s.carrier) : OnTime t where
  no_request := hpend.trans h.no_request
  no_late := hlate.trans h.no_late
  one_armed := by unfold atMostOneArmed; rw [harmed]; exact h.one_armed
  in_step := by rw [harmed, hbit, hcnt]; exact h.in_step
  low_while_armed := by rw [harmed, hcarrier]; exact h.low_while_armed

/-- The steps to come are no matter of the scheduler. -/
theorem Scheduled.dropInput {s : State} (h : Scheduled s) : Scheduled (dropInput s) :=
  ⟨onTime_of_same h.onTime rfl rfl rfl rfl rfl rfl, h.stCnt_lt, h.armed_running, h.before_alarm⟩

theorem onTime_reset : OnTime State.reset :=
  ⟨rfl, rfl, by unfold atMostOneArmed; decide, by decide, by decide⟩

theorem onTime_resetStep (s : State) : OnTime (resetStep s) :=
  onTime_of_same onTime_reset rfl rfl rfl rfl rfl rfl

section
variable {s : State}

theorem OnTime.carrier_true (h : OnTime s) (hidle : ∀ k : Fin 3, s.btArmed[k] = false) : s.carrier = true :=
  Bool.eq_true_of_not_eq_false fun hlow => by
    obtain ⟨k, hk⟩ := h.low_while_armed.mp hlow
    rw [hidle k] at hk
    cases hk

theorem OnTime.carrier_false (h : OnTime s) {k : Fin 3} (hk : s.btArmed[k] = true) : s.carrier = false :=
  h.low_while_armed.mpr ⟨k, hk⟩

theorem OnTime.others_idle (h : OnTime s) {k : Fin 3} (hk : s.btArmed[k] = true) (j : Fin 3) (hj : j ≠ k) :
    s.btArmed[j] = false :=
  Bool.eq_false_iff.mpr fun hj' => hj (h.one_armed j k hj' hk)

/-- At the Second Tick no Bit Timer is armed: the armed one would be past its alarm. -/
theorem Scheduled.idle_of_tick (h : Scheduled s) (hticks : s.stCnt + 1 = stPeriod) (k : Fin 3) :
    s.btArmed[k] = false :=
  Bool.eq_false_iff.mpr fun hk => by
    have hcnt := counter_add_one_toNat h.stCnt_lt
    have hdue := h.before_alarm k hk
    have hlast := btAlarm_le k
    rw [hticks, show stPeriod.toNat = 1000000 from rfl] at hcnt
    omega

end

theorem CommandEffect.ovrCnt_eq {c : Params} {s t : State} (h : CommandEffect c s t) : t.ovrCnt = s.ovrCnt := by
  cases h <;> simp

/-- A command leaves a scheduler on time: START arms the Second Tick only where it stands still, so with no Bit Timer
armed (43_slot_scheduler R172). -/
theorem CommandEffect.onTime {c : Params} {s t : State} (h : CommandEffect c s t) (hs : Scheduled s) : OnTime t := by
  cases h with
  | armed _ hidle =>
    have hno : ∀ k : Fin 3, ¬ s.btArmed[k] = true := fun k hk => by cases hidle.symm.trans (hs.armed_running k hk)
    exact ⟨hs.onTime.no_request, hs.onTime.no_late, hs.onTime.one_armed, fun k hk => absurd hk (hno k),
      hs.onTime.low_while_armed⟩
  | same | illegal | noFrame _ | invalid | answered _ | published _ => apply onTime_of_same hs.onTime <;> simp

/-! ### The five microseconds of a scheduler on time -/

/-- The state with `TB` and `ST_CNT` counted. -/
def countedOn (s : State) : State := setStCnt (s.stCnt + 1) (countTimebase s)

@[simp] theorem countedOn_btArmed (s : State) : (countedOn s).btArmed = s.btArmed := rfl

/-- What an unheld microsecond does to a scheduler that is on time. -/
inductive UsecEffect (s : State) : State → Prop where
  /-- The Second Tick stands still. -/
  | stopped : s.stRun = false → (∀ k : Fin 3, s.btArmed[k] = false) → UsecEffect s (countTimebase s)
  /-- The Second Tick fires and TICK transmits the slot (43_slot_scheduler R181, R184). -/
  | ticked : s.stRun = true → s.stCnt + 1 = stPeriod → (∀ k : Fin 3, s.btArmed[k] = false) →
      UsecEffect s (tickWith (s.slotRead s.fsel s.idx) (setStCnt 0 (countTimebase s)))
  /-- Only the Second Tick counts. -/
  | full : s.stRun = true → s.stCnt + 1 ≠ stPeriod → (∀ k : Fin 3, s.btArmed[k] = false) →
      UsecEffect s (countedOn s)
  /-- The armed Bit Timer counts as well. -/
  | low (k : Fin 3) : s.stRun = true → s.stCnt + 1 ≠ stPeriod → s.btArmed[k] = true → s.stCnt + 1 ≠ btAlarm k →
      UsecEffect s (bumpBitTimer k (countedOn s))
  /-- The armed Bit Timer reaches its alarm and BITFIREk restores the carrier (43_slot_scheduler R182, R188). -/
  | raised (k : Fin 3) : s.stRun = true → s.stCnt + 1 ≠ stPeriod → s.btArmed[k] = true → s.stCnt + 1 = btAlarm k →
      UsecEffect s (bitFire (disarmBitTimer k (bumpBitTimer k (countedOn s))))

/-- Phases 1 and 2 of a running scheduler before its tick. -/
theorem countSecondTick_countTimebase_of_running {s : State} (hr : s.stRun = true) (hn : s.stCnt + 1 ≠ stPeriod) :
    countSecondTick (countTimebase s) = countedOn s :=
  countSecondTick_count (countTimebase s) hr hn

/-- An unheld microsecond of a scheduler on time is one of the five: by whether the Second Tick runs, whether it fires,
and whether a Bit Timer is armed and at its alarm. -/
theorem Scheduled.usecEffect {s : State} (h : Scheduled s) : UsecEffect s (usec false s) := by
  have hnone : ∀ t : State, t.pend = s.pend → serveAll t = t := fun t ht =>
    serveAll_of_none_pending (pending_of_pend_eq_zero (ht.trans h.onTime.no_request))
  show UsecEffect s (serveAll (countBitTimers (countSecondTick (countTimebase s))))
  cases hr : s.stRun with
  | false =>
    have hidle : ∀ k : Fin 3, s.btArmed[k] = false := fun k =>
      Bool.eq_false_iff.mpr fun hk => by cases hr.symm.trans (h.armed_running k hk)
    rw [countSecondTick_idle (countTimebase s) hr, countBitTimers_of_idle (s := countTimebase s) hidle,
      hnone (countTimebase s) rfl]
    exact .stopped hr hidle
  | true =>
    by_cases hn : s.stCnt + 1 = stPeriod
    · have hidle := h.idle_of_tick hn
      rw [countSecondTick_fire (countTimebase s) hr hn, countBitTimers_of_idle (by simpa using hidle),
        serveAll_fire (s := setStCnt 0 (countTimebase s)) h.onTime.no_request h.onTime.no_late]
      exact .ticked hr hn hidle
    · rw [countSecondTick_countTimebase_of_running hr hn]
      by_cases harmed : ∃ k : Fin 3, s.btArmed[k] = true
      · obtain ⟨k, hk⟩ := harmed
        have hcnt := h.onTime.in_step k hk
        rw [countBitTimers_of_only_armed (s := countedOn s) (h.onTime.others_idle hk)]
        by_cases halarm : s.stCnt + 1 = btAlarm k
        · have hfires : (countedOn s).btCnt[k] + 1 = btAlarm k := by rw [← halarm, ← hcnt]; rfl
          rw [countBitTimer_fire (countedOn s) hk hfires,
            serveAll_fire (s := disarmBitTimer k (bumpBitTimer k (countedOn s))) h.onTime.no_request h.onTime.no_late,
            handler_of_bit (castSucc_ne_tick k)]
          exact .raised k hr hn hk halarm
        · have hcounts : (countedOn s).btCnt[k] + 1 ≠ btAlarm k := fun hc => halarm (by rw [← hc, ← hcnt]; rfl)
          rw [countBitTimer_count (countedOn s) hk hcounts, hnone (bumpBitTimer k (countedOn s)) rfl]
          exact .low k hr hn hk halarm
      · have hidle : ∀ k : Fin 3, s.btArmed[k] = false := fun k =>
          Bool.eq_false_iff.mpr fun hk => harmed ⟨k, hk⟩
        rw [countBitTimers_of_idle (s := countedOn s) hidle, hnone (countedOn s) rfl]
        exact .full hr hn hidle

section
variable {s t : State}

/-! ### Such a microsecond leaves the scheduler on time -/

/-- The minute ends after slot 59 (43_slot_scheduler R186). -/
theorem slotIndex_add_one_eq_zero_iff (i : SlotIndex) : i + 1 = 0 ↔ i.val = 59 := by revert i; decide

/-- The events of TICK by the number of the slot. -/
theorem tickWith_trace_val (v : SlotValue) (s : State) : (tickWith v s).trace =
    s.trace ++ [{ event := .carrierLow, tb := s.tb }, { event := .diag v, tb := s.tb }] ++
      (if s.idx.val = 59 then [{ event := .minuteDone, tb := s.tb }, { event := .diagNewline, tb := s.tb }]
       else []) := by
  rw [tickWith_trace, if_congr (slotIndex_add_one_eq_zero_iff s.idx) rfl rfl]

/-- TICK arms the timer of the slot's value alone. -/
theorem tickWith_armed_iff (v : SlotValue) (hidle : ∀ k : Fin 3, s.btArmed[k] = false) (k : Fin 3) :
    (tickWith v s).btArmed[k] = true ↔ k = slotCode v := by
  rw [tickWith_btArmed, getElem_set3, hidle]
  simp

/-- With no request and no Bit Timer armed, full power is on time. -/
theorem scheduled_of_idle (hpend : t.pend = 0) (hlate : t.late = 0) (hidle : ∀ k : Fin 3, t.btArmed[k] = false)
    (hcarrier : t.carrier = true) (hlt : t.stCnt.toNat < 1000000) : Scheduled t :=
  have hno : ∀ k : Fin 3, ¬ t.btArmed[k] = true := fun k => Bool.eq_false_iff.mp (hidle k)
  { onTime := ⟨hpend, hlate, fun j _ hj => absurd hj (hno j), fun k hk => absurd hk (hno k),
      fun hlow => (by cases hcarrier.symm.trans hlow), fun ⟨k, hk⟩ => absurd hk (hno k)⟩
    stCnt_lt := hlt
    armed_running := fun k hk => absurd hk (hno k)
    before_alarm := fun k hk => absurd hk (hno k) }

/-- TICK leaves a scheduler on time where the Second Tick has just been reloaded and no Bit Timer is armed. -/
theorem scheduled_tickWith (v : SlotValue) (hpend : s.pend = 0) (hlate : s.late = 0) (hr : s.stRun = true)
    (hcnt : s.stCnt = 0) (hidle : ∀ k : Fin 3, s.btArmed[k] = false) : Scheduled (tickWith v s) where
  onTime :=
    { no_request := (tickWith_pend s v).trans hpend
      no_late := (tickWith_late s v).trans hlate
      one_armed := fun j k hj hk =>
        ((tickWith_armed_iff v hidle j).mp hj).trans ((tickWith_armed_iff v hidle k).mp hk).symm
      in_step := fun k hk => by
        rw [tickWith_btCnt, getElem_set3, if_pos ((tickWith_armed_iff v hidle k).mp hk), tickWith_stCnt, hcnt]
      low_while_armed :=
        ⟨fun _ => ⟨slotCode v, (tickWith_armed_iff v hidle _).mpr rfl⟩, fun _ => tickWith_carrier s v⟩ }
  stCnt_lt := by rw [tickWith_stCnt, hcnt]; decide
  armed_running _ _ := (tickWith_stRun s v).trans hr
  before_alarm k _ := by
    rw [tickWith_stCnt, hcnt]
    exact lt_of_lt_of_le (by decide) (btAlarm_pos k)

/-- A running Second Tick that does not fire stays below its period. -/
theorem countedOn_stCnt_lt (hlt : s.stCnt.toNat < 1000000) (hn : s.stCnt + 1 ≠ stPeriod) :
    (countedOn s).stCnt.toNat < 1000000 := by
  have hcnt : (countedOn s).stCnt.toNat = s.stCnt.toNat + 1 := counter_add_one_toNat hlt
  have hne : (countedOn s).stCnt.toNat ≠ 1000000 := fun h => hn (BitVec.eq_of_toNat_eq h)
  omega

/-- A Bit Timer that counts with the Second Tick and is not at its alarm stays on time. -/
theorem Scheduled.bumpBitTimer {k : Fin 3} (h : Scheduled s) (hn : s.stCnt + 1 ≠ stPeriod) (hk : s.btArmed[k] = true)
    (halarm : s.stCnt + 1 ≠ btAlarm k) : Scheduled (bumpBitTimer k (countedOn s)) where
  onTime :=
    { no_request := h.onTime.no_request
      no_late := h.onTime.no_late
      one_armed := h.onTime.one_armed
      in_step := fun j hj => by
        obtain rfl := h.onTime.one_armed j k hj hk
        have hcnt := h.onTime.in_step j hk
        rw [bumpBitTimer_btCnt, getElem_set3, if_pos rfl]
        exact congrArg (· + 1) hcnt
      low_while_armed := h.onTime.low_while_armed }
  stCnt_lt := countedOn_stCnt_lt h.stCnt_lt hn
  armed_running := h.armed_running
  before_alarm j hj := by
    obtain rfl := h.onTime.one_armed j k hj hk
    have hdue := h.before_alarm j hk
    have hcnt : (countedOn s).stCnt.toNat = s.stCnt.toNat + 1 := counter_add_one_toNat h.stCnt_lt
    have hne : (countedOn s).stCnt.toNat ≠ (btAlarm j).toNat := fun h => halarm (BitVec.eq_of_toNat_eq h)
    show (countedOn s).stCnt.toNat < _
    omega

/-- After the only armed Bit Timer has disarmed itself none is armed. -/
theorem OnTime.idle_after_disarm {k : Fin 3} (h : OnTime s) (hk : s.btArmed[k] = true) (j : Fin 3) :
    (s.btArmed.set k false)[j] = false := by
  rw [getElem_set3]
  split
  · rfl
  · exact h.others_idle hk j ‹_›

theorem UsecEffect.scheduled (h : UsecEffect s t) (hs : Scheduled s) : Scheduled t := by
  have hpend := hs.onTime.no_request
  have hlate := hs.onTime.no_late
  cases h with
  | stopped _ hidle => exact scheduled_of_idle hpend hlate hidle (hs.onTime.carrier_true hidle) hs.stCnt_lt
  | ticked hr _ hidle => exact scheduled_tickWith _ hpend hlate hr rfl hidle
  | full _ hn hidle =>
    exact scheduled_of_idle hpend hlate hidle (hs.onTime.carrier_true hidle) (countedOn_stCnt_lt hs.stCnt_lt hn)
  | low k _ hn hk halarm => exact hs.bumpBitTimer hn hk halarm
  | raised k _ hn hk _ =>
    exact scheduled_of_idle hpend hlate (hs.onTime.idle_after_disarm hk) rfl (countedOn_stCnt_lt hs.stCnt_lt hn)

/-! ### What such a microsecond does, register by register -/

/-- It counts no overrun: nothing is pending when a timer fires, and no Bit Timer is armed when TICK runs. -/
theorem UsecEffect.ovrCnt_eq (h : UsecEffect s t) : t.ovrCnt = s.ovrCnt := by
  cases h with
  | ticked _ _ hidle =>
    rw [tickWith_ovrCnt, if_neg]
    · rfl
    · rintro (h0 | h1 | h2)
      · exact Bool.eq_false_iff.mp (hidle 0) h0
      · exact Bool.eq_false_iff.mp (hidle 1) h1
      · exact Bool.eq_false_iff.mp (hidle 2) h2
  | stopped | full | low | raised => rfl

/-- The Second Tick that fires is serviced by TICK, with no Bit Timer armed. -/
theorem UsecEffect.of_tick (h : UsecEffect s t) (hr : s.stRun = true) (hticks : s.stCnt + 1 = stPeriod) :
    t = tickWith (s.slotRead s.fsel s.idx) (setStCnt 0 (countTimebase s)) ∧ ∀ k : Fin 3, s.btArmed[k] = false := by
  cases h with
  | stopped hidle _ => cases hr.symm.trans hidle
  | ticked _ _ hidle => exact ⟨rfl, hidle⟩
  | full _ hn _ | low _ _ hn _ _ | raised _ _ hn _ _ => exact absurd hticks hn

section
variable (h : UsecEffect s t) (hn : s.stCnt + 1 ≠ stPeriod)
include h hn

/-- Without a tick `IDX` stays. -/
theorem UsecEffect.idx_eq : t.idx = s.idx := by
  cases h with
  | ticked _ hticks _ => exact absurd hticks hn
  | stopped | full | low | raised => rfl

/-- Without a tick a running Second Tick counts one. -/
theorem UsecEffect.stCnt_eq (hr : s.stRun = true) : t.stCnt = s.stCnt + 1 := by
  cases h with
  | stopped hidle _ => cases hr.symm.trans hidle
  | ticked _ hticks _ => exact absurd hticks hn
  | full | low | raised => rfl

/-- Without a tick a Bit Timer stays armed until its alarm. -/
theorem UsecEffect.armed_iff (hs : Scheduled s) (k : Fin 3) :
    t.btArmed[k] = true ↔ s.btArmed[k] = true ∧ s.stCnt + 1 ≠ btAlarm k := by
  cases h with
  | ticked _ hticks _ => exact absurd hticks hn
  | stopped _ hidle | full _ _ hidle => simp [hidle k]
  | low j _ _ hj halarm =>
    rw [bumpBitTimer_btArmed, countedOn_btArmed]
    exact ⟨fun hk => ⟨hk, hs.onTime.one_armed k j hk hj ▸ halarm⟩, And.left⟩
  | raised j _ _ hj halarm =>
    rw [bitFire_btArmed, disarmBitTimer_btArmed, bumpBitTimer_btArmed, countedOn_btArmed,
      hs.onTime.idle_after_disarm hj]
    refine ⟨fun h => (by cases h), fun ⟨hk, hne⟩ => absurd ?_ hne⟩
    exact hs.onTime.one_armed k j hk hj ▸ halarm

/-- Without a tick, and with no Bit Timer armed, the carrier is full and nothing is emitted. -/
theorem UsecEffect.of_idle (hs : Scheduled s) (hidle : ∀ k : Fin 3, s.btArmed[k] = false) :
    t.carrier = true ∧ t.trace = s.trace := by
  cases h with
  | ticked _ hticks _ => exact absurd hticks hn
  | stopped | full => exact ⟨hs.onTime.carrier_true hidle, rfl⟩
  | low k _ _ hk _ | raised k _ _ hk _ => cases (hidle k).symm.trans hk

/-- An armed Bit Timer that is not at its alarm keeps the carrier low, and nothing is emitted. -/
theorem UsecEffect.of_counting (hs : Scheduled s) {k : Fin 3} (hk : s.btArmed[k] = true)
    (halarm : s.stCnt + 1 ≠ btAlarm k) : t.btArmed[k] = true ∧ t.carrier = false ∧ t.trace = s.trace := by
  refine ⟨(h.armed_iff hn hs k).mpr ⟨hk, halarm⟩, ?_⟩
  cases h with
  | ticked _ hticks _ => exact absurd hticks hn
  | stopped _ hidle | full _ _ hidle => cases (hidle k).symm.trans hk
  | low => exact ⟨hs.onTime.carrier_false hk, rfl⟩
  | raised j _ _ hj halarm' => exact absurd (hs.onTime.one_armed k j hk hj ▸ halarm') halarm

/-- An armed Bit Timer restores the carrier at its alarm, with the event of BITFIREk. -/
theorem UsecEffect.of_alarm (hs : Scheduled s) {k : Fin 3} (hk : s.btArmed[k] = true)
    (halarm : s.stCnt + 1 = btAlarm k) :
    t.carrier = true ∧ t.trace = s.trace ++ [{ event := .carrierFull, tb := s.tb + 1 }] := by
  cases h with
  | ticked _ hticks _ => exact absurd hticks hn
  | stopped _ hidle | full _ _ hidle => cases (hidle k).symm.trans hk
  | low j _ _ hj halarm' => exact absurd halarm (hs.onTime.one_armed k j hk hj ▸ halarm')
  | raised => exact ⟨rfl, rfl⟩

end

end

end Sys2Proof.Machine

namespace Sys2Proof.Proofs

open Sys2Proof.Machine

/-- Settles O55: `Reset` and commands leave timers, requests and carrier on time; a microsecond is one of the five of
`UsecEffect`, each of which does too. -/
theorem unheldStepsKeepTheTimeCode : Obligations.UnheldStepsKeepTheTimeCode := by
  refine ⟨onTime_reset, fun c s t hinv hontime hheld ht => ?_⟩
  obtain ⟨h, hs⟩ | ⟨w, u, h, hs, he⟩ | ⟨hold, h, hs⟩ := stepWith_cases c s
  · cases hs.symm.trans ht
    exact ⟨onTime_resetStep _, fun hne => absurd h hne, fun h' => by cases h.symm.trans h'⟩
  · cases hs.symm.trans ht
    exact ⟨he.onTime (hontime.scheduled hinv).dropInput, fun _ => he.ovrCnt_eq, fun h' => by cases h.symm.trans h'⟩
  · cases hs.symm.trans ht
    obtain rfl : hold = false := Bool.eq_false_iff.mpr fun hh => hheld (hh ▸ h)
    have hsched : Scheduled (dropInput s) := (hontime.scheduled hinv).dropInput
    have he : UsecEffect (dropInput s) (usec false (dropInput s)) := hsched.usecEffect
    refine ⟨(he.scheduled hsched).onTime, fun _ => he.ovrCnt_eq, fun _ hr => ⟨fun hticks => ?_, fun hn => ⟨
      he.stCnt_eq hn hr, he.idx_eq hn, fun k hk => ⟨he.of_alarm hn hsched hk, he.of_counting hn hsched hk⟩⟩,
      fun hn => he.of_idle hn hsched⟩⟩
    obtain ⟨heq, hidle⟩ := he.of_tick hr hticks
    rw [heq]
    refine ⟨hidle, tickWith_armed_iff (s := setStCnt 0 (countTimebase (dropInput s))) _ hidle, tickWith_stCnt .., ?_,
      tickWith_trace_val ..⟩
    rw [tickWith_idx, Fin.val_add]
    rfl

end Sys2Proof.Proofs

/-! SUPPORT. The undisturbed run (43_slot_scheduler R190): where the scheduler is `n` microseconds after its
start, by induction over `n`. -/

namespace Sys2Proof.Machine

/-- The slot transmitted last, `n` microseconds after the start: slot `n / 1,000,000 - 1` of the frame, modulo 60. -/
def lastSlot (f : Frame) (n : Nat) : SlotValue := f (Fin.ofNat 60 (n / 1000000 - 1))

/-- The place of the scheduler in the transmission of `f`, `n` microseconds after its start: its index, and the
armed Bit Timer, which is that of the slot transmitted last, until its alarm. -/
structure AtPlace (f : Frame) (n : Nat) (t : State) : Prop where
  idx : t.idx.val = n / 1000000 % 60
  armed : ∀ k : Fin 3, t.btArmed[k] = true ↔
    1000000 ≤ n ∧ k = slotCode (lastSlot f n) ∧ n % 1000000 < (btAlarm k).toNat

/-- `t` is the just-started state `s` after `n` undisturbed microseconds, with `f` in the front bank. -/
structure TransmittedFor (f : Frame) (s : State) (n : Nat) (t : State) : Prop where
  undisturbed : t.inputs = []
  front : ∀ i : SlotIndex, t.slot? t.fsel i = some (f i)
  scheduled : Scheduled t
  stRun : t.stRun = true
  stCnt : t.stCnt.toNat = n % 1000000
  tb : t.tb = s.tb + BitVec.ofNat 64 n
  ovrCnt : t.ovrCnt = s.ovrCnt
  place : AtPlace f n t

section
variable {f : Frame} {s t : State} {n : Nat}

/-- A counter that holds the microseconds since the tick reaches `a` when they do. -/
theorem add_one_eq_iff_of_toNat_eq {x a : BitVec 20} (h : x.toNat = n % 1000000) :
    x + 1 = a ↔ n % 1000000 + 1 = a.toNat := by
  rw [← BitVec.toNat_inj, counter_add_one_toNat (by omega), h]

/-- At the tick the slot at `IDX` becomes the one transmitted last. -/
theorem TransmittedFor.slotRead_eq (h : TransmittedFor f s n t) (hn : n % 1000000 + 1 = 1000000) :
    t.slotRead t.fsel t.idx = lastSlot f (n + 1) := by
  rw [slotRead_of_slot? (h.front t.idx), lastSlot]
  refine congrArg f (Fin.ext ?_)
  rw [h.place.idx, Fin.val_ofNat]
  omega

/-- At the tick `IDX` moves on, and the Bit Timer of the slot transmitted is armed. -/
theorem TransmittedFor.atPlace_of_tick (h : TransmittedFor f s n t) (hn : n % 1000000 + 1 = 1000000) :
    AtPlace f (n + 1) (usec false t) := by
  have hticks : t.stCnt + 1 = stPeriod := (add_one_eq_iff_of_toNat_eq h.stCnt).mpr hn
  obtain ⟨heq, hidle⟩ := h.scheduled.usecEffect.of_tick h.stRun hticks
  rw [heq, h.slotRead_eq hn]
  refine ⟨?_, fun k => (tickWith_armed_iff (s := setStCnt 0 (countTimebase t)) _ hidle k).trans ?_⟩
  · have hidx := h.place.idx
    rw [tickWith_idx, Fin.val_add]
    show (t.idx.val + 1) % 60 = _
    omega
  · have hdue := btAlarm_pos k
    exact ⟨fun hk => ⟨by omega, hk, by omega⟩, fun ⟨_, hk, _⟩ => hk⟩

/-- Between ticks `IDX` and the slot transmitted last stay, and the armed Bit Timer stays armed until its alarm. -/
theorem TransmittedFor.atPlace_of_count (h : TransmittedFor f s n t) (hn : n % 1000000 + 1 ≠ 1000000) :
    AtPlace f (n + 1) (usec false t) := by
  have hcounts : t.stCnt + 1 ≠ stPeriod := mt (add_one_eq_iff_of_toNat_eq h.stCnt).mp hn
  have he := h.scheduled.usecEffect
  have hquot : (n + 1) / 1000000 = n / 1000000 := by omega
  have hslot : lastSlot f (n + 1) = lastSlot f n := by rw [lastSlot, lastSlot, hquot]
  have hbegun : 1000000 ≤ n + 1 ↔ 1000000 ≤ n := by omega
  refine ⟨by rw [he.idx_eq hcounts, h.place.idx, hquot], fun k => ?_⟩
  rw [he.armed_iff hcounts h.scheduled, h.place.armed, hslot, hbegun, ne_eq, add_one_eq_iff_of_toNat_eq h.stCnt,
    and_assoc, and_assoc]
  refine and_congr_right fun _ => and_congr_right fun _ => ?_
  omega

/-- One microsecond more. -/
theorem TransmittedFor.usec (h : TransmittedFor f s n t) : TransmittedFor f s (n + 1) (usec false t) where
  undisturbed := (usec_inputs ..).trans h.undisturbed
  front i := by rw [usec_fsel, slot?_of_fb_eq (usec_fb ..)]; exact h.front i
  scheduled := h.scheduled.usecEffect.scheduled h.scheduled
  stRun := (usec_stRun ..).trans h.stRun
  stCnt := by rw [usec_stCnt, countPhases_stCnt_toNat h.stRun h.scheduled.stCnt_lt, h.stCnt]; omega
  tb := by rw [usec_tb, h.tb, BitVec.add_assoc, BitVec.ofNat_add]; rfl
  ovrCnt := h.scheduled.usecEffect.ovrCnt_eq.trans h.ovrCnt
  place := by
    by_cases hn : n % 1000000 + 1 = 1000000
    · exact h.atPlace_of_tick hn
    · exact h.atPlace_of_count hn

/-- The run, one microsecond after another. -/
theorem transmittedFor_runStepsWith (c : Params) (h : TransmittedFor f s 0 s) (n : Nat) :
    ∃ t, runStepsWith c n s = .next t ∧ TransmittedFor f s n t := by
  induction n with
  | zero => exact ⟨s, runStepsWith_zero s, h⟩
  | succ n ih =>
    obtain ⟨t, ht, hn⟩ := ih
    have hstep : stepWith c t = .next (usec false t) :=
      (stepWith_of_nil c hn.undisturbed).trans (usecStep_eq false t)
    exact ⟨_, runStepsWith_succ' n ht hstep, hn.usec⟩

/-- The carrier is low while the Bit Timer of the slot transmitted last is armed. -/
theorem TransmittedFor.carrier_iff (h : TransmittedFor f s n t) :
    t.carrier = false ↔ 1000000 ≤ n ∧ n % 1000000 < tLow (lastSlot f n) := by
  rw [h.scheduled.onTime.low_while_armed, ← btAlarm_slotCode]
  simp only [h.place.armed]
  exact ⟨fun ⟨_, hn, hk, hlow⟩ => ⟨hn, hk ▸ hlow⟩, fun ⟨hn, hlow⟩ => ⟨_, hn, rfl, hlow⟩⟩

end

end Sys2Proof.Machine

namespace Sys2Proof.Proofs

open Sys2Proof.Machine

/-- Settles O54: the just-started scheduler is on time at place 0, and each microsecond takes it one place further. -/
theorem undisturbedRunKeepsTheTimeCode : Obligations.UndisturbedRunKeepsTheTimeCode := by
  intro c s f hinputs hr hcnt hidx hcarrier hidle hpend hlate hfront n
  have hcnt' : s.stCnt.toNat = 0 := by rw [hcnt]; rfl
  have hstart : TransmittedFor f s 0 s :=
    { undisturbed := hinputs
      front := hfront
      scheduled := scheduled_of_idle hpend hlate hidle hcarrier (by omega)
      stRun := hr
      stCnt := hcnt'
      tb := (BitVec.add_zero _).symm
      ovrCnt := rfl
      place := ⟨by rw [hidx]; rfl, fun k => by simp [hidle k]⟩ }
  obtain ⟨t, ht, h⟩ := transmittedFor_runStepsWith c hstart n
  have hontime := h.scheduled.onTime
  exact ⟨t, ht, h.tb, h.stCnt, h.place.idx, hontime.no_request, hontime.no_late, h.ovrCnt, hontime.one_armed,
    h.carrier_iff⟩

end Sys2Proof.Proofs

/-! SUPPORT. The scheduler's operations as updates of the registers they write (43_slot_scheduler R171 to R176, R184 to
R188), and the events each operation emits. -/

namespace Sys2Proof.Machine

/-- TimingOverrun sets its flag and counts, and does nothing else (60_exceptions R231). -/
theorem raise_timingOverrun (s : State) : raise .timingOverrun s = { s with
    err := s.err ||| 0b00010#5
    ovrCnt := BitVec.ofNat 32 (min (2 ^ 32 - 1) (s.ovrCnt.toNat + 1)) } := by
  rw [← satSucc_eq_ofNat]
  rfl

/-! ### START (43_slot_scheduler R171, R172, R173) -/

section
variable {s : State}

theorem execStart_of_no_frame (hv : s.fvalid = false) : execStart s = .next (raise .startNoFrame s) := if_pos hv

theorem execStart_of_running (hv : s.fvalid = true) (hr : s.stRun = true) : execStart s = .next s := by
  rw [execStart, if_neg (by simp [hv]), if_pos hr]

theorem execStart_of_stopped (hv : s.fvalid = true) (hr : s.stRun = false) :
    execStart s = .next (armSecondTick s) := by
  rw [execStart, if_neg (by simp [hv]), if_neg (by simp [hr])]

end

/-! ### TICK -/

/-- Line 10 of TICK as an update of the trace (43_slot_scheduler R184). -/
theorem endOfMinute_eq (s : State) : endOfMinute s = { s with trace := s.trace ++
    (if s.idx = 0 then [{ event := .minuteDone, tb := s.tb }, { event := .diagNewline, tb := s.tb }] else []) } := by
  unfold endOfMinute
  split
  · simp [emit]
  · simp

/-- TICK writes no register but those of its list (43_slot_scheduler R184, State written). -/
theorem tickWith_frame (v : SlotValue) (s : State) : tickWith v s = { s with
    fresh := (tickWith v s).fresh
    staleCnt := (tickWith v s).staleCnt
    ovrCnt := (tickWith v s).ovrCnt
    err := (tickWith v s).err
    carrier := (tickWith v s).carrier
    btCnt := (tickWith v s).btCnt
    btArmed := (tickWith v s).btArmed
    sched := (tickWith v s).sched
    idx := (tickWith v s).idx
    trace := (tickWith v s).trace } := by
  unfold tickWith
  rw [endOfMinute_eq, countOverlap_eq, consumeFresh_eq]
  rfl

/-- `IDX` after `n` TICK services (43_slot_scheduler R186). -/
theorem runOps_replicate_tick (n : Nat) (s : State) :
    ∃ t, runOps (List.replicate n .tick) s = .next t ∧ t.idx.val = (s.idx.val + n) % 60 := by
  induction n generalizing s with
  | zero => exact ⟨s, rfl, (Nat.mod_eq_of_lt s.idx.isLt).symm⟩
  | succ n ih =>
    obtain ⟨t, ht, hidx⟩ := ih (tickWith (s.slotRead s.fsel s.idx) s)
    refine ⟨t, ht, ?_⟩
    rw [hidx, tickWith_idx, Fin.val_add]
    show ((s.idx.val + 1) % 60 + n) % 60 = _
    omega

/-- TICK services leave `IDX` at `j` exactly when their number takes it there. -/
theorem runOps_replicate_tick_idx_iff (n : Nat) (s : State) (j : SlotIndex) :
    (∃ t, runOps (List.replicate n .tick) s = .next t ∧ t.idx = j) ↔ (s.idx.val + n) % 60 = j.val := by
  obtain ⟨u, hu, hidx⟩ := runOps_replicate_tick n s
  rw [← hidx, hu]
  exact ⟨fun ⟨t, ht, hj⟩ => by cases ht; rw [hj], fun hj => ⟨u, rfl, Fin.ext hj⟩⟩

/-! ### The events of an operation -/

theorem CommandEffect.trace_eq {c : Params} {s t : State} (h : CommandEffect c s t) : t.trace = s.trace := by
  cases h <;> simp

/-- The events of the kind `e` in a list of events. -/
def eventCount (e : Event) (l : List Stamped) : Nat := (l.filter fun x => decide (x.event = e)).length

theorem eventCount_append (e : Event) (l l' : List Stamped) :
    eventCount e (l ++ l') = eventCount e l + eventCount e l' := by
  rw [eventCount, List.filter_append, List.length_append]
  rfl

/-- An operation appends its events; it emits CarrierLow only if it is SET_CARRIER_LOW or TICK, and CarrierFull only if
it is SET_CARRIER_FULL or BITFIREk (43_slot_scheduler R174, R175). -/
theorem exec_events {i : Instr} {s t : State} (h : exec i s = .next t) : ∃ events, t.trace = s.trace ++ events ∧
    (i ∉ [.setCarrierLow, .tick] → eventCount .carrierLow events = 0) ∧
    (i ∉ [.setCarrierFull, .bitfire0, .bitfire1, .bitfire2] → eventCount .carrierFull events = 0) := by
  cases hi : isCommand i with
  | true =>
    obtain ⟨u, hu, he⟩ := execWith_command defaultParams hi s
    cases (execWith_default i s ▸ hu).symm.trans h
    exact ⟨[], he.trace_eq.trans (List.append_nil _).symm, fun _ => rfl, fun _ => rfl⟩
  | false =>
    cases i with
    | nop | encode _ | start | pack _ | leap _ | dstwin _ | isdst _ _ => cases hi
    | bitfire0 | bitfire1 | bitfire2 | setCarrierFull =>
      cases h
      exact ⟨_, rfl, fun _ => rfl, fun hno => absurd (by simp) hno⟩
    | setCarrierLow =>
      cases h
      exact ⟨_, rfl, fun hno => absurd (by simp) hno, fun _ => rfl⟩
    | tick =>
      cases h
      refine ⟨_, (tickWith_trace_val ..).trans (List.append_assoc ..), fun hno => absurd (by simp) hno, fun _ => ?_⟩
      split <;> rfl

end Sys2Proof.Machine

namespace Sys2Proof.Proofs

open Sys2Proof.Machine

/-- Settles O34: within 60 services, one number takes `IDX` to `j`. -/
theorem consecutiveTicksTakeEverySlotInOrder : Obligations.ConsecutiveTicksTakeEverySlotInOrder := by
  intro s
  refine ⟨fun n => runOps_replicate_tick n s, fun j => ?_⟩
  simp only [runOps_replicate_tick_idx_iff]
  have hj := j.isLt
  have hidx := s.idx.isLt
  refine ⟨(j.val + 60 - s.idx.val) % 60, by omega, by omega, fun m hm h => by omega⟩

/-- Settles O29: the three branches of START; the records that only `Reset` clears include `ST_RUN`. -/
theorem startArmsTheSecondTickOnce : Obligations.StartArmsTheSecondTickOnce := by
  intro s
  refine ⟨fun hv => ?_, fun hv hr => ?_, fun hv hr => ?_, fun w hw => ?_, fun t hreset ht => ?_⟩
  · exact execStart_of_no_frame hv
  · exact execStart_of_running hv hr
  · exact execStart_of_stopped hv hr
  · exact decodeCmd_of_rsv_zero (w := w) (op := 2) (by omega) (by omega)
  · obtain ⟨-, -, -, -, hrun, -⟩ := onlyResetClearsFlagsAndCounters defaultParams s t hreset ht
    exact hrun

/-- Settles O30: only the carrier operations themselves and the services that issue them emit the carrier events. -/
theorem carrierOperationsAreUnconditional : Obligations.CarrierOperationsAreUnconditional := by
  intro s count
  refine ⟨rfl, rfl, rfl, rfl, fun i t h => ?_⟩
  have hcount : ∀ e u, count e u = eventCount e u.trace := fun _ _ => rfl
  obtain ⟨events, htrace, hlow, hfull⟩ := exec_events h
  simp only [hcount, htrace, eventCount_append]
  exact ⟨fun hi => by rw [hlow hi]; rfl, fun hi => by rw [hfull hi]; rfl⟩

/-- Settles O31: the three services are one operation. -/
theorem bitfireRestoresFullPower : Obligations.BitfireRestoresFullPower := by
  intro s i hi
  simp only [List.mem_cons, List.not_mem_nil, or_false] at hi
  obtain rfl | rfl | rfl := hi
  · exact ⟨rfl, 0, rfl, rfl⟩
  · exact ⟨rfl, 1, rfl, rfl⟩
  · exact ⟨rfl, 2, rfl, rfl⟩

/-- Settles O33: the timer armed is that of the value's code, from 0, and its alarm is the value's duration. -/
theorem durationIsAFunctionOfTheSymbol : Obligations.DurationIsAFunctionOfTheSymbol := by
  intro s t hread
  refine ⟨slotCode (s.slotRead s.fsel s.idx), _, _, rfl, rfl, tickWith_btArmed .., ?_, ?_, ?_, ?_⟩
  · rw [hread, tickWith_btArmed]
  · rw [tickWith_btCnt, getElem_set3, if_pos rfl]
  · rw [hread, tickWith_btCnt, getElem_set3, if_pos rfl]
  · rw [btAlarm_slotCode]
    rfl

/-- Settles O32: TICK writes the registers of its list, each as its lines say; `k` is the code of the slot read. -/
theorem tickTransmitsTheSlot : Obligations.TickTransmitsTheSlot := by
  intro s v k stale overlap
  refine ⟨rfl, fun x => slotRead_of_slot?, congrArg Host.Outcome.next ?_⟩
  rw [tickWith_frame]
  simp only [tickWith_fresh, tickWith_staleCnt, tickWith_ovrCnt, tickWith_err, tickWith_carrier, tickWith_btCnt,
    tickWith_btArmed, tickWith_sched, tickWith_idx, tickWith_trace_val, satSucc_eq_ofNat]
  rfl

end Sys2Proof.Proofs

/-! SUPPORT. The phases of a microsecond (43_slot_scheduler R180 to R183): how many overruns each step of them counts,
what the counting phases and the arbiter leave alone, and the requests they leave. -/

namespace Sys2Proof.Machine

/-! ### Counted overruns -/

/-- `t` is `s` with `n` more overruns counted (10_state R34, R35). -/
structure OverrunsCounted (n : Nat) (s t : State) : Prop where
  ovrCnt : t.ovrCnt.toNat = min (2 ^ 32 - 1) (s.ovrCnt.toNat + n)
  err : t.err = if n = 0 then s.err else s.err ||| 0b00010#5

theorem overrunsCounted_zero {s t : State} (hovr : t.ovrCnt = s.ovrCnt) (herr : t.err = s.err) :
    OverrunsCounted 0 s t where
  ovrCnt := by
    have := s.ovrCnt.isLt
    rw [hovr]
    omega
  err := herr

theorem overrunsCounted_raise (s : State) : OverrunsCounted 1 s (raise .timingOverrun s) where
  ovrCnt := satSucc_toNat s.ovrCnt
  err := rfl

/-- Overruns counted one after another add up: the counter saturates once, and the flag stays set. -/
theorem OverrunsCounted.trans {m n : Nat} {s t u : State} (h : OverrunsCounted m s t) (h' : OverrunsCounted n t u) :
    OverrunsCounted (m + n) s u where
  ovrCnt := by rw [h'.ovrCnt, h.ovrCnt]; omega
  err := by
    rw [h'.err, h.err]
    rcases m with _ | m
    · simp
    · rcases n with _ | n
      · simp
      · simp [BitVec.or_assoc]

/-- A change before it that leaves counter and flag. -/
theorem OverrunsCounted.after {n : Nat} {s s' t : State} (h : OverrunsCounted n s' t) (hovr : s'.ovrCnt = s.ovrCnt)
    (herr : s'.err = s.err) : OverrunsCounted n s t :=
  Nat.zero_add n ▸ (overrunsCounted_zero hovr herr).trans h

theorem OverrunsCounted.ovrCnt_eq {n : Nat} {s t : State} (h : OverrunsCounted n s t) :
    t.ovrCnt = BitVec.ofNat 32 (min (2 ^ 32 - 1) (s.ovrCnt.toNat + n)) := by
  apply BitVec.eq_of_toNat_eq
  rw [h.ovrCnt, BitVec.toNat_ofNat]
  omega

/-- A fire is lost and counted where its request is pending (43_slot_scheduler R182). -/
theorem overrunsCounted_fire (i : Fin 4) (s : State) : OverrunsCounted (pending s i).toNat s (fire i s) := by
  cases h : pending s i with
  | true => rw [fire_of_pending s h]; exact overrunsCounted_raise s
  | false => rw [fire_of_not_pending s h]; exact overrunsCounted_zero rfl rfl

/-- The Second Tick fires in phase 2. -/
def tickFires (s : State) : Bool := s.stRun && decide (s.stCnt + 1 = stPeriod)

/-- Bit Timer `k` fires in phase 3. -/
def bitFires (k : Fin 3) (s : State) : Bool := s.btArmed[k] && decide (s.btCnt[k] + 1 = btAlarm k)

/-- The fire of the Second Tick finds its request pending. -/
def losesTick (s : State) : Bool := tickFires s && pending s 3

/-- The fire of Bit Timer `k` finds its request pending. -/
def losesBit (k : Fin 3) (s : State) : Bool := bitFires k s && pending s k.castSucc

theorem overrunsCounted_countSecondTick (s : State) :
    OverrunsCounted (losesTick s).toNat s (countSecondTick s) := by
  unfold losesTick tickFires
  cases hr : s.stRun with
  | false => rw [countSecondTick_idle s hr]; exact overrunsCounted_zero rfl rfl
  | true =>
    by_cases hn : s.stCnt + 1 = stPeriod
    · rw [countSecondTick_fire s hr hn, decide_eq_true hn]
      exact (overrunsCounted_fire 3 (setStCnt 0 s)).after rfl rfl
    · rw [countSecondTick_count s hr hn, decide_eq_false hn]
      exact overrunsCounted_zero rfl rfl

theorem overrunsCounted_countBitTimer (k : Fin 3) (s : State) :
    OverrunsCounted (losesBit k s).toNat s (countBitTimer k s) := by
  unfold losesBit bitFires
  cases hk : s.btArmed[k] with
  | false => rw [countBitTimer_idle s hk]; exact overrunsCounted_zero rfl rfl
  | true =>
    by_cases hn : s.btCnt[k] + 1 = btAlarm k
    · rw [countBitTimer_fire s hk hn, decide_eq_true hn]
      exact (overrunsCounted_fire k.castSucc (disarmBitTimer k (bumpBitTimer k s))).after rfl rfl
    · rw [countBitTimer_count s hk hn, decide_eq_false hn]
      exact overrunsCounted_zero rfl rfl

/-- Phases 1 and 2 leave the Bit Timers and their requests. -/
theorem losesBit_phaseTwo (k : Fin 3) (s : State) : losesBit k (countSecondTick (countTimebase s)) = losesBit k s := by
  simp [losesBit, bitFires, pending_phaseTwo, castSucc_ne_tick]

/-- A Bit Timer leaves the others and their requests. -/
theorem losesBit_countBitTimer {j k : Fin 3} (h : j ≠ k) (s : State) :
    losesBit j (countBitTimer k s) = losesBit j s := by
  rw [losesBit, bitFires, countBitTimer_armed, countBitTimer_cnt, pending_countBitTimer, if_neg h, if_neg h]
  simp [losesBit, bitFires, h]

/-- The counting phases lose a fire for each timer that fires with its request pending. -/
theorem overrunsCounted_countPhases (s : State) : OverrunsCounted
    ((losesTick s).toNat + (losesBit 0 s).toNat + (losesBit 1 s).toNat + (losesBit 2 s).toNat) s (countPhases s) := by
  have h := (((overrunsCounted_countSecondTick (countTimebase s)).trans (overrunsCounted_countBitTimer 0 _)).trans
    (overrunsCounted_countBitTimer 1 _)).trans (overrunsCounted_countBitTimer 2 _)
  rw [losesBit_countBitTimer (j := 2) (by decide), losesBit_countBitTimer (j := 2) (by decide),
    losesBit_countBitTimer (j := 1) (by decide), losesBit_phaseTwo, losesBit_phaseTwo, losesBit_phaseTwo] at h
  exact h.after rfl rfl

/-- A held step marks request `i` late: it is pending and not marked yet. -/
def newlyLate (s : State) (i : Fin 4) : Bool := pending s i && !isLate s i

/-- A late mark is counted where the request is pending and not marked yet (43_slot_scheduler R183). -/
theorem overrunsCounted_markLate (i : Fin 4) (s : State) :
    OverrunsCounted (newlyLate s i).toNat s (markLate i s) := by
  unfold markLate newlyLate
  cases pending s i && !isLate s i with
  | false => exact overrunsCounted_zero rfl rfl
  | true => exact (overrunsCounted_raise _).after rfl rfl

/-- Marking one request late leaves the pending requests and the marks of the others. -/
theorem newlyLate_markLate {i j : Fin 4} (h : j ≠ i) (s : State) : newlyLate (markLate i s) j = newlyLate s j := by
  rw [newlyLate, isLate_markLate, pending_of_pend (markLate_pend s i), decide_eq_false h.symm, Bool.and_false,
    Bool.or_false, newlyLate]

/-- A held step counts each newly late request once. -/
theorem overrunsCounted_holdAll (s : State) : OverrunsCounted
    ((newlyLate s 0).toNat + (newlyLate s 1).toNat + (newlyLate s 2).toNat + (newlyLate s 3).toNat) s (holdAll s) := by
  have h := (((overrunsCounted_markLate 0 s).trans (overrunsCounted_markLate 1 _)).trans
    (overrunsCounted_markLate 2 _)).trans (overrunsCounted_markLate 3 _)
  rwa [newlyLate_markLate (j := 3) (by decide), newlyLate_markLate (j := 3) (by decide),
    newlyLate_markLate (j := 3) (by decide), newlyLate_markLate (j := 2) (by decide),
    newlyLate_markLate (j := 2) (by decide), newlyLate_markLate (j := 1) (by decide)] at h

/-! ### Counting a list's members -/

theorem length_filter_eq_sum {α : Type} (p : α → Bool) (l : List α) :
    (l.filter p).length = (l.map fun x => (p x).toNat).sum := by
  induction l with
  | nil => rfl
  | cons x l ih => cases h : p x <;> simp [h, ih, Nat.add_comm]

/-! ### What the timers and the arbiter leave alone -/

/-- The state with the registers of the timers, of the requests and of the overruns cleared. -/
def quietPart (s : State) : State :=
  { s with tb := 0, stCnt := 0, btCnt := #v[0, 0, 0], btArmed := #v[false, false, false], pend := 0, late := 0, err := 0
           ovrCnt := 0 }

/-- States with the same quiet part differ in those registers only. -/
theorem eq_of_quietPart_eq {s t : State} (h : quietPart t = quietPart s) : t = { s with
    tb := t.tb, stCnt := t.stCnt, btCnt := t.btCnt, btArmed := t.btArmed, pend := t.pend, late := t.late, err := t.err
    ovrCnt := t.ovrCnt } := by
  obtain ⟨⟨⟩, trace, inputs, epoch⟩ := s
  obtain ⟨⟨⟩, trace', inputs', epoch'⟩ := t
  simp only [quietPart, State.mk.injEq, Registers.mk.injEq] at h ⊢
  simp only [h, and_self]

theorem quietPart_countPhases (s : State) : quietPart (countPhases s) = quietPart s := by simp [quietPart]

theorem quietPart_holdAll (s : State) : quietPart (holdAll s) = quietPart s := by simp [quietPart]

/-! ### The requests after phase 4 -/

/-- Every pending request is serviced (43_slot_scheduler R183). -/
theorem serveAll_pend (s : State) : (serveAll s).pend = 0 := by
  refine requests_ext fun i => (?_ : pending (serveAll s) i = _)
  fin_cases i <;> simp [serveAll, pending_serve]

/-- A late mark is taken away with its request, so none is left where only pending requests were late. -/
theorem serveAll_late {s : State} (h : ∀ i, isLate s i = true → pending s i = true) : (serveAll s).late = 0 := by
  refine requests_ext fun i => (?_ : isLate (serveAll s) i = _)
  have hi : isLate (serveAll s) i = (isLate s i && !pending s i) := by
    fin_cases i <;> simp [serveAll, isLate_serve, pending_serve]
  cases hl : isLate s i with
  | false => simp [hi, hl]
  | true => simp [hi, h i hl]

/-- Every pending request is marked late (43_slot_scheduler R183, the `else` branch). -/
theorem holdAll_late (s : State) : (holdAll s).late = s.late ||| s.pend := by
  refine requests_ext fun i => (?_ : isLate (holdAll s) i = _)
  rw [BitVec.getLsbD_or]
  show _ = (isLate s i || pending s i)
  simp only [holdAll, isLate_markLate, pending_of_pend (markLate_pend ..)]
  fin_cases i <;> simp

end Sys2Proof.Machine

namespace Sys2Proof.Proofs

open Sys2Proof.Machine

/-- Settles O40: the late marks and the overruns are counted request by request, and the rest is left alone. -/
theorem heldStepCountsEachLateRequestOnce : Obligations.HeldStepCountsEachLateRequestOnce := by
  intro c n
  have hn : n = (newlyLate c 0).toNat + (newlyLate c 1).toNat + (newlyLate c 2).toNat + (newlyLate c 3).toNat := by
    show (List.filter (newlyLate c) _).length = _
    rw [length_filter_eq_sum]
    simp [List.finRange, Nat.add_assoc]
  have hcounted : OverrunsCounted n c (holdAll c) := hn ▸ overrunsCounted_holdAll c
  rw [eq_of_quietPart_eq (quietPart_holdAll c), hcounted.ovrCnt_eq, hcounted.err, holdAll_late]
  simp

/-- Settles O39: each of the four services of phase 4 runs what its isolated request decodes to, on the state with its
request taken. -/
theorem arbiterServicesEveryRequestInOrder : Obligations.ArbiterServicesEveryRequestInOrder := by
  intro c serves
  have hserves : ∀ i u, serves i u (serve i u) := fun i u => by
    refine ⟨serve_of_not_pending, fun hp => ⟨serviceOf i, ?_, ?_⟩⟩
    · rw [← requestBit_eq_shift]
      exact decodeRequest_requestBit i
    · rw [← requestBit_eq_shift]
      exact (exec_serviceOf i (acknowledge i u)).trans (congrArg _ (serve_of_pending hp).symm)
  exact ⟨_, _, _, _, hserves 0 _, hserves 1 _, hserves 2 _, hserves 3 _, serviceAll_eq c, serveAll_pend c,
    serveAll_late⟩

/-- Settles O35: the timers and their requests register by register, the overruns phase by phase, and the rest is left
alone. -/
theorem countingPhasesRegisterEveryFire : Obligations.CountingPhasesRegisterEveryFire := by
  intro s c alarm ticks bits lost
  have hticks : ticks = tickFires s := rfl
  have hbits : ∀ k, bits k = bitFires k s := fun _ => rfl
  have hlost : lost = (losesTick s).toNat + (losesBit 0 s).toNat + (losesBit 1 s).toNat + (losesBit 2 s).toNat := by
    show (if losesTick s = true then 1 else 0) + (List.filter (fun k => losesBit k s) _).length = _
    rw [length_filter_eq_sum]
    cases losesTick s <;> simp [List.finRange, Nat.add_assoc]
  have hcounted : OverrunsCounted lost s c := hlost ▸ overrunsCounted_countPhases s
  refine ⟨rfl, rfl, countPhases_tb s, ?_, countPhases_cnt s, fun k => ?_, fun k => ?_, pending_countPhases_tick s,
    hcounted.ovrCnt_eq, hcounted.err, ?_⟩
  · rw [countPhases_stCnt, countSecondTick_stCnt, hticks, tickFires]
    cases s.stRun <;> simp
  · rw [countPhases_armed, hbits, bitFires]
    cases s.btArmed[k] <;> simp
  · rw [hbits]
    exact pending_countPhases_bit s k
  · have h := eq_of_quietPart_eq (quietPart_countPhases s)
    rw [countPhases_late] at h
    exact h

/-- Settles O36: the four branches of phase 2. -/
theorem secondTickCountsAndReloads : Obligations.SecondTickCountsAndReloads := by
  intro s
  refine ⟨countSecondTick_idle s, countSecondTick_count s, fun hr hn hp => ?_, fun hr hn hp => ?_, fun hle => ?_⟩
  · rw [countSecondTick_fire s hr hn]
    exact fire_of_not_pending (setStCnt 0 s) hp
  · rw [countSecondTick_fire s hr hn, fire_of_pending (setStCnt 0 s) (i := 3) hp]
    exact raise_timingOverrun (setStCnt 0 s)
  · cases hr : s.stRun with
    | false => rwa [countSecondTick_idle s hr]
    | true =>
      rw [countSecondTick_stCnt_toNat hr (by omega)]
      omega

/-- Settles O37: the four branches of phase 3 for a timer. -/
theorem bitTimerCountsAndFiresOnce : Obligations.BitTimerCountsAndFiresOnce := by
  intro s k alarm
  refine ⟨countBitTimer_idle s, fun hk hn => ?_, fun hk hn hp => ?_, fun hk hn hp => ?_⟩
  · exact countBitTimer_count s hk hn
  · rw [countBitTimer_fire s hk hn, ← hn,
      fire_of_not_pending (disarmBitTimer k (bumpBitTimer k s)) (i := k.castSucc) hp, requestBit_eq_shift]
    rfl
  · rw [countBitTimer_fire s hk hn, ← hn,
      fire_of_pending (disarmBitTimer k (bumpBitTimer k s)) (i := k.castSucc) hp, raise_timingOverrun]
    rfl

end Sys2Proof.Proofs

/-! SUPPORT. The command port (44_command_port): the words that decode to NOP or to no operation (R221, R223), and what
no command writes (R222). -/

namespace Sys2Proof.Machine

/-! ### The words of NOP and of IllegalCommand (44_command_port R221, R223) -/

theorem commandStepWith_of_nop_word (c : Params) {w : CommandWord} (h : w.toNat < 2 ^ 34) (s : State) :
    commandStepWith c w s = .next s :=
  commandStepWith_of_ok c (decodeCmd_of_rsv_zero (op := 0) (by omega) (by omega)) s

theorem commandStepWith_of_illegal_word (c : Params) {w : CommandWord}
    (h : w.toNat / 2 ^ 34 % 2 ^ 2 ≠ 0 ∨ 6 < w.toNat / 2 ^ 36) (s : State) :
    commandStepWith c w s = .next (raise .illegalCommand s) := by
  by_cases hrsv : w.toNat / 2 ^ 34 % 2 ^ 2 = 0
  · have hop : 6 < w.toNat / 2 ^ 36 := h.resolve_left (absurd hrsv)
    exact commandStepWith_of_error c ((decodeCmd_of_rsv_zero hrsv rfl).trans (decodeOpcode_of_reserved w hop)) s
  · exact commandStepWith_of_error c (decodeCmd_of_rsv_ne_zero hrsv) s

/-! ### What no command writes (44_command_port R222) -/

/-- The flag of a class stands at its cause code less one (60_exceptions R230). -/
theorem errBit_getLsbD (x : ErrorClass) (k : Fin 5) : (errBit x).getLsbD k.val = decide (k.val + 1 = causeCode x) := by
  revert k
  cases x <;> decide

/-- Raising a class leaves the flag of every other cause code. -/
theorem raise_err_getLsbD_of_ne {x : ErrorClass} {k : Fin 5} (h : k.val + 1 ≠ causeCode x) (s : State) :
    (raise x s).err.getLsbD k.val = s.err.getLsbD k.val := by
  rw [raise_err, BitVec.getLsbD_or, errBit_getLsbD, decide_eq_false h, Bool.or_false]

section
variable {c : Params} {s t : State} (h : CommandEffect c s t)
include h

/-- The registers a command can write. -/
theorem CommandEffect.eq_of_written : t = { s with
    fb := t.fb, fsel := t.fsel, fvalid := t.fvalid, fresh := t.fresh, stRun := t.stRun, stCnt := t.stCnt,
    result := t.result, err := t.err, invCnt := t.invCnt } := by
  cases h with
  | published v => simp only [publish]
  | same | illegal | noFrame _ | invalid | armed _ _ | answered _ => rfl

/-- Only ENCODE writes slots, and those of the back bank. -/
theorem CommandEffect.slot?_front (i : SlotIndex) : t.slot? s.fsel i = s.slot? s.fsel i := by
  cases h with
  | published v => exact publish_slot?_front _ s i
  | same | illegal | noFrame _ | invalid | armed _ _ | answered _ => rfl

/-- OVERRUN and STALE, of cause codes 2 and 3, are raised by no command. -/
theorem CommandEffect.err_getLsbD {k : Fin 5} (hk : k = 1 ∨ k = 2) : t.err.getLsbD k.val = s.err.getLsbD k.val := by
  have hcode : ∀ x ∈ [ErrorClass.illegalCommand, .startNoFrame, .invalidTimeSample], k.val + 1 ≠ causeCode x := by
    rcases hk with rfl | rfl <;> decide
  cases h with
  | illegal | noFrame _ | invalid => exact raise_err_getLsbD_of_ne (hcode _ (by decide)) s
  | published v => rw [publish_err]
  | same | armed _ _ | answered _ => rfl

/-- ENCODE sets `FRESH`; nothing on the command port clears it. -/
theorem CommandEffect.fresh_of_fresh (hf : s.fresh = true) : t.fresh = true := by
  cases h with
  | published v => rfl
  | same | illegal | noFrame _ | invalid | armed _ _ | answered _ => exact hf

end

end Sys2Proof.Machine

namespace Sys2Proof.Proofs

open Sys2Proof.Machine

/-- Settles O46: a command has one of seven effects, each of which keeps the records, the registers R222 does not list,
the front bank, the flags of the scheduler's errors and a running Second Tick. -/
theorem commandsLeaveTheSchedulerAlone : Obligations.CommandsLeaveTheSchedulerAlone := by
  intro c w s
  obtain ⟨t, ht, heffect⟩ := commandStepWith_effect c w s
  have hkept := recordsKept_commandEffect heffect
  exact ⟨t, ht, heffect.eq_of_written, heffect.slot?_front, hkept.err, heffect.err_getLsbD (.inl rfl),
    heffect.err_getLsbD (.inr rfl), hkept.invCnt, heffect.secondTick_eq_of_running, hkept.fvalid,
    heffect.fresh_of_fresh⟩

/-- Settles O6: O7's step under the default parameters, where `execWith` is exec. -/
theorem stepRunsTheDecodedOperation : Obligations.StepRunsTheDecodedOperation := by
  intro s rest
  obtain ⟨hok, herror, husec, hreset, hnil⟩ := stepsTakeTheOpenParameters.1 defaultParams s rest
  exact ⟨fun w i hs hw => (hok w i hs hw).trans (execWith_default i _), herror, husec, hreset, hnil⟩

/-- Settles O11: a word below 2^34 has `RSV` and `OP` 0, the row of NOP. -/
theorem nopLeavesTheState : Obligations.NopLeavesTheState :=
  ⟨fun _ => rfl, fun _ s h => commandStepWith_of_nop_word defaultParams h s⟩

/-- Settles O19: the illegal words, and the refusing branch of each query command, all raise IllegalCommand. -/
theorem illegalCommandOnlySetsItsFlag : Obligations.IllegalCommandOnlySetsItsFlag := by
  intro s
  rw [← raise_illegalCommand]
  refine ⟨fun w h => commandStepWith_of_illegal_word defaultParams h s, fun n h => execPack_of_not_lt (by omega) s,
    fun y h => ⟨execLeap_of_not_yearOk s (not_yearOk h),
      execDstwinWith_of_not_yearOk defaultParams s (not_yearOk h)⟩, fun y d h => ?_⟩
  exact execIsdstWith_of_not_ok defaultParams s (by rw [yearOk_and_dayOk_iff]; omega)

end Sys2Proof.Proofs

/-! SUPPORT. What recording an error writes, told by the class's cause code (60_exceptions R230, R231). -/

namespace Sys2Proof.Machine

theorem causeCode_inj {x y : ErrorClass} : causeCode x = causeCode y ↔ x = y := by
  cases x <;> cases y <;> decide

/-- The flag register afterwards, flag by flag. -/
theorem raise_err_getLsbD (x : ErrorClass) (s : State) (k : Fin 5) :
    (raise x s).err.getLsbD k.val = (s.err.getLsbD k.val || decide (k.val + 1 = causeCode x)) := by
  rw [raise_err, BitVec.getLsbD_or, errBit_getLsbD]

/-- The counter `r` of class `y` after class `x` has been raised: it moves where the two have one cause code. -/
theorem ite_satSucc_toNat (x y : ErrorClass) (r : BitVec 32) :
    (if x = y then satSucc r else r).toNat =
      if causeCode x = causeCode y then min (2 ^ 32 - 1) (r.toNat + 1) else r.toNat := by
  rw [apply_ite BitVec.toNat, satSucc_toNat]
  simp only [causeCode_inj]

end Sys2Proof.Machine

namespace Sys2Proof.Proofs

open Sys2Proof.Machine

/-- Settles O38: a flag and a counter are each found by the cause code, which tells the classes apart; `raise` is one
update of the four registers named. -/
theorem raiseRecordsItsClassOnly : Obligations.RaiseRecordsItsClassOnly := by
  intro x s code up
  refine ⟨raise_err_getLsbD x s, ?_, ?_, ?_, rfl⟩
  · exact ite_satSucc_toNat x .invalidTimeSample s.invCnt
  · exact ite_satSucc_toNat x .timingOverrun s.ovrCnt
  · exact ite_satSucc_toNat x .staleFrame s.staleCnt

end Sys2Proof.Proofs

/-! SUPPORT. The discipline of a run whose Second Tick requests are not held for long (70_reset R272): a Bit Timer armed
by a tick is due before the next, through each kind of step. -/

namespace Sys2Proof.Machine

/-- The discipline without its bound on the held steps, which a claim about one step has as its premise. -/
structure TimersInTurn (s : State) : Prop where
  one_armed : atMostOneArmed s
  due_in_time : ∀ k : Fin 3, s.btArmed[k] = true → s.stCnt.toNat + (btAlarm k).toNat ≤ 1000000 + s.btCnt[k].toNat
  tick_waits_alone : pending s 3 = true → ∀ k : Fin 3, s.btArmed[k] = false

section
variable {s t : State}

theorem Disciplined.timersInTurn (h : Disciplined s) : TimersInTurn s :=
  ⟨h.one_armed, h.due_in_time, h.tick_waits_alone⟩

theorem TimersInTurn.disciplined (h : TimersInTurn s) (hheld : heldInBounds s) : Disciplined s :=
  ⟨h.one_armed, h.due_in_time, h.tick_waits_alone, hheld⟩

/-- The steps to come are no matter of the discipline. -/
theorem Disciplined.dropInput (h : Disciplined s) : Disciplined (dropInput s) :=
  ⟨h.one_armed, h.due_in_time, h.tick_waits_alone, h.held⟩

/-- A change that leaves the timers alone and adds no request of the Second Tick. -/
theorem TimersInTurn.of_same (h : TimersInTurn s) (hcnt : t.stCnt = s.stCnt) (harmed : t.btArmed = s.btArmed)
    (hbit : t.btCnt = s.btCnt) (hpend : pending t 3 = true → pending s 3 = true) : TimersInTurn t where
  one_armed := by unfold atMostOneArmed; rw [harmed]; exact h.one_armed
  due_in_time := by rw [hcnt, harmed, hbit]; exact h.due_in_time
  tick_waits_alone hp := by rw [harmed]; exact h.tick_waits_alone (hpend hp)

/-! ### Reset and commands -/

theorem disciplined_reset : Disciplined State.reset :=
  ⟨by unfold atMostOneArmed; decide, by decide, by decide, by unfold heldInBounds; decide⟩

theorem timersInTurn_resetStep (s : State) : TimersInTurn (resetStep s) :=
  disciplined_reset.timersInTurn.of_same rfl rfl rfl id

/-- START restarts the Second Tick only where it stands still, so with no Bit Timer armed (43_slot_scheduler R172). -/
theorem CommandEffect.timersInTurn {c : Params} (he : CommandEffect c s t) (hok : TimersRequestsOk s)
    (h : TimersInTurn s) : TimersInTurn t := by
  cases he with
  | armed _ hstopped =>
    have hno : ∀ k : Fin 3, ¬ s.btArmed[k] = true := fun k hk =>
      (by cases hstopped.symm.trans (hok.timers.armed_running k hk))
    exact ⟨h.one_armed, fun k hk => absurd hk (hno k), h.tick_waits_alone⟩
  | published _ =>
    exact h.of_same (publish_stCnt ..) (publish_btArmed ..) (publish_btCnt ..)
      (pending_of_pend (publish_pend ..) 3).symm.trans
  | same | illegal | noFrame _ | invalid | answered _ => exact h.of_same rfl rfl rfl id

/-! ### Phases 1 to 3 -/

section
variable (hok : TimersRequestsOk s)
include hok

/-- In the step in which the Second Tick fires an armed Bit Timer, being due by then, reaches its alarm. -/
theorem TimersInTurn.at_alarm_of_tick (h : TimersInTurn s) (hticks : s.stCnt + 1 = stPeriod) {k : Fin 3}
    (hk : s.btArmed[k] = true) : s.btCnt[k] + 1 = btAlarm k := by
  have htick := counter_add_one_toNat hok.timers.stCnt_lt
  rw [hticks, show stPeriod.toNat = 1000000 from rfl] at htick
  have hdue := h.due_in_time k hk
  have hlt := hok.timers.btCnt_lt k hk
  have hlast := btAlarm_le k
  refine BitVec.eq_of_toNat_eq ?_
  rw [counter_add_one_toNat (by omega)]
  omega

/-- No Second Tick that is left pending for phase 4 finds a Bit Timer armed: phase 3 disarms it first
(43_slot_scheduler R180). -/
theorem TimersInTurn.countPhases_idle (h : TimersInTurn s) (hp : pending (countPhases s) 3 = true) (k : Fin 3) :
    (countPhases s).btArmed[k] = false := by
  rw [countPhases_armed]
  cases hk : s.btArmed[k] with
  | false => rfl
  | true =>
    rw [pending_countPhases_tick, Bool.or_eq_true, Bool.and_eq_true, decide_eq_true_iff] at hp
    obtain hwaits | ⟨-, hticks⟩ := hp
    · cases hk.symm.trans (h.tick_waits_alone hwaits k)
    · rw [decide_eq_false (not_not_intro (h.at_alarm_of_tick hok hticks hk)), Bool.and_false]

/-- An armed Bit Timer counts with the Second Tick, so it stays due in time. -/
theorem TimersInTurn.countPhases (h : TimersInTurn s) : TimersInTurn (countPhases s) := by
  have harmed : ∀ k : Fin 3, (Machine.countPhases s).btArmed[k] = true → s.btArmed[k] = true := fun k hk => by
    rw [countPhases_armed, Bool.and_eq_true] at hk
    exact hk.1
  refine ⟨fun j k hj hk => h.one_armed j k (harmed j hj) (harmed k hk), fun k hk => ?_, h.countPhases_idle hok⟩
  have hk' := harmed k hk
  have hdue := h.due_in_time k hk'
  have hlt := hok.timers.btCnt_lt k hk'
  have hlast := btAlarm_le k
  rw [countPhases_stCnt_toNat (hok.timers.armed_running k hk') hok.timers.stCnt_lt, countPhases_cnt, if_pos hk',
    counter_add_one_toNat (by omega)]
  omega

/-- A Second Tick pending for phase 4 fired at most 200,000 microseconds ago. -/
theorem Disciplined.countPhases_stCnt_le (h : Disciplined s) (hp : pending (Machine.countPhases s) 3 = true) :
    (Machine.countPhases s).stCnt.toNat ≤ 200000 := by
  rw [pending_countPhases_tick, Bool.or_eq_true, Bool.and_eq_true, decide_eq_true_iff] at hp
  obtain hwaits | ⟨hr, hticks⟩ := hp
  · have hheld := h.held hwaits
    rw [countPhases_stCnt_toNat (hok.requests.pend_running 3 hwaits) hok.timers.stCnt_lt]
    omega
  · rw [countPhases_stCnt, countSecondTick_fire s hr hticks, fire_stCnt, setStCnt_stCnt]
    decide

end

/-! ### Phase 4 -/

/-- The services of the Bit Timers write no timer (43_slot_scheduler R188). -/
theorem TimersInTurn.serve_of_bit (h : TimersInTurn s) {i : Fin 4} (hi : i ≠ 3) : TimersInTurn (serve i s) := by
  cases hp : pending s i with
  | false => rwa [serve_of_not_pending hp]
  | true =>
    rw [serve_of_pending hp, handler_of_bit hi]
    refine h.of_same rfl rfl rfl fun hp' => ?_
    have hack : pending (acknowledge i s) 3 = true := hp'
    rw [pending_acknowledge, Bool.and_eq_true] at hack
    exact hack.1

theorem TimersInTurn.serveBits (h : TimersInTurn s) : TimersInTurn (serveBits s) :=
  ((h.serve_of_bit (by decide)).serve_of_bit (by decide)).serve_of_bit (by decide)

/-- TICK within 200,000 microseconds of the reload arms a Bit Timer that is due in time: none lasts longer than
800,000 (70_reset R272). -/
theorem timersInTurn_tickWith (v : SlotValue) (hidle : ∀ k : Fin 3, s.btArmed[k] = false)
    (hcnt : s.stCnt.toNat ≤ 200000) (hp : pending s 3 = false) : TimersInTurn (tickWith v s) where
  one_armed j k hj hk := ((tickWith_armed_iff v hidle j).mp hj).trans ((tickWith_armed_iff v hidle k).mp hk).symm
  due_in_time k _ := by
    have hlast := btAlarm_le k
    rw [tickWith_stCnt]
    omega
  tick_waits_alone hp' := by cases hp.symm.trans ((pending_of_pend (tickWith_pend s v) 3).symm.trans hp')

theorem TimersInTurn.serve_tick (h : TimersInTurn s) (hcnt : pending s 3 = true → s.stCnt.toNat ≤ 200000) :
    TimersInTurn (serve 3 s) := by
  cases hp : pending s 3 with
  | false => rwa [serve_of_not_pending hp]
  | true =>
    rw [serve_of_pending hp]
    refine timersInTurn_tickWith (s := acknowledge 3 s) _ (h.tick_waits_alone hp) (hcnt hp) ?_
    rw [pending_acknowledge, hp]
    rfl

/-! ### A microsecond -/

/-- A microsecond, held or not, keeps the timers in turn where the Second Tick has been held within the bound. -/
theorem Disciplined.usec (h : Disciplined s) (hok : TimersRequestsOk s) (hold : Bool) :
    TimersInTurn (usec hold s) := by
  have hcounted : TimersInTurn (countPhases s) := h.timersInTurn.countPhases hok
  cases hold with
  | true =>
    exact hcounted.of_same (holdAll_stCnt _) (holdAll_btArmed _) (holdAll_btCnt _)
      (pending_of_pend (holdAll_pend _) 3).symm.trans
  | false =>
    refine hcounted.serveBits.serve_tick fun hp => ?_
    rw [pending_serveBits_tick] at hp
    rw [show (serveBits (countPhases s)).stCnt = (countPhases s).stCnt by simp [serveBits]]
    exact h.countPhases_stCnt_le hok hp

end

end Sys2Proof.Machine

namespace Sys2Proof.Proofs

open Sys2Proof.Machine

/-- Settles O56: each kind of step keeps the timers in turn, and the bound on the held steps is the statement's own
premise; a tick pending for phase 4 finds every Bit Timer disarmed by phase 3. -/
theorem boundedStarvationKeepsOneTimer : Obligations.BoundedStarvationKeepsOneTimer := by
  refine ⟨disciplined_reset, fun c s t hinv h ht hheld => ?_⟩
  have hok : TimersRequestsOk (dropInput s) := timersRequestsOk_of_same hinv.timersRequests rfl rfl rfl rfl rfl rfl
  refine ⟨TimersInTurn.disciplined ?_ hheld, fun _ hp => ?_⟩
  · obtain ⟨-, hs⟩ | ⟨_, _, -, hs, he⟩ | ⟨hold, -, hs⟩ := stepWith_cases c s
    · cases hs.symm.trans ht
      exact timersInTurn_resetStep _
    · cases hs.symm.trans ht
      exact he.timersInTurn hok h.dropInput.timersInTurn
    · cases hs.symm.trans ht
      exact h.dropInput.usec hok hold
  · exact h.dropInput.timersInTurn.countPhases_idle hok hp

end Sys2Proof.Proofs
